-- ==== Sys2Proof/Word.lean ====
section
/-! DEFINITION. The word types of BQX (spec/00_scope.md R9, spec/30_encoding.md R81). -/

namespace Sys2Proof

/-- A 32-bit word: a command word, a datum of the port, or the binary32 encoding of a value of type `S`
(R9, R13). -/
abbrev Word := BitVec 32

/-- A 16-bit word address of the register space (R9, R60). -/
abbrev Addr := BitVec 16

/-- A sample register index field, 0..15 (R81). -/
abbrev Reg := BitVec 4

/-- A unit index field, 0..255 (R81). -/
abbrev UnitIdx := BitVec 8

end Sys2Proof
end

