-- ==== Sys2Proof/Syntax.lean ====
section
/-! DEFINITION. The 21 commands of BQX (spec/30_encoding.md R86, spec/opcode_table.json), one constructor each, with
the fields each uses (R82), in the table's order. -/

namespace Sys2Proof

/-- The history set a command works on: `ch = 0` left, `ch = 1` right (R85). -/
inductive Channel where
  | left
  | right
deriving DecidableEq, Repr

/-- A BQX command (R86). Register operands are `rd`, `ra`, `rb` in the order of the format (R81). -/
inductive Instr where
  | nop
  | lfoInit (u : UnitIdx)
  | lfoInitp (ra : Reg) (u : UnitIdx)
  | lfoInitr (u : UnitIdx)
  | lfoNext (rd : Reg) (u : UnitIdx)
  | lfoRange (rd ra rb : Reg) (u : UnitIdx)
  | lfoAdv (u : UnitIdx)
  | dlyInit (u : UnitIdx)
  | dlyProci (rd ra rb : Reg) (u : UnitIdx)
  | dlyProcf (rd ra rb : Reg) (u : UnitIdx)
  | biqSet (u : UnitIdx)
  | biqProc (rd ra : Reg) (ch : Channel) (u : UnitIdx)
  | biqRst (u : UnitIdx)
  | apcSet (a : UnitIdx)
  | apcProc (rd ra : Reg) (ch : Channel) (a : UnitIdx)
  | apcRst (a : UnitIdx)
  | mixWd (rd ra rb : Reg)
  | mixInt (rd ra rb : Reg)
  | mixFb (rd ra rb : Reg)
  | msL (rd ra rb : Reg)
  | msR (rd ra rb : Reg)
deriving DecidableEq, Repr

end Sys2Proof
end

