-- ==== Sys2Proof/Decode.lean ====
section
/-! DEFINITION. The command word format `F` and the opcode map (spec/30_encoding.md R80 to R90), the decoder, total
on every 32-bit word, and the encoder. The unit check of R84 depends on the unit counts and is made where a command is
executed (`WellFormed`, `Machine.illegalCommand`). -/

namespace Sys2Proof

/-- The rows of the opcode map (R86). -/
inductive Op where
  | nop | lfoInit | lfoInitp | lfoInitr | lfoNext | lfoRange | lfoAdv | dlyInit | dlyProci | dlyProcf
  | biqSet | biqProc | biqRst | apcSet | apcProc | apcRst | mixWd | mixInt | mixFb | msL | msR
deriving DecidableEq, Repr

/-- Why the decoder refuses a word (R88). -/
inductive DecodeError where
  /-- `op` is in no row of the opcode map. -/
  | unlistedOpcode
  /-- A listed `op` with a nonzero bit in `z` or in a field the command does not use. -/
  | reservedBitsSet
deriving DecidableEq, Repr

/-- The decoder's answer: a command, or a refusal by name. -/
inductive Decoded where
  | ok (i : Instr)
  | reject (e : DecodeError)
deriving DecidableEq, Repr

/-- Every row of the opcode map, in the table's order. -/
def Op.all : List Op :=
  [.nop, .lfoInit, .lfoInitp, .lfoInitr, .lfoNext, .lfoRange, .lfoAdv, .dlyInit, .dlyProci, .dlyProcf,
   .biqSet, .biqProc, .biqRst, .apcSet, .apcProc, .apcRst, .mixWd, .mixInt, .mixFb, .msL, .msR]

/-- The opcode column of R86. -/
def Op.code : Op → BitVec 8
  | .nop => 0x00
  | .lfoInit => 0x10
  | .lfoInitp => 0x11
  | .lfoInitr => 0x12
  | .lfoNext => 0x13
  | .lfoRange => 0x14
  | .lfoAdv => 0x15
  | .dlyInit => 0x20
  | .dlyProci => 0x21
  | .dlyProcf => 0x22
  | .biqSet => 0x30
  | .biqProc => 0x31
  | .biqRst => 0x32
  | .apcSet => 0x40
  | .apcProc => 0x41
  | .apcRst => 0x42
  | .mixWd => 0x50
  | .mixInt => 0x51
  | .mixFb => 0x52
  | .msL => 0x53
  | .msR => 0x54

/-- The "match" column of R86. -/
def Op.pattern : Op → Word
  | .nop => 0x00000000
  | .lfoInit => 0x10000000
  | .lfoInitp => 0x11000000
  | .lfoInitr => 0x12000000
  | .lfoNext => 0x13000000
  | .lfoRange => 0x14000000
  | .lfoAdv => 0x15000000
  | .dlyInit => 0x20000000
  | .dlyProci => 0x21000000
  | .dlyProcf => 0x22000000
  | .biqSet => 0x30000000
  | .biqProc => 0x31000000
  | .biqRst => 0x32000000
  | .apcSet => 0x40000000
  | .apcProc => 0x41000000
  | .apcRst => 0x42000000
  | .mixWd => 0x50000000
  | .mixInt => 0x51000000
  | .mixFb => 0x52000000
  | .msL => 0x53000000
  | .msR => 0x54000000

/-- The "mask" column of R86: a 1 in every bit that must match (R82). -/
def Op.mask : Op → Word
  | .nop => 0xFFFFFFFF
  | .lfoInit => 0xFFFFFF00
  | .lfoInitp => 0xFFF0FF00
  | .lfoInitr => 0xFFFFFF00
  | .lfoNext => 0xFF0FFF00
  | .lfoRange => 0xFF000F00
  | .lfoAdv => 0xFFFFFF00
  | .dlyInit => 0xFFFFFF00
  | .dlyProci => 0xFF000F00
  | .dlyProcf => 0xFF000F00
  | .biqSet => 0xFFFFFF00
  | .biqProc => 0xFF00F700
  | .biqRst => 0xFFFFFF00
  | .apcSet => 0xFFFFFF00
  | .apcProc => 0xFF00F700
  | .apcRst => 0xFFFFFF00
  | .mixWd => 0xFF000FFF
  | .mixInt => 0xFF000FFF
  | .mixFb => 0xFF000FFF
  | .msL => 0xFF000FFF
  | .msR => 0xFF000FFF

/-! ### The fields of a word (R81) -/

/-- `op`, bits 31:24. -/
def Word.op (w : Word) : BitVec 8 := w.extractLsb' 24 8
/-- `rd`, bits 23:20. -/
def Word.rd (w : Word) : Reg := w.extractLsb' 20 4
/-- `ra`, bits 19:16. -/
def Word.ra (w : Word) : Reg := w.extractLsb' 16 4
/-- `rb`, bits 15:12. -/
def Word.rb (w : Word) : Reg := w.extractLsb' 12 4
/-- `unit`, bits 7:0. -/
def Word.unit (w : Word) : UnitIdx := w.extractLsb' 0 8
/-- `ch`, bit 11: 0 left, 1 right (R85). -/
def Word.ch (w : Word) : Channel := if w.getLsbD 11 then .right else .left

/-- The channel bit of R85. -/
def Channel.bit : Channel → BitVec 1
  | .left => 0
  | .right => 1

/-! ### Decoding -/

/-- The row with this opcode, if any (R86: the opcodes differ, so there is at most one). -/
def Op.ofCode (c : BitVec 8) : Option Op := Op.all.find? (fun o => o.code == c)

/-- The command of a row, its used fields read from the word (R82, R83). -/
def Op.build (w : Word) : Op → Instr
  | .nop => .nop
  | .lfoInit => .lfoInit (Word.unit w)
  | .lfoInitp => .lfoInitp (Word.ra w) (Word.unit w)
  | .lfoInitr => .lfoInitr (Word.unit w)
  | .lfoNext => .lfoNext (Word.rd w) (Word.unit w)
  | .lfoRange => .lfoRange (Word.rd w) (Word.ra w) (Word.rb w) (Word.unit w)
  | .lfoAdv => .lfoAdv (Word.unit w)
  | .dlyInit => .dlyInit (Word.unit w)
  | .dlyProci => .dlyProci (Word.rd w) (Word.ra w) (Word.rb w) (Word.unit w)
  | .dlyProcf => .dlyProcf (Word.rd w) (Word.ra w) (Word.rb w) (Word.unit w)
  | .biqSet => .biqSet (Word.unit w)
  | .biqProc => .biqProc (Word.rd w) (Word.ra w) (Word.ch w) (Word.unit w)
  | .biqRst => .biqRst (Word.unit w)
  | .apcSet => .apcSet (Word.unit w)
  | .apcProc => .apcProc (Word.rd w) (Word.ra w) (Word.ch w) (Word.unit w)
  | .apcRst => .apcRst (Word.unit w)
  | .mixWd => .mixWd (Word.rd w) (Word.ra w) (Word.rb w)
  | .mixInt => .mixInt (Word.rd w) (Word.ra w) (Word.rb w)
  | .mixFb => .mixFb (Word.rd w) (Word.ra w) (Word.rb w)
  | .msL => .msL (Word.rd w) (Word.ra w) (Word.rb w)
  | .msR => .msR (Word.rd w) (Word.ra w) (Word.rb w)

/-- R86, R88: a word is the command of a row exactly when `(c AND mask) = match`; any other word is refused. -/
def decode (w : Word) : Decoded :=
  match Op.ofCode (Word.op w) with
  | none => .reject .unlistedOpcode
  | some o => if w &&& o.mask = o.pattern then .ok (o.build w) else .reject .reservedBitsSet

/-! ### Encoding -/

/-- The format of R81 assembled from its fields, `z = 0` (R87). -/
def pack (op : BitVec 8) (rd ra rb : Reg) (ch : BitVec 1) (u : UnitIdx) : Word :=
  op ++ rd ++ ra ++ rb ++ ch ++ 0#3 ++ u

/-- The word of a command: every unused field 0 (R87). -/
def encode : Instr → Word
  | .nop => pack 0x00 0 0 0 0 0
  | .lfoInit u => pack 0x10 0 0 0 0 u
  | .lfoInitp ra u => pack 0x11 0 ra 0 0 u
  | .lfoInitr u => pack 0x12 0 0 0 0 u
  | .lfoNext rd u => pack 0x13 rd 0 0 0 u
  | .lfoRange rd ra rb u => pack 0x14 rd ra rb 0 u
  | .lfoAdv u => pack 0x15 0 0 0 0 u
  | .dlyInit u => pack 0x20 0 0 0 0 u
  | .dlyProci rd ra rb u => pack 0x21 rd ra rb 0 u
  | .dlyProcf rd ra rb u => pack 0x22 rd ra rb 0 u
  | .biqSet u => pack 0x30 0 0 0 0 u
  | .biqProc rd ra ch u => pack 0x31 rd ra 0 ch.bit u
  | .biqRst u => pack 0x32 0 0 0 0 u
  | .apcSet a => pack 0x40 0 0 0 0 a
  | .apcProc rd ra ch a => pack 0x41 rd ra 0 ch.bit a
  | .apcRst a => pack 0x42 0 0 0 0 a
  | .mixWd rd ra rb => pack 0x50 rd ra rb 0 0
  | .mixInt rd ra rb => pack 0x51 rd ra rb 0 0
  | .mixFb rd ra rb => pack 0x52 rd ra rb 0 0
  | .msL rd ra rb => pack 0x53 rd ra rb 0 0
  | .msR rd ra rb => pack 0x54 rd ra rb 0 0

/-- The opcode-table row a command belongs to. -/
def Instr.row : Instr → Op
  | .nop => .nop
  | .lfoInit _ => .lfoInit
  | .lfoInitp _ _ => .lfoInitp
  | .lfoInitr _ => .lfoInitr
  | .lfoNext _ _ => .lfoNext
  | .lfoRange _ _ _ _ => .lfoRange
  | .lfoAdv _ => .lfoAdv
  | .dlyInit _ => .dlyInit
  | .dlyProci _ _ _ _ => .dlyProci
  | .dlyProcf _ _ _ _ => .dlyProcf
  | .biqSet _ => .biqSet
  | .biqProc _ _ _ _ => .biqProc
  | .biqRst _ => .biqRst
  | .apcSet _ => .apcSet
  | .apcProc _ _ _ _ => .apcProc
  | .apcRst _ => .apcRst
  | .mixWd _ _ _ => .mixWd
  | .mixInt _ _ _ => .mixInt
  | .mixFb _ _ _ => .mixFb
  | .msL _ _ _ => .msL
  | .msR _ _ _ => .msR

/-- The command the decoder reads from the word `w` of `nbits` bits. A BQX command is exactly one 32-bit word (R80), so
no instruction of more bits exists, and the bits above a shorter `nbits` are 0. -/
def decodeTableWord (nbits w : Nat) : Option Instr :=
  if nbits ≤ 32 then
    match decode (BitVec.ofNat 32 (w % 2 ^ nbits)) with
    | .ok i => some i
    | .reject _ => none
  else none

end Sys2Proof
end

