-- ==== Sys2Proof/Config.lean ====
section
/-! DEFINITION. What an implementation of BQX fixes (spec/00_scope.md R8) and the free values of the spec
(spec/93_implementation_defined.md U1 to U4). An opaque constant here has no body: no proof can see its value, so
a statement about it holds for every value it could have. -/

namespace Sys2Proof

/-- The eleven biquad topologies, in the order and with the numbers of R39. -/
inductive BiquadType where
  | lp1 | lp2 | hp1 | hp2 | bp | notch | ap1 | ap2 | lsh | hsh | peak
deriving DecidableEq, Repr

/-- The coefficient function `Coef` of an implementation (R8, U4): the reference instantiation of R169 to R180, or the
`n`-th of the other functions that R163 to R168 allow and that meet R187 and R206, whose values are free. Log entries 7, 23
and 24. -/
inductive CoefSel where
  | reference
  | other (n : Nat)
deriving DecidableEq, Repr

/-- The number of units of each family and of stages in a cascade (R8). -/
structure Sizes where
  nLfo : Nat
  nDly : Nat
  nBiq : Nat
  nApc : Nat
  apcNStage : Nat
deriving DecidableEq, Repr

/-- The other parameters of R8: `DLY_CAP`, `SR_MIN`, `SR_MAX`, `APC_FMIN` and `Coef`. -/
structure Params where
  dlyCap : Nat
  srMin : Word
  srMax : Word
  apcFmin : Word
  coef : CoefSel
deriving DecidableEq, Repr

/-- The configuration record `Cfg` of R8 (its `Num` is binary32, log entry 3; its `Rng` is `Config.rngBits`). -/
structure Cfg where
  sizes : Sizes
  params : Params
deriving DecidableEq, Repr

/-- The default column of R8: 16 units of each family, one cascade of 200 stages, 262144 words of history, sample
rates 8000.0 to 384000.0, stage frequencies from 300.0. DESIGN CHOICE (the spec calls it a suggestion), log entry 2. -/
def Cfg.default : Cfg where
  sizes := { nLfo := 16, nDly := 16, nBiq := 16, nApc := 1, apcNStage := 200 }
  params :=
    { dlyCap := 262144, srMin := 0x45FA0000, srMax := 0x48BB8000, apcFmin := 0x43960000, coef := .reference }

/-- FREE VALUE (U1, R13): the bits from which the NaN of one operation is made; the arguments are the transaction's
index and the operation's site in it. Log entry 4. -/
opaque Config.nanBits : Nat → Nat → Word

/-- FREE VALUE (U3, R13): the uninterpreted `sin`, before the properties R13 fixes are imposed. Log entry 5. -/
opaque Config.sinBits : Word → Word

/-- FREE VALUE (U3, R13): the uninterpreted `cos`. Log entry 5. -/
opaque Config.cosBits : Word → Word

/-- FREE VALUE (U3, R13): the uninterpreted `tan`. Log entry 5. -/
opaque Config.tanBits : Word → Word

/-- FREE VALUE (U2, R123): the uninterpreted generator `Rng(seed, n)`, before its range is imposed. Log entry 6. -/
opaque Config.rngBits : Word → Nat → Word

/-- FREE VALUE (U1, R163): the bits of a NaN that arises inside `Coef`; by R163 it depends on the arguments
`(t, fc, q, g, fs)` alone, and on the operation's site. Log entry 8. -/
opaque Config.coefNanBits : BiquadType → Word → Word → Word → Word → Nat → Word

/-- FREE VALUE (U4): the five free coefficients of the `n`-th other `Coef`, at `(t, fc, q, g, fs)` and the
coefficient's position, before the properties of R187 and R206 are imposed. Log entry 7. -/
opaque Config.coefBits : Nat → BiquadType → Word → Word → Word → Word → Nat → Word

end Sys2Proof
end

