-- ==== Sys2Proof/Machine/State.lean ====
section
/-! DEFINITION. The state of BQX (spec/10_state.md), the reasons a step could stop, and the state after reset
(R47, R280). State is plain data. -/

namespace Sys2Proof.Machine

/-- A private memory of 32-bit words, such as a delay line's histories (R33, R60): (address, word) pairs, addresses
strictly rising, no pair equal to what an unlisted address reads as. The word is the smallest addressable unit (R62).
Log entry 11. -/
abbrev Memory := List (Nat × Word)

/-- A host transaction (R100). -/
inductive Txn where
  | wr (addr : Addr) (data : Word)
  | rd (addr : Addr)
deriving DecidableEq, Repr

/-- An LFO unit (R30). -/
structure LfoUnit where
  phase : Word
  rate : Word
deriving DecidableEq, Repr

/-- A delay line (R32, R33). -/
structure DlyUnit where
  size : Nat
  n : Nat
  w : Nat
  fb : Word
  sized : Bool
  x : Memory
  y : Memory
deriving DecidableEq, Repr

/-- The seven coefficients of a biquad section (R38, R160). -/
structure Coeffs where
  a0 : Word
  a1 : Word
  a2 : Word
  b0 : Word
  b1 : Word
  c0 : Word
  d0 : Word
deriving DecidableEq, Repr

/-- The four history cells of one channel (R38, R160). -/
structure Cells where
  x1 : Word
  x2 : Word
  y1 : Word
  y2 : Word
deriving DecidableEq, Repr

/-- A biquad section: one coefficient set shared by two independent history sets (R40, R43). -/
structure Section where
  coeffs : Coeffs
  left : Cells
  right : Cells
deriving DecidableEq, Repr

/-- A stand-alone biquad unit (R38). -/
structure BiqUnit where
  type : BiquadType
  cutoff : Word
  q : Word
  gain : Word
  sec : Section
deriving DecidableEq, Repr

/-- A stage of a cascade: its centre frequency `F[k]` and its section (R42, R43). -/
structure Stage where
  freq : Word
  sec : Section
deriving DecidableEq, Repr

/-- An allpass cascade (R42); `APC_NSTAGE` is the length of `stages`. -/
structure ApcUnit where
  active : Nat
  q : Word
  stages : List Stage
deriving DecidableEq, Repr

/-- The state of BQX, with the model's own fields `params`, `host` and `reply`. The counts `N_LFO`, `N_DLY`, `N_BIQ`
and `N_APC` are the lengths of the unit lists (log entry 1). -/
structure State where
  /-- Parameters of the instance; no step writes them (R46, log entry 1). -/
  params : Params
  /-- The host's transactions not yet performed, oldest first (R7, R100, log entry 9). -/
  host : List Txn
  /-- The word the latest `RD` returned (R102, log entry 10). -/
  reply : Option Word
  /-- The index of the next transaction, which a model may call the pc (R24, log entry 12). -/
  txn : Nat
  /-- The sample registers (R20). -/
  v : Vector Word 16
  /-- `STATUS[3:0]` (R25). -/
  status : BitVec 4
  /-- The sample rate (R27). -/
  sr : Word
  /-- The seed of the random-phase generator (R28). -/
  seed : Word
  /-- The hidden draw counter `rng_n` (R45). -/
  rngN : Nat
  /-- `MIX_WET` (R29). -/
  mixWet : Word
  /-- `MIX_DRY` (R29). -/
  mixDry : Word
  /-- `MIX_INT` (R29). -/
  mixInt : Word
  /-- `MIX_FB` (R29). -/
  mixFb : Word
  /-- `MS_MID` (R29). -/
  msMid : Word
  /-- `MS_SIDE` (R29). -/
  msSide : Word
  /-- The LFO units (R30). -/
  lfo : List LfoUnit
  /-- The delay lines (R32, R33). -/
  dly : List DlyUnit
  /-- The biquad units (R38). -/
  biq : List BiqUnit
  /-- The allpass cascades (R42). -/
  apc : List ApcUnit
deriving DecidableEq, Repr

/-- BQX never faults into a stopped state (R100, R262): no definition raises a fault, and there is none to raise. -/
inductive Fault where
deriving DecidableEq, Repr

/-- BQX never refuses a transaction (R100). -/
inductive Refusal where
  /-- An instruction that has no meaning yet; raised by an arm of `exec` only. No arm raises it, since every
  instruction has its meaning. Safe: a run would stop where the hardware goes on. -/
  | notModelled (mnemonic : String)
deriving DecidableEq, Repr

/-- The outcome of a step of this machine. -/
abbrev Result := Host.Outcome State Fault Refusal

/-- Seven coefficients `+0` (R38, R42). -/
def Coeffs.zero : Coeffs := { a0 := 0, a1 := 0, a2 := 0, b0 := 0, b1 := 0, c0 := 0, d0 := 0 }

/-- Four history cells `+0` (R38, R42). -/
def Cells.zero : Cells := { x1 := 0, x2 := 0, y1 := 0, y2 := 0 }

/-- A section with every register `+0` (R38, R42). -/
def Section.zero : Section := { coeffs := .zero, left := .zero, right := .zero }

/-- An LFO after reset (R30). -/
def LfoUnit.reset : LfoUnit := { phase := 0, rate := 0 }

/-- A delay line after reset (R32); the contents of its histories, which R34 leaves open and nothing can observe, are
the word an unlisted address reads as (log entry 11). -/
def DlyUnit.reset : DlyUnit := { size := 1, n := 0, w := 0, fb := 0, sized := false, x := [], y := [] }

/-- A biquad after reset: `TYPE = 0`, `CUTOFF = 20.0`, `Q = 0.5`, the rest `+0` (R38). -/
def BiqUnit.reset : BiqUnit := { type := .lp1, cutoff := 0x41A00000, q := 0x3F000000, gain := 0, sec := .zero }

/-- A cascade after reset: `ACTIVE = 1`, `Q = 1.0`, every `F[k] = APC_FMIN`, the rest `+0` (R42). -/
def ApcUnit.reset (c : Cfg) : ApcUnit where
  active := 1
  q := 0x3F800000
  stages := List.replicate c.sizes.apcNStage { freq := c.params.apcFmin, sec := .zero }

/-- The reset state of an instance with configuration `c` (R47). -/
def State.resetOf (c : Cfg) : State where
  params := c.params
  host := []
  reply := none
  txn := 0
  v := Vector.replicate 16 0
  status := 0
  sr := c.params.srMin
  seed := 0
  rngN := 0
  mixWet := 0
  mixDry := 0
  mixInt := 0
  mixFb := 0
  msMid := 0
  msSide := 0
  lfo := List.replicate c.sizes.nLfo .reset
  dly := List.replicate c.sizes.nDly .reset
  biq := List.replicate c.sizes.nBiq .reset
  apc := List.replicate c.sizes.nApc (.reset c)

/-- The machine right after reset (R47, R280), for the default instance of R8 (log entry 2). -/
def State.reset : State := State.resetOf Cfg.default

end Sys2Proof.Machine
end

