-- ==== Sys2Proof/Machine/Flags.lean ====
section
/-! DEFINITION. The sticky flags of `STATUS` (spec/10_state.md R25, spec/60_exceptions.md R260 to R263). -/

namespace Sys2Proof.Machine

/-- The four abnormal conditions (R260). -/
inductive Flag where
  /-- Code 0: a process command addressed a delay line that is not sized. -/
  | uninit
  /-- Code 1: a value out of its legal range was clamped, or a reserved `TYPE` value ignored. -/
  | clamp
  /-- Code 2: a word written to `CMD` is not a legal command. -/
  | illcmd
  /-- Code 3: access to a reserved address, or write to a read-only register. -/
  | illaddr
deriving DecidableEq, Repr

/-- The code of a condition is its bit number in `STATUS` (R260). -/
def Flag.code : Flag → Nat
  | .uninit => 0
  | .clamp => 1
  | .illcmd => 2
  | .illaddr => 3

/-- The bit of a flag in `STATUS[3:0]`. -/
def Flag.bit (f : Flag) : BitVec 4 := 1#4 <<< f.code

/-- Whether a flag is set. -/
def State.flag (s : State) (f : Flag) : Bool := s.status.getLsbD f.code

/-- `raise <Flag>`: set the sticky flag and nothing more (R10, R262). It is what BQX has in place of taking an exception:
no trap, nothing saved, no transfer of control (R266). -/
def State.raise (s : State) (f : Flag) : State := { s with status := s.status ||| f.bit }

/-- `if c: raise <Flag>`. -/
def State.raiseIf (s : State) (c : Bool) (f : Flag) : State := if c then s.raise f else s

/-- `WR STATUS, m`: each flag whose bit in `m[3:0]` is 1 becomes 0 (R101, R263). -/
def State.clearFlags (s : State) (m : Word) : State := { s with status := s.status &&& ~~~(m.extractLsb' 0 4) }

end Sys2Proof.Machine
end

