-- ==== Sys2Proof/Machine/Num.lean ====
section
/-! DEFINITION. The number system `Num` (spec/00_scope.md R12 to R15), decided as IEEE 754 binary32, round to nearest
even, subnormals kept (R13, log entry 3). A finite value is read as an integer number of units of 2^-149, an operation
is computed exactly, and one rounding narrows it. Every operation that can return a NaN takes, as its first argument,
the NaN it returns (U1: the caller draws it). -/

namespace Sys2Proof.Machine.F32

/-! ### The encoding (R13) -/

/-- Sign bit 31. -/
def sign (a : Word) : Bool := a.msb
/-- Bits 30:0, exponent and fraction; it orders the values of one sign. -/
def mag (a : Word) : Nat := a.toNat % 2 ^ 31
def isNaN (a : Word) : Bool := 0x7F800000 < mag a
def isInf (a : Word) : Bool := mag a == 0x7F800000
def isFinite (a : Word) : Bool := mag a < 0x7F800000
def isZero (a : Word) : Bool := mag a == 0

/-- Constants of R12 and R14. -/
def zero : Word := 0x00000000
def negZero : Word := 0x80000000
def half : Word := 0x3F000000
def one : Word := 0x3F800000
def negOne : Word := 0xBF800000
def two : Word := 0x40000000
def four : Word := 0x40800000
def pi : Word := 0x40490FDB
def twoPi : Word := 0x40C90FDB
def phaseMax : Word := 0x40C90FDA
def posInf : Word := 0x7F800000

/-- The word with this sign and these bits 30:0. -/
def ofMag (neg : Bool) (m : Nat) : Word := BitVec.ofNat 32 (if neg then 2 ^ 31 + m else m)

/-- The NaN made from 32 free bits: the sign and the fraction are theirs, but a zero fraction (an infinity) becomes
the fraction with only its top bit set. Every NaN encoding is the NaN made from itself. -/
def nanOf (b : Word) : Word :=
  ofMag (sign b) (0x7F800000 + (if b.toNat % 2 ^ 23 = 0 then 2 ^ 22 else b.toNat % 2 ^ 23))

/-! ### Values and rounding -/

/-- The size of a finite value in units of 2^-149: subnormals have exponent field 0 and no hidden bit. -/
def unitsAbs (a : Word) : Nat :=
  if mag a / 2 ^ 23 = 0 then mag a else (2 ^ 23 + mag a % 2 ^ 23) * 2 ^ (mag a / 2 ^ 23 - 1)

/-- A finite value in units of 2^-149. -/
def units (a : Word) : Int := if sign a then -(unitsAbs a : Int) else unitsAbs a

/-- The integer nearest to `n / d`, ties to even. -/
def nearestEven (n d : Nat) : Nat :=
  if 2 * (n % d) < d then n / d
  else if 2 * (n % d) = d then n / d + n / d % 2
  else n / d + 1

/-- How many low bits of the integer part of `n / d` do not fit in 24 bits. -/
def excess (n d : Nat) : Nat := (n / d).log2 - 23

/-- Bits 30:0 of the binary32 value nearest to `n / d` units of 2^-149. The quotient rounded at its top 24 bits is the
fraction with its hidden bit, so adding it to `excess` exponents gives the encoding, a carry moves into the exponent,
and past the largest finite value it is infinity (R13). -/
def roundMag (n d : Nat) : Nat :=
  min 0x7F800000 (excess n d * 2 ^ 23 + nearestEven n (d * 2 ^ excess n d))

/-- Round `n / d` units of 2^-149 with the given sign. -/
def round (neg : Bool) (n d : Nat) : Word := ofMag neg (roundMag n d)

/-! ### Arithmetic (R12, R13) -/

/-- `neg(a)`: sign flip, exact (R12). -/
def neg (a : Word) : Word := a ^^^ 0x80000000

/-- `a ⊕ b`. -/
def add (nan a b : Word) : Word :=
  if isNaN a || isNaN b then nan
  else if isInf a then (if isInf b && sign a != sign b then nan else a)
  else if isInf b then b
  else if units a + units b = 0 then (if sign a && sign b then negZero else zero)
  else round (units a + units b < 0) (units a + units b).natAbs 1

/-- `a ⊖ b`. -/
def sub (nan a b : Word) : Word := add nan a (neg b)

/-- `a ⊗ b`. -/
def mul (nan a b : Word) : Word :=
  if isNaN a || isNaN b then nan
  else if isInf a || isInf b then
    (if isZero a || isZero b then nan else ofMag (sign a != sign b) 0x7F800000)
  else round (sign a != sign b) (unitsAbs a * unitsAbs b) (2 ^ 149)

/-- `a ⊘ b`. -/
def div (nan a b : Word) : Word :=
  if isNaN a || isNaN b then nan
  else if isInf a then (if isInf b then nan else ofMag (sign a != sign b) 0x7F800000)
  else if isInf b then ofMag (sign a != sign b) 0
  else if isZero b then (if isZero a then nan else ofMag (sign a != sign b) 0x7F800000)
  else round (sign a != sign b) (unitsAbs a * 2 ^ 149) (unitsAbs b)

/-! ### Comparisons (R12: false with a NaN operand) -/

/-- An integer that orders all values but the NaNs; both zeros are 0. -/
def key (a : Word) : Int := if sign a then -(mag a : Int) else mag a

def lt (a b : Word) : Bool := !isNaN a && !isNaN b && key a < key b
def le (a b : Word) : Bool := !isNaN a && !isNaN b && key a ≤ key b
def eq (a b : Word) : Bool := !isNaN a && !isNaN b && key a == key b
def gt (a b : Word) : Bool := lt b a
def ge (a b : Word) : Bool := le b a

/-! ### Integers (R12) -/

/-- `floor(a)` of a finite `a`, a mathematical integer. The model applies it to finite values only. -/
def floor (a : Word) : Int := units a / 2 ^ 149

/-- `ofInt(n)`, exact for `|n| ≤ 2^24`. -/
def ofInt (n : Int) : Word := round (n < 0) (n.natAbs * 2 ^ 149) 1

/-! ### Functions the spec leaves uninterpreted (R13, U2, U3) -/

/-- `sin`: `sin(+0) = +0`; within [-1, 1] for finite operands; a NaN for others. Log entry 5. -/
def sin (a : Word) : Word :=
  if isFinite a then
    (if a = zero then zero
     else if le negOne (Config.sinBits a) && le (Config.sinBits a) one then Config.sinBits a else zero)
  else nanOf (Config.sinBits a)

/-- `cos`: within [-1, 1] for finite operands; a NaN for others. Log entry 5. -/
def cos (a : Word) : Word :=
  if isFinite a then
    (if le negOne (Config.cosBits a) && le (Config.cosBits a) one then Config.cosBits a else zero)
  else nanOf (Config.cosBits a)

/-- `tan`: any value for finite operands; a NaN for others. Log entry 5. -/
def tan (a : Word) : Word := if isFinite a then Config.tanBits a else nanOf (Config.tanBits a)

/-- `Rng(seed, n)`: a value `p` with `0 ≤ p ≤ PHASE_MAX` (R123). Log entry 6. -/
def rng (seed : Word) (n : Nat) : Word :=
  if le zero (Config.rngBits seed n) && le (Config.rngBits seed n) phaseMax then Config.rngBits seed n else zero

/-! ### Clamping (R15) -/

/-- `clamp(a, lo, hi)`. -/
def clamp (a lo hi : Word) : Word :=
  if isNaN a || lt a lo then lo else if gt a hi then hi else a

/-- `clampLo(a, lo)`. -/
def clampLo (a lo : Word) : Word := if isNaN a || lt a lo then lo else a

/-- `clamped(a, lo, hi)`: the clamped value is not the same value as `a`. -/
def clamped (a lo hi : Word) : Bool := clamp a lo hi != a

end Sys2Proof.Machine.F32
end

