-- ==== Sys2Proof/Machine/Ops.lean ====
section
/-! DEFINITION. The named operations over memories, registers and units, and the shared answer to an illegal
command. -/

namespace Sys2Proof.Machine

/-! ### Private memories (R33, R60): an unlisted address reads as `+0` (log entry 11) -/

/-- The word at an address. -/
def Memory.read : Memory → Nat → Word
  | [], _ => F32.zero
  | (k, x) :: rest, a => if a = k then x else Memory.read rest a

/-- Write a word, keeping the canonical form: writing what an unlisted address reads as removes the entry. -/
def Memory.write : Memory → Nat → Word → Memory
  | [], a, x => if x = F32.zero then [] else [(a, x)]
  | (k, y) :: rest, a, x =>
    if a < k then (if x = F32.zero then (k, y) :: rest else (a, x) :: (k, y) :: rest)
    else if a = k then (if x = F32.zero then rest else (a, x) :: rest)
    else (k, y) :: Memory.write rest a x

/-- Write `+0` to every address below `n` (R142); the others keep what they hold. -/
def Memory.clearBelow (m : Memory) (n : Nat) : Memory := m.filter (fun c => n ≤ c.1)

/-- The canonical form: addresses strictly rising from `lo` on, no entry `+0`. -/
def Memory.wfFrom : Nat → Memory → Bool
  | _, [] => true
  | lo, (k, x) :: rest => decide (lo ≤ k) && x != F32.zero && Memory.wfFrom (k + 1) rest

/-- The canonical form holds. -/
def Memory.wf (m : Memory) : Bool := Memory.wfFrom 0 m

/-! ### Sample registers (R10, R20) -/

/-- `v[i]`. -/
def State.readV (s : State) (i : Reg) : Word := s.v[i.toNat]'i.isLt

/-- `v[i] <- x`: the 32 bits unchanged (R20). -/
def State.writeV (s : State) (i : Reg) (x : Word) : State := { s with v := s.v.set i.toNat x i.isLt }

/-! ### Units -/

/-- Replace LFO `u`. -/
def State.setLfo (s : State) (u : Nat) (l : LfoUnit) : State := { s with lfo := s.lfo.set u l }

/-- Replace delay line `u`. -/
def State.setDly (s : State) (u : Nat) (l : DlyUnit) : State := { s with dly := s.dly.set u l }

/-- Replace biquad `u`. -/
def State.setBiq (s : State) (u : Nat) (b : BiqUnit) : State := { s with biq := s.biq.set u b }

/-- Replace cascade `a`. -/
def State.setApc (s : State) (a : Nat) (c : ApcUnit) : State := { s with apc := s.apc.set a c }

/-- `rng_n <- n` (R45). -/
def State.setRngN (s : State) (n : Nat) : State := { s with rngN := n }

/-- The unit counts of the instance (R8); `APC_NSTAGE` is that of the first cascade. -/
def State.sizes (s : State) : Sizes where
  nLfo := s.lfo.length
  nDly := s.dly.length
  nBiq := s.biq.length
  nApc := s.apc.length
  apcNStage := (s.apc.map (fun c => c.stages.length)).headD 0

/-! ### Draws and the illegal command -/

/-- The NaN that operation site `site` of the present transaction returns if its result is a NaN (R13, U1): any NaN
encoding, drawn anew for every transaction and site. Log entry 4. -/
def State.nan (s : State) (site : Nat) : Word := F32.nanOf (Config.nanBits s.txn site)

/-- An illegal command sets `ILLCMD` and changes no other state; it does not trap (R88, R107). -/
def illegalCommand (s : State) : Result := .next (s.raise .illcmd)

end Sys2Proof.Machine
end

