-- ==== Sys2Proof/Machine/Operands.lean ====
section
/-! DEFINITION. Operand forms shared by the commands: the channel selection (spec/30_encoding.md R85), the delay operand
(spec/42_delay.md R143) and the circular index into a history (spec/20_memory.md R67). -/

namespace Sys2Proof.Machine

/-! ### Channel (R85): `ch = 0` the left cells, `ch = 1` the right cells -/

/-- The cells of a section for a channel. -/
def Section.cells (b : Section) : Channel → Cells
  | .left => b.left
  | .right => b.right

/-- Replace the cells of one channel; the other channel and the coefficients are not touched (R40). -/
def Section.setCells (b : Section) (ch : Channel) (c : Cells) : Section :=
  match ch with
  | .left => { b with left := c }
  | .right => { b with right := c }

/-- All eight cells `+0`; the coefficients are not touched (R183, R205). -/
def Section.clearCells (b : Section) : Section := { b with left := .zero, right := .zero }

/-! ### Delay operand (R143) -/

/-- The largest valid delay of a line of `n` samples, `ofInt(N − 1)`. -/
def maxDelay (n : Nat) : Word := F32.ofInt ((n : Int) - 1)

/-- `d`: the requested delay clamped to `[0, N − 1]`. -/
def delayOf (n : Nat) (req : Word) : Word := F32.clamp req F32.zero (maxDelay n)

/-- Whether the request was clamped. -/
def delayClamped (n : Nat) (req : Word) : Bool := F32.clamped req F32.zero (maxDelay n)

/-- `di = floor(d)`. -/
def delayWhole (n : Nat) (req : Word) : Int := F32.floor (delayOf n req)

/-- `fd = d ⊖ ofInt(di)`. -/
def delayFrac (nan : Word) (n : Nat) (req : Word) : Word :=
  F32.sub nan (delayOf n req) (F32.ofInt (delayWhole n req))

/-- `i mod N`, in `0..N−1` for `N > 0` (R11, R67). -/
def slot (n : Nat) (i : Int) : Nat := (i % (n : Int)).toNat

end Sys2Proof.Machine
end

