-- ==== Sys2Proof/Machine/Response.lean ====
section
/-! DEFINITION. The testable properties any admissible `Coef` must meet (spec/43_biquad.md R187,
spec/44_allpass_cascade.md R206): the settled response of a coefficient set to a sine, computed exactly on integers. Only
the lowpasses, the notch and the second-order allpass are concerned; their post-scale is the identity (R168). How the
properties are read is log entries 23 (R187) and 24 (R206), each a DESIGN CHOICE. -/

namespace Sys2Proof.Machine

/-! ### The response of the recurrence of R182 -/

/-- A polynomial `p0 + p1·z⁻¹ + p2·z⁻²`, its coefficients in units of 2^-149. -/
structure Poly where
  p0 : Int
  p1 : Int
  p2 : Int
deriving DecidableEq, Repr

/-- The cosine `n / d` of an angular frequency. -/
structure Cosine where
  n : Int
  d : Int
deriving DecidableEq, Repr

/-- One, in units of 2^-149. -/
def oneUnits : Int := 2 ^ 149

/-- The feed-forward polynomial `a0, a1, a2` (R182). -/
def forward (k : Coeffs) : Poly := ⟨F32.units k.a0, F32.units k.a1, F32.units k.a2⟩

/-- The feedback polynomial `1, b0, b1` (R182). -/
def feedback (k : Coeffs) : Poly := ⟨oneUnits, F32.units k.b0, F32.units k.b1⟩

/-- The difference of two polynomials. -/
def polySub (p q : Poly) : Poly := ⟨p.p0 - q.p0, p.p1 - q.p1, p.p2 - q.p2⟩

/-- `d²` times the squared magnitude of a polynomial at the angle with cosine `n / d`, from
`p0² + p1² + p2² + 2·p1·(p0 + p2)·cos + 2·p0·p2·(2·cos² − 1)`. -/
def power (p : Poly) (w : Cosine) : Int :=
  (p.p0 ^ 2 + p.p1 ^ 2 + p.p2 ^ 2) * w.d ^ 2 + 2 * p.p1 * (p.p0 + p.p2) * w.n * w.d
    + 2 * p.p0 * p.p2 * (2 * w.n ^ 2 - w.d ^ 2)

/-- The imaginary part of `forward · conj(feedback)` divided by the sine of the angle, times `d`; zero exactly when the
settled output is in phase or in opposite phase. -/
def quadrature (p q : Poly) (w : Cosine) : Int :=
  (p.p0 * q.p1 - p.p1 * q.p0 + p.p1 * q.p2 - p.p2 * q.p1) * w.d + 2 * (p.p0 * q.p2 - p.p2 * q.p0) * w.n

/-- All five coefficients of the recurrence are finite. -/
def finiteSet (k : Coeffs) : Bool :=
  F32.isFinite k.a0 && F32.isFinite k.a1 && F32.isFinite k.a2 && F32.isFinite k.b0 && F32.isFinite k.b1

/-- Both poles lie within the radius `r / s`: `|b1| < (r/s)²` and `|b0|·(r/s) < (r/s)² + b1`. With `r = s` the set is
stable, so its output settles. -/
def polesWithin (r s : Int) (k : Coeffs) : Bool :=
  decide (s ^ 2 * |F32.units k.b1| < r ^ 2 * oneUnits ∧
    s * r * |F32.units k.b0| < r ^ 2 * oneUnits + s ^ 2 * F32.units k.b1)

/-- A finite stable set: an input that is a sine leaves a sine once the transient is gone. -/
def settles (k : Coeffs) : Bool := finiteSet k && polesWithin 1 1 k

/-! ### Angles, in fixed point -/

/-- The fixed point of a cosine. -/
def fixOne : Int := 2 ^ 60

/-- `π · 2^60`. -/
def fixPi : Int := 3622009729038561421

/-- The cosine of `n / d` of a turn, for at most half a turn: 16 terms of the power series of `2π·n/d`, innermost first.
Log entry 23. -/
def cosTurn (n d : Int) : Cosine :=
  let x := 2 * fixPi * n / d
  let x2 := x * x / fixOne
  ⟨(List.range 16).foldr (fun k c => fixOne - x2 * c / ((2 * k + 1) * (2 * k + 2) * fixOne)) fixOne, fixOne⟩

/-- The cosine of the doubled angle, exactly. -/
def doubled (w : Cosine) : Cosine := ⟨2 * w.n ^ 2 - w.d ^ 2, w.d ^ 2⟩

/-! ### The properties (R187, R206) -/

/-- "output ≈ input after settling": for a constant input and for a sine at `SR / 44.1` (T3.8's 1 kHz at 44100 Hz) the
output differs from the input by at most 5 % of its amplitude: `400 · |forward − feedback|² ≤ |feedback|²`. -/
def passesThrough (k : Coeffs) : Bool :=
  settles k && [⟨1, 1⟩, cosTurn 10 441].all fun w =>
    decide (400 * power (polySub (forward k) (feedback k)) w ≤ power (feedback k) w)

/-- A sine at `fc` is suppressed by more than 20 dB relative to one at `2·fc`: the squared gains differ by more than a
factor of 100. -/
def notches (fc fs : Word) (k : Coeffs) : Bool :=
  let w := cosTurn (F32.units fc) (F32.units fs)
  settles k && decide (100 * power (forward k) w * power (feedback k) (doubled w) <
    power (forward k) (doubled w) * power (feedback k) w)

/-- The scenario of R187 at 44100 Hz: settled within about 200 samples (poles within 0.985, whose 200th power is below
5 %), a sine of 100 Hz comes out within 5 % of its amplitude and phase-shifted, and one of 10 kHz at least 12 dB down:
`(gain²)⁵ ≤ 10⁻⁶`. -/
def meetsScenario (k : Coeffs) : Bool :=
  let low := cosTurn 100 44100
  let high := cosTurn 10000 44100
  finiteSet k && polesWithin 985 1000 k &&
    decide (95 ^ 2 * power (feedback k) low ≤ 100 ^ 2 * power (forward k) low ∧
      100 ^ 2 * power (forward k) low ≤ 105 ^ 2 * power (feedback k) low ∧
      quadrature (forward k) (feedback k) low ≠ 0 ∧
      10 ^ 6 * power (forward k) high ^ 5 ≤ power (feedback k) high ^ 5)

/-- The magnitudes `|p|` and `|q|` of two polynomials agree up to the rounding of coefficients, as a test on the squares
`A` and `B`: `(A − B)² ≤ 2·ε²·(A + B)` with `ε = 2⁻¹⁸`. It holds when the magnitudes differ by at most `ε`, and then they
differ by at most `2·ε`. Log entry 24. -/
def magnitudesAgree (p q : Poly) (w : Cosine) : Bool :=
  decide (2 ^ 36 * (power p w - power q w) ^ 2 ≤ 2 * (oneUnits * w.d) ^ 2 * (power p w + power q w))

/-- "without changing magnitude response" (R206): at `0`, `fc / 2`, `fc` and Nyquist, up to the rounding of the coefficients.
The mirror-image structure `(a0, a1, a2) = (b1, b0, 1)` agrees exactly, at every frequency. -/
def keepsMagnitude (fc fs : Word) (k : Coeffs) : Bool :=
  finiteSet k &&
    [⟨1, 1⟩, cosTurn (F32.units fc) (2 * F32.units fs), cosTurn (F32.units fc) (F32.units fs), ⟨-1, 1⟩].all
      (magnitudesAgree (forward k) (feedback k))

/-- "alters phase" (R206): the output settles, and the set is not the identity. -/
def altersPhase (k : Coeffs) : Bool := settles k && forward k != feedback k

/-! ### Where they apply: log entries 23 and 24 -/

/-- `fc` and `fs` are finite and positive, and `fc / fs` is at least `1 / lo` and at most `hi / 100`. -/
def ratioWithin (lo hi : Int) (fc fs : Word) : Bool :=
  F32.isFinite fc && F32.isFinite fs && decide (0 < F32.units fc ∧ 0 < F32.units fs ∧
    F32.units fs ≤ lo * F32.units fc ∧ 100 * F32.units fc ≤ hi * F32.units fs)

/-- `q` is at least 0.5 (R38) and at most `hi`. -/
def qWithin (hi : Int) (q : Word) : Bool :=
  F32.isFinite q && decide (oneUnits ≤ 2 * F32.units q ∧ F32.units q ≤ hi * oneUnits)

/-- "far above Nyquist/2": from 4/5 to 24/25 of Nyquist, clear of Nyquist itself (R188). -/
def farAbove (fc fs : Word) : Bool :=
  ratioWithin 3 48 fc fs && decide (2 * F32.units fs ≤ 5 * F32.units fc)

/-- The arguments at which a notch is tested: `fc` from 1/100 to 6/25 of the rate, so that a sine at `2·fc` lies below
Nyquist, and `q` at most 100. -/
def notchArgs (fc q fs : Word) : Bool := ratioWithin 100 24 fc fs && qWithin 100 q

/-- `fc` is positive and below Nyquist (R188). -/
def belowNyquist (fc fs : Word) : Bool :=
  F32.isFinite fc && F32.isFinite fs && decide (0 < F32.units fc ∧ 2 * F32.units fc < F32.units fs)

/-- The arguments at which an allpass is stable clear of rounding: `fc` from 1/1000 to 12/25 of the rate, and a bandwidth
`fc ⊘ q` (R165) from `fc / 1001` to `fc`, as the clamp of `Q` to `[1, 1000]` leaves it (R162). -/
def allpassArgs (fc bw fs : Word) : Bool :=
  ratioWithin 1000 48 fc fs && F32.isFinite bw &&
    decide (F32.units fc ≤ 1001 * F32.units bw ∧ F32.units bw ≤ F32.units fc)

/-- The arguments of the scenario: `LP2`, `cutoff = 1000`, `Q = 0.707`, `SR = 44100` (words of T3.6). -/
def scenarioArgs (t : BiquadType) (fc q fs : Word) : Bool :=
  t == .lp2 && fc == 0x447A0000 && q == 0x3F34FDF4 && fs == 0x472C4400

/-- The set meets the properties R187 and R206 state for its arguments; of a topology they say nothing of, nothing is
asked. For `AP2`, `q` is the bandwidth (R165). -/
def meetsProperties (t : BiquadType) (fc q fs : Word) (k : Coeffs) : Bool :=
  match t with
  | .lp1 => !farAbove fc fs || passesThrough k
  | .lp2 => (!(farAbove fc fs && qWithin 1000 q) || passesThrough k) && (!scenarioArgs .lp2 fc q fs || meetsScenario k)
  | .notch => !notchArgs fc q fs || notches fc fs k
  | .ap2 => (!belowNyquist fc fs || keepsMagnitude fc fs k) && (!allpassArgs fc q fs || altersPhase k)
  | .hp1 | .hp2 | .bp | .ap1 | .lsh | .hsh | .peak => true

/-! ### Holding a set to them -/

/-- The set `a0, a1, a2` without feedback, with the post-scale of `k`. -/
def feedForward (a0 a1 a2 : Word) (k : Coeffs) : Coeffs := { k with a0, a1, a2, b0 := F32.zero, b1 := F32.zero }

/-- A zero pair at the angle with cosine `w`: `1, a1, 1` with `a1` the binary32 value nearest to `−2·cos`. -/
def zeroPair (w : Cosine) (k : Coeffs) : Coeffs :=
  feedForward F32.one (F32.round (decide (0 < w.n)) (2 * w.n.natAbs * 2 ^ 149) w.d.natAbs) F32.one k

/-- A set that meets R187 and R206: for the scenario the `LP2` row of T3.6; for a lowpass the identity; for a notch a zero
pair at `fc`; for an allpass the delay by two samples, the mirror image of no feedback. -/
def standIn (t : BiquadType) (fc q fs : Word) (k : Coeffs) : Coeffs :=
  if scenarioArgs t fc q fs then
    { k with a0 := 0x3B96DCC0, a1 := 0x3C16DCC0, a2 := 0x3B96DCC0, b0 := 0xBFE647FA, b1 := 0x3F5146DA }
  else if t = .notch then zeroPair (cosTurn (F32.units fc) (F32.units fs)) k
  else if t = .ap2 then feedForward F32.zero F32.zero F32.one k
  else feedForward F32.one F32.zero F32.zero k

/-- Hold a free set to R187 and R206: the set itself if it meets them, else one that does. -/
def holdToProperties (t : BiquadType) (fc q fs : Word) (k : Coeffs) : Coeffs :=
  if meetsProperties t fc q fs k then k else standIn t fc q fs k

end Sys2Proof.Machine
end

