-- ==== Sys2Proof/Machine/Coef.lean ====
section
/-! DEFINITION. The coefficient function `Coef` (spec/43_biquad.md R163 to R180, R187). The reference instantiation is written
over a record of trigonometric functions, so that it can be tested with known values of them; `e` gives the NaN of an
operation site inside `Coef` (log entry 8). -/

namespace Sys2Proof.Machine

/-! ### The numbers of R39 -/

/-- The number of a topology (R39). -/
def typeNumber : BiquadType → Nat
  | .lp1 => 0
  | .lp2 => 1
  | .hp1 => 2
  | .hp2 => 3
  | .bp => 4
  | .notch => 5
  | .ap1 => 6
  | .ap2 => 7
  | .lsh => 8
  | .hsh => 9
  | .peak => 10

/-- The topology with a number; 11 and above are reserved (R39). -/
def typeOfNumber : Nat → Option BiquadType
  | 0 => some .lp1
  | 1 => some .lp2
  | 2 => some .hp1
  | 3 => some .hp2
  | 4 => some .bp
  | 5 => some .notch
  | 6 => some .ap1
  | 7 => some .ap2
  | 8 => some .lsh
  | 9 => some .hsh
  | 10 => some .peak
  | _ => none

/-- Shelves and peak, the topologies that use the gain (R166, R168). -/
def usesGain : BiquadType → Bool
  | .lsh | .hsh | .peak => true
  | .lp1 | .lp2 | .hp1 | .hp2 | .bp | .notch | .ap1 | .ap2 => false

/-- The topologies whose reference formulas use `q` (R170 to R180). -/
def usesQ : BiquadType → Bool
  | .lp2 | .hp2 | .bp | .notch | .ap2 | .peak => true
  | .lp1 | .hp1 | .ap1 | .lsh | .hsh => false

/-! ### Common subexpressions (R169) -/

/-- The trigonometric functions a coefficient formula uses. -/
structure Trig where
  sin : Word → Word
  cos : Word → Word
  tan : Word → Word

/-- The machine's own functions (R13). -/
def trig : Trig := { sin := F32.sin, cos := F32.cos, tan := F32.tan }

/-- `th = (TWO_PI ⊗ fc) ⊘ fs`; sites 0 and 1. -/
def theta (e : Nat → Word) (fc fs : Word) : Word := F32.div (e 1) (F32.mul (e 0) F32.twoPi fc) fs

/-- `tan((PI ⊗ f) ⊘ fs)`; sites 2 and 3. With `f = fc` it is `K` (R169), with `f = bw` it is `tb` (R177, R180). -/
def tanPi (t : Trig) (e : Nat → Word) (f fs : Word) : Word :=
  t.tan (F32.div (e 3) (F32.mul (e 2) F32.pi f) fs)

/-- `K2 = K ⊗ K`; site 4. -/
def sq (e : Nat → Word) (k : Word) : Word := F32.mul (e 4) k k

/-- `bw = fc ⊘ q` (R165, R177, R180); site 5. -/
def bandwidth (e : Nat → Word) (fc q : Word) : Word := F32.div (e 5) fc q

/-- `(a ⊖ b) ⊘ (a ⊕ b)`; sites 6 to 8. -/
def ratio (e : Nat → Word) (a b : Word) : Word :=
  F32.div (e 8) (F32.sub (e 6) a b) (F32.add (e 7) a b)

/-! ### First-order lowpass and highpass (R170, R171) -/

/-- `ga = cos(th) ⊘ (1 ⊕ sin(th))` (R170, R171); sites 10 and 11. -/
def gammaFirst (t : Trig) (e : Nat → Word) (fc fs : Word) : Word :=
  F32.div (e 11) (t.cos (theta e fc fs)) (F32.add (e 10) F32.one (t.sin (theta e fc fs)))

/-- The first-order lowpass shape shared by `LP1` and `LSH`: `a0 = a1 = (1 ⊖ ga) ⊘ 2`, `b0 = neg(ga)`; sites 12, 13. -/
def firstLow (e : Nat → Word) (ga c0 d0 : Word) : Coeffs :=
  let a := F32.div (e 13) (F32.sub (e 12) F32.one ga) F32.two
  { a0 := a, a1 := a, a2 := F32.zero, b0 := F32.neg ga, b1 := F32.zero, c0, d0 }

/-- The first-order highpass shape shared by `HP1` and `HSH`: `a0 = (1 ⊕ ga) ⊘ 2`, `a1 = neg(a0)`, `b0 = neg(ga)`;
sites 12, 13. -/
def firstHigh (e : Nat → Word) (ga c0 d0 : Word) : Coeffs :=
  let a := F32.div (e 13) (F32.add (e 12) F32.one ga) F32.two
  { a0 := a, a1 := F32.neg a, a2 := F32.zero, b0 := F32.neg ga, b1 := F32.zero, c0, d0 }

/-- `LP1` (R170). -/
def coefLp1 (t : Trig) (e : Nat → Word) (fc fs : Word) : Coeffs :=
  firstLow e (gammaFirst t e fc fs) F32.one F32.zero

/-- `HP1` (R171). -/
def coefHp1 (t : Trig) (e : Nat → Word) (fc fs : Word) : Coeffs :=
  firstHigh e (gammaFirst t e fc fs) F32.one F32.zero

/-! ### Second-order lowpass and highpass (R172, R173) -/

/-- `s = (dd ⊘ 2) ⊗ sin(th)` with `dd = 1 ⊘ q` (R172); sites 14 to 16. -/
def secondS (t : Trig) (e : Nat → Word) (fc q fs : Word) : Word :=
  F32.mul (e 16) (F32.div (e 15) (F32.div (e 14) F32.one q) F32.two) (t.sin (theta e fc fs))

/-- `be = 0.5 ⊗ ((1 ⊖ s) ⊘ (1 ⊕ s))` (R172); site 17. -/
def secondBe (t : Trig) (e : Nat → Word) (fc q fs : Word) : Word :=
  F32.mul (e 17) F32.half (ratio e F32.one (secondS t e fc q fs))

/-- `ga = (0.5 ⊕ be) ⊗ cos(th)` (R172); sites 18 and 19. -/
def secondGa (t : Trig) (e : Nat → Word) (fc q fs : Word) : Word :=
  F32.mul (e 19) (F32.add (e 18) F32.half (secondBe t e fc q fs)) (t.cos (theta e fc fs))

/-- `b0 = neg(2 ⊗ ga)` (R172, R173); site 20. -/
def secondB0 (t : Trig) (e : Nat → Word) (fc q fs : Word) : Word :=
  F32.neg (F32.mul (e 20) F32.two (secondGa t e fc q fs))

/-- `b1 = 2 ⊗ be` (R172, R173); site 21. -/
def secondB1 (t : Trig) (e : Nat → Word) (fc q fs : Word) : Word :=
  F32.mul (e 21) F32.two (secondBe t e fc q fs)

/-- `LP2` (R172); sites 22 and 23 are `a1` and `a0`. -/
def coefLp2 (t : Trig) (e : Nat → Word) (fc q fs : Word) : Coeffs :=
  let a1 := F32.sub (e 22) (F32.add (e 18) F32.half (secondBe t e fc q fs)) (secondGa t e fc q fs)
  let a0 := F32.div (e 23) a1 F32.two
  { a0, a1, a2 := a0, b0 := secondB0 t e fc q fs, b1 := secondB1 t e fc q fs, c0 := F32.one, d0 := F32.zero }

/-- `HP2` (R173); sites 22 and 23 are `tt` and `a0`. -/
def coefHp2 (t : Trig) (e : Nat → Word) (fc q fs : Word) : Coeffs :=
  let tt := F32.add (e 22) (F32.add (e 18) F32.half (secondBe t e fc q fs)) (secondGa t e fc q fs)
  let a0 := F32.div (e 23) tt F32.two
  { a0, a1 := F32.neg tt, a2 := a0, b0 := secondB0 t e fc q fs, b1 := secondB1 t e fc q fs
    c0 := F32.one, d0 := F32.zero }

/-! ### Bandpass and notch (R174, R175), from `K` -/

/-- `de = ((K2 ⊗ q) ⊕ K) ⊕ q` (R174); sites 24 to 26. -/
def bandDe (e : Nat → Word) (k q : Word) : Word :=
  F32.add (e 26) (F32.add (e 25) (F32.mul (e 24) (sq e k) q) k) q

/-- `((2 ⊗ q) ⊗ (K2 ⊖ 1)) ⊘ de` (R174, R175); sites 27 to 30. -/
def bandMid (e : Nat → Word) (k q : Word) : Word :=
  F32.div (e 30) (F32.mul (e 29) (F32.mul (e 27) F32.two q) (F32.sub (e 28) (sq e k) F32.one)) (bandDe e k q)

/-- `b1 = (((K2 ⊗ q) ⊖ K) ⊕ q) ⊘ de` (R174, R175); sites 31 to 33. -/
def bandB1 (e : Nat → Word) (k q : Word) : Word :=
  F32.div (e 33) (F32.add (e 32) (F32.sub (e 31) (F32.mul (e 24) (sq e k) q) k) q) (bandDe e k q)

/-- `BP` (R174); site 34 is `a0`. -/
def coefBp (t : Trig) (e : Nat → Word) (fc q fs : Word) : Coeffs :=
  let k := tanPi t e fc fs
  let a0 := F32.div (e 34) k (bandDe e k q)
  { a0, a1 := F32.zero, a2 := F32.neg a0, b0 := bandMid e k q, b1 := bandB1 e k q, c0 := F32.one, d0 := F32.zero }

/-- `NOTCH` (R175); sites 34 to 36 are `a0`. -/
def coefNotch (t : Trig) (e : Nat → Word) (fc q fs : Word) : Coeffs :=
  let k := tanPi t e fc fs
  let a0 := F32.div (e 36) (F32.mul (e 35) q (F32.add (e 34) (sq e k) F32.one)) (bandDe e k q)
  let a1 := bandMid e k q
  { a0, a1, a2 := a0, b0 := a1, b1 := bandB1 e k q, c0 := F32.one, d0 := F32.zero }

/-! ### Allpasses (R176, R177) -/

/-- `AP1` (R176): `al = (K ⊖ 1) ⊘ (K ⊕ 1)`. -/
def coefAp1 (t : Trig) (e : Nat → Word) (fc fs : Word) : Coeffs :=
  let al := ratio e (tanPi t e fc fs) F32.one
  { a0 := al, a1 := F32.one, a2 := F32.zero, b0 := al, b1 := F32.zero, c0 := F32.one, d0 := F32.zero }

/-- `AP2` (R177), `q` already clamped (R162); sites 37 and 38 are `a1`. -/
def coefAp2 (t : Trig) (e : Nat → Word) (fc q fs : Word) : Coeffs :=
  let al := ratio e (tanPi t e (bandwidth e fc q) fs) F32.one
  let be := F32.neg (t.cos (theta e fc fs))
  let a1 := F32.mul (e 38) be (F32.sub (e 37) F32.one al)
  { a0 := F32.neg al, a1, a2 := F32.one, b0 := a1, b1 := F32.neg al, c0 := F32.one, d0 := F32.zero }

/-! ### Shelves and peak (R166, R178 to R180) -/

/-- `c0 = g ⊖ 1` (R166); site 39. -/
def gainC0 (e : Nat → Word) (g : Word) : Word := F32.sub (e 39) g F32.one

/-- `ga = (1 ⊖ de) ⊘ (1 ⊕ de)` with `de = be ⊗ tan(th ⊘ 2)` (R178, R179); sites 40 and 41. -/
def shelfGa (t : Trig) (e : Nat → Word) (be fc fs : Word) : Word :=
  ratio e F32.one (F32.mul (e 41) be (t.tan (F32.div (e 40) (theta e fc fs) F32.two)))

/-- `LSH` (R178): `be = 4 ⊘ (1 ⊕ g)`; sites 42 and 43. -/
def coefLsh (t : Trig) (e : Nat → Word) (fc g fs : Word) : Coeffs :=
  firstLow e (shelfGa t e (F32.div (e 43) F32.four (F32.add (e 42) F32.one g)) fc fs) (gainC0 e g) F32.one

/-- `HSH` (R179): `be = (1 ⊕ g) ⊘ 4`; sites 42 and 43. -/
def coefHsh (t : Trig) (e : Nat → Word) (fc g fs : Word) : Coeffs :=
  firstHigh e (shelfGa t e (F32.div (e 43) (F32.add (e 42) F32.one g) F32.four) fc fs) (gainC0 e g) F32.one

/-- `PEAK` (R167, R180): boost when `g ≥ 1`, otherwise cut, also for a NaN gain; sites 44 to 47. -/
def coefPeak (t : Trig) (e : Nat → Word) (fc q g fs : Word) : Coeffs :=
  let tb := tanPi t e (bandwidth e fc q) fs
  let cc := if F32.ge g F32.one then ratio e tb F32.one else ratio e tb g
  let dn := F32.neg (t.cos (theta e fc fs))
  let a0 := F32.div (e 45) (F32.add (e 44) F32.one cc) F32.two
  { a0, a1 := F32.zero, a2 := F32.neg a0, b0 := F32.mul (e 47) dn (F32.sub (e 46) F32.one cc), b1 := F32.neg cc
    c0 := gainC0 e g, d0 := F32.one }

/-- The reference instantiation of `Coef` (R169 to R180). -/
def coefRef (t : Trig) (e : Nat → Word) : BiquadType → Word → Word → Word → Word → Coeffs
  | .lp1, fc, _, _, fs => coefLp1 t e fc fs
  | .lp2, fc, q, _, fs => coefLp2 t e fc q fs
  | .hp1, fc, _, _, fs => coefHp1 t e fc fs
  | .hp2, fc, q, _, fs => coefHp2 t e fc q fs
  | .bp, fc, q, _, fs => coefBp t e fc q fs
  | .notch, fc, q, _, fs => coefNotch t e fc q fs
  | .ap1, fc, _, _, fs => coefAp1 t e fc fs
  | .ap2, fc, q, _, fs => coefAp2 t e fc q fs
  | .lsh, fc, _, g, fs => coefLsh t e fc g fs
  | .hsh, fc, _, g, fs => coefHsh t e fc g fs
  | .peak, fc, q, g, fs => coefPeak t e fc q g fs

/-! ### Any `Coef` (R163 to R168, R187, R206) -/

/-- The third argument as a topology's formulas take it: for `AP2` the bandwidth `fc ⊘ q` (R165). -/
def qOrBandwidth (e : Nat → Word) (t : BiquadType) (fc q : Word) : Word := if t = .ap2 then bandwidth e fc q else q

/-- Five free coefficients that depend on the arguments alone (R163), for `AP2` through the bandwidth (R165), without the gain
for the eight topologies that ignore it, and the post-scale of R166 and R168. Log entry 7. -/
def coefFree (e : Nat → Word) (n : Nat) (t : BiquadType) (fc q g fs : Word) : Coeffs :=
  let q' := qOrBandwidth e t fc q
  let g' := if usesGain t then g else F32.zero
  { a0 := Config.coefBits n t fc q' g' fs 0, a1 := Config.coefBits n t fc q' g' fs 1
    a2 := Config.coefBits n t fc q' g' fs 2, b0 := Config.coefBits n t fc q' g' fs 3
    b1 := Config.coefBits n t fc q' g' fs 4
    c0 := if usesGain t then gainC0 e g else F32.one
    d0 := if usesGain t then F32.one else F32.zero }

/-- Another admissible `Coef`: free coefficients (R163 to R168) held to the testable properties any admissible `Coef` must
meet (R187, R206). Log entries 7, 23 and 24. -/
def coefOther (e : Nat → Word) (n : Nat) (t : BiquadType) (fc q g fs : Word) : Coeffs :=
  holdToProperties t fc (qOrBandwidth e t fc q) fs (coefFree e n t fc q g fs)

/-- The NaN of an operation site inside `Coef(t, fc, q, g, fs)`: a function of the arguments (R163) that ignores those the
topology ignores (R168, R170 to R180). Log entry 8. -/
def coefNan (t : BiquadType) (fc q g fs : Word) (site : Nat) : Word :=
  F32.nanOf (Config.coefNanBits t fc (if usesQ t then q else F32.zero) (if usesGain t then g else F32.zero) fs site)

/-- `Coef(t, fc, q, g, fs)` of the instance (R163). -/
def coef (sel : CoefSel) (t : BiquadType) (fc q g fs : Word) : Coeffs :=
  match sel with
  | .reference => coefRef trig (coefNan t fc q g fs) t fc q g fs
  | .other n => coefOther (coefNan t fc q g fs) n t fc q g fs

end Sys2Proof.Machine
end

