-- ==== Sys2Proof/Machine/Biquad.lean ====
section
/-! DEFINITION. The biquad section step and the biquad commands (spec/43_biquad.md R160 to R189). -/

namespace Sys2Proof.Machine

/-- The recurrence of R182, left to right: `((((a0 ⊗ x) ⊕ (a1 ⊗ x1)) ⊕ (a2 ⊗ x2)) ⊖ (b0 ⊗ y1)) ⊖ (b1 ⊗ y2)`;
sites 0 to 8. -/
def recurrence (d : Nat → Word) (k : Coeffs) (h : Cells) (x : Word) : Word :=
  F32.sub (d 8)
    (F32.sub (d 6)
      (F32.add (d 4) (F32.add (d 2) (F32.mul (d 0) k.a0 x) (F32.mul (d 1) k.a1 h.x1)) (F32.mul (d 3) k.a2 h.x2))
      (F32.mul (d 5) k.b0 h.y1))
    (F32.mul (d 7) k.b1 h.y2)

/-- The post-scale of R182: `(c0 ⊗ y) ⊕ (d0 ⊗ x)`; sites 9 to 11. -/
def postScale (d : Nat → Word) (k : Coeffs) (y x : Word) : Word :=
  F32.add (d 11) (F32.mul (d 9) k.c0 y) (F32.mul (d 10) k.d0 x)

/-- The shifted history of R182; it keeps the un-scaled `y`. -/
def Cells.shift (h : Cells) (x y : Word) : Cells := { x1 := x, x2 := h.x1, y1 := y, y2 := h.y1 }

/-- `BiquadStep` (R182): the output and the new cells. -/
def biquadStep (d : Nat → Word) (k : Coeffs) (h : Cells) (x : Word) : Word × Cells :=
  let y := recurrence d k h x
  (postScale d k y x, h.shift x y)

/-- `BiquadStep` on one channel of a section (R181, R203): the output and the section with that channel's new cells. -/
def Section.step (d : Nat → Word) (b : Section) (ch : Channel) (x : Word) : Word × Section :=
  let r := biquadStep d b.coeffs (b.cells ch) x
  (r.1, b.setCells ch r.2)

/-- Whether `BIQ.SET` clamps `Q`: only for `AP2` (R161, R162). -/
def BiqUnit.clampsQ (b : BiqUnit) : Bool := b.type == .ap2 && F32.clamped b.q F32.one 0x447A0000

/-- The quality factor `BIQ.SET` uses: clamped to `[1, 1000]` for `AP2` (R162). -/
def BiqUnit.usedQ (b : BiqUnit) : Word := if b.type = .ap2 then F32.clamp b.q F32.one 0x447A0000 else b.q

/-- The unit with its coefficients recomputed (R161). -/
def BiqUnit.recompute (sel : CoefSel) (sr : Word) (b : BiqUnit) : BiqUnit :=
  { b with sec := { b.sec with coeffs := coef sel b.type b.cutoff b.usedQ b.gain sr } }

/-- `BIQ.SET u` (R161). -/
def execBiqSet (u : UnitIdx) (s : State) : Result :=
  match s.biq[u.toNat]? with
  | none => illegalCommand s
  | some b => .next ((s.setBiq u.toNat (b.recompute s.params.coef s.sr)).raiseIf b.clampsQ .clamp)

/-- `BIQ.PROC vd, va, L|R, u` (R181). -/
def execBiqProc (rd ra : Reg) (ch : Channel) (u : UnitIdx) (s : State) : Result :=
  match s.biq[u.toNat]? with
  | none => illegalCommand s
  | some b =>
    let r := b.sec.step s.nan ch (s.readV ra)
    .next ((s.setBiq u.toNat { b with sec := r.2 }).writeV rd r.1)

/-- `BIQ.RST u` (R183). -/
def execBiqRst (u : UnitIdx) (s : State) : Result :=
  match s.biq[u.toNat]? with
  | none => illegalCommand s
  | some b => .next (s.setBiq u.toNat { b with sec := b.sec.clearCells })

end Sys2Proof.Machine
end

