-- ==== Sys2Proof/Machine/Cascade.lean ====
section
/-! DEFINITION. The allpass cascade commands (spec/44_allpass_cascade.md R200 to R208). -/

namespace Sys2Proof.Machine

/-- `AP2` coefficients for one stage: `Coef(AP2, F[k], q, +0, SR)` (R201). -/
def Stage.recompute (sel : CoefSel) (q sr : Word) (st : Stage) : Stage :=
  { st with sec := { st.sec with coeffs := coef sel .ap2 st.freq q F32.zero sr } }

/-- `APC.SET`: recompute stages `0 .. ACTIVE − 1`; the others keep the coefficients they had (R201). -/
def ApcUnit.recompute (sel : CoefSel) (sr : Word) (c : ApcUnit) : ApcUnit :=
  { c with stages := (c.stages.take c.active).map (Stage.recompute sel c.q sr) ++ c.stages.drop c.active }

/-- The chain of R203 over the first `n` stages of a list, in order: the output of stage `k` is the input of stage
`k + 1`; stages beyond are not invoked (R204). Each stage has the twelve operation sites of R182. -/
def cascade (d : Nat → Word) (ch : Channel) : Nat → List Stage → Word → Word × List Stage
  | 0, stages, x => (x, stages)
  | _ + 1, [], x => (x, [])
  | n + 1, st :: rest, x =>
    let r := st.sec.step d ch x
    let t := cascade (fun j => d (j + 12)) ch n rest r.1
    (t.1, { st with sec := r.2 } :: t.2)

/-- `APC.RST`: every stage's eight cells `+0` (R205). -/
def ApcUnit.clear (c : ApcUnit) : ApcUnit :=
  { c with stages := c.stages.map (fun st => { st with sec := st.sec.clearCells }) }

/-- `APC.SET a` (R201). -/
def execApcSet (a : UnitIdx) (s : State) : Result :=
  match s.apc[a.toNat]? with
  | none => illegalCommand s
  | some c => .next (s.setApc a.toNat (c.recompute s.params.coef s.sr))

/-- `APC.PROC vd, va, L|R, a` (R203). -/
def execApcProc (rd ra : Reg) (ch : Channel) (a : UnitIdx) (s : State) : Result :=
  match s.apc[a.toNat]? with
  | none => illegalCommand s
  | some c =>
    let r := cascade s.nan ch c.active c.stages (s.readV ra)
    .next ((s.setApc a.toNat { c with stages := r.2 }).writeV rd r.1)

/-- `APC.RST a` (R205). -/
def execApcRst (a : UnitIdx) (s : State) : Result :=
  match s.apc[a.toNat]? with
  | none => illegalCommand s
  | some c => .next (s.setApc a.toNat c.clear)

end Sys2Proof.Machine
end

