-- ==== Sys2Proof/Machine/Delay.lean ====
section
/-! DEFINITION. The delay line commands (spec/42_delay.md R140 to R155). -/

namespace Sys2Proof.Machine

/-- `DLY.INIT` on a line: take `SIZE` as `N`, clear both histories below `N`, `w <- 0`, sized (R142). -/
def DlyUnit.init (l : DlyUnit) : DlyUnit :=
  { l with n := l.size, w := 0, sized := true, x := l.x.clearBelow l.size, y := l.y.clearBelow l.size }

/-- The next cursor, `(w + 1) mod N` (R141). -/
def DlyUnit.next (l : DlyUnit) : Nat := slot l.n ((l.w : Int) + 1)

/-- Advance the cursor and store a sample and an output in the slot it then names (R145, R147, R148). -/
def DlyUnit.push (l : DlyUnit) (x y : Word) : DlyUnit :=
  { l with w := l.next, x := l.x.write l.next x, y := l.y.write l.next y }

/-- The slot the integer mode reads, `(w − di) mod N`, before the advance (R145). -/
def DlyUnit.tapInt (l : DlyUnit) (di : Int) : Nat := slot l.n ((l.w : Int) - di)

/-- The output of the integer mode, `X[idx] ⊕ (FB ⊗ Y[idx])` (R145); sites 0 and 1. -/
def DlyUnit.outInt (d : Nat → Word) (l : DlyUnit) (di : Int) : Word :=
  F32.add (d 1) (l.x.read (l.tapInt di)) (F32.mul (d 0) l.fb (l.y.read (l.tapInt di)))

/-- The floor tap `i0` of the fractional mode, from the advanced cursor (R147). -/
def DlyUnit.tapFrac (l : DlyUnit) (di : Int) (fd : Word) : Nat :=
  if F32.eq fd F32.zero then slot l.n ((l.next : Int) - di) else slot l.n ((l.next : Int) - di - 1)

/-- The weight of the upper tap, `+0` or `1 ⊖ fd` (R147); site 1. -/
def fracWeight (d : Nat → Word) (fd : Word) : Word :=
  if F32.eq fd F32.zero then F32.zero else F32.sub (d 1) F32.one fd

/-- The blend `((1 ⊖ frac) ⊗ X[i0]) ⊕ (frac ⊗ X[i1])` (R147); sites 2 to 5. -/
def blend (d : Nat → Word) (frac x0 x1 : Word) : Word :=
  F32.add (d 5) (F32.mul (d 3) (F32.sub (d 2) F32.one frac) x0) (F32.mul (d 4) frac x1)

/-- The output of the fractional mode (R147): the taps are read from the input history after `x` has been written to the
advanced slot. -/
def DlyUnit.outFrac (d : Nat → Word) (l : DlyUnit) (x : Word) (di : Int) (fd : Word) : Word :=
  blend d (fracWeight d fd)
    ((l.x.write l.next x).read (l.tapFrac di fd))
    ((l.x.write l.next x).read (slot l.n ((l.tapFrac di fd : Int) + 1)))

/-- `DLY.PROCI`'s output for the request `req` (R143, R145). -/
def DlyUnit.proci (d : Nat → Word) (l : DlyUnit) (req : Word) : Word := l.outInt d (delayWhole l.n req)

/-- `DLY.PROCF`'s output for the sample `x` and the request `req` (R143, R147); site 0 is `fd`'s subtraction. -/
def DlyUnit.procf (d : Nat → Word) (l : DlyUnit) (x req : Word) : Word :=
  l.outFrac d x (delayWhole l.n req) (delayFrac (d 0) l.n req)

/-- A process command on a line that is not sized: `v[rd] <- +0`, raise `UNINIT`, nothing else (R144, R265). -/
def unsizedLine (rd : Reg) (s : State) : State := (s.writeV rd F32.zero).raise .uninit

/-- A process command on a sized line: push the sample and the output, write the output to `v[rd]`, and flag a clamped
delay operand (R143, R145, R147). -/
def sizedLine (rd : Reg) (u : Nat) (l : DlyUnit) (x req y : Word) (s : State) : State :=
  ((s.setDly u (l.push x y)).writeV rd y).raiseIf (delayClamped l.n req) .clamp

/-- `DLY.INIT u` (R142). -/
def execDlyInit (u : UnitIdx) (s : State) : Result :=
  match s.dly[u.toNat]? with
  | none => illegalCommand s
  | some l => .next (s.setDly u.toNat l.init)

/-- `DLY.PROCI vd, va, vb, u` (R145). -/
def execDlyProci (rd ra rb : Reg) (u : UnitIdx) (s : State) : Result :=
  match s.dly[u.toNat]? with
  | none => illegalCommand s
  | some l =>
    if l.sized then
      .next (sizedLine rd u.toNat l (s.readV ra) (s.readV rb) (l.proci s.nan (s.readV rb)) s)
    else .next (unsizedLine rd s)

/-- `DLY.PROCF vd, va, vb, u` (R147). -/
def execDlyProcf (rd ra rb : Reg) (u : UnitIdx) (s : State) : Result :=
  match s.dly[u.toNat]? with
  | none => illegalCommand s
  | some l =>
    if l.sized then
      .next (sizedLine rd u.toNat l (s.readV ra) (s.readV rb) (l.procf s.nan (s.readV ra) (s.readV rb)) s)
    else .next (unsizedLine rd s)

end Sys2Proof.Machine
end

