-- ==== Sys2Proof/Machine/Lfo.lean ====
section
/-! DEFINITION. The LFO commands (spec/41_lfo.md R120 to R132). -/

namespace Sys2Proof.Machine

/-- The clamped rate of R126: `r = clamp(rate, 0, SR ⊗ 0.5)`; site 0. -/
def lfoRate (d : Nat → Word) (sr rate : Word) : Word := F32.clamp rate F32.zero (F32.mul (d 0) sr F32.half)

/-- Whether `LFO.ADV` clamps the rate (R127). -/
def lfoRateClamped (d : Nat → Word) (sr rate : Word) : Bool :=
  F32.clamped rate F32.zero (F32.mul (d 0) sr F32.half)

/-- The phase increment of R126: `inc = (TWO_PI ⊗ r) ⊘ SR`; sites 1 and 2. -/
def lfoInc (d : Nat → Word) (sr rate : Word) : Word :=
  F32.div (d 2) (F32.mul (d 1) F32.twoPi (lfoRate d sr rate)) sr

/-- The conditional subtraction of R127: `if p ≥ TWO_PI then p ⊖ TWO_PI`; site 4. -/
def lfoWrap (d : Nat → Word) (p : Word) : Word := if F32.ge p F32.twoPi then F32.sub (d 4) p F32.twoPi else p

/-- The safety net of R127: anything outside `[0, PHASE_MAX]` becomes `+0`. -/
def lfoNet (p : Word) : Word :=
  if F32.gt p F32.phaseMax || F32.isNaN p || F32.lt p F32.zero then F32.zero else p

/-- The new phase of R127; site 3 is `phase ⊕ inc`. -/
def lfoAdvance (d : Nat → Word) (sr : Word) (l : LfoUnit) : Word :=
  lfoNet (lfoWrap d (F32.add (d 3) l.phase (lfoInc d sr l.rate)))

/-- The remapped output of R125: `lo ⊕ (((s ⊕ 1) ⊗ 0.5) ⊗ (hi ⊖ lo))`; sites 0 to 4. -/
def lfoRemap (d : Nat → Word) (phase lo hi : Word) : Word :=
  F32.add (d 4) lo
    (F32.mul (d 3) (F32.mul (d 1) (F32.add (d 0) (F32.sin phase) F32.one) F32.half) (F32.sub (d 2) hi lo))

/-- `LFO.INIT u` (R121). -/
def execLfoInit (u : UnitIdx) (s : State) : Result :=
  match s.lfo[u.toNat]? with
  | none => illegalCommand s
  | some l => .next (s.setLfo u.toNat { l with phase := F32.zero })

/-- `LFO.INITP va, u` (R122). -/
def execLfoInitp (ra : Reg) (u : UnitIdx) (s : State) : Result :=
  match s.lfo[u.toNat]? with
  | none => illegalCommand s
  | some l =>
    .next ((s.setLfo u.toNat { l with phase := F32.clamp (s.readV ra) F32.zero F32.phaseMax }).raiseIf
      (F32.clamped (s.readV ra) F32.zero F32.phaseMax) .clamp)

/-- `LFO.INITR u` (R123, R45). -/
def execLfoInitr (u : UnitIdx) (s : State) : Result :=
  match s.lfo[u.toNat]? with
  | none => illegalCommand s
  | some l => .next ((s.setLfo u.toNat { l with phase := F32.rng s.seed s.rngN }).setRngN (s.rngN + 1))

/-- `LFO.NEXT vd, u` (R124). -/
def execLfoNext (rd : Reg) (u : UnitIdx) (s : State) : Result :=
  match s.lfo[u.toNat]? with
  | none => illegalCommand s
  | some l => .next (s.writeV rd (F32.sin l.phase))

/-- `LFO.RANGE vd, va, vb, u` (R125). -/
def execLfoRange (rd ra rb : Reg) (u : UnitIdx) (s : State) : Result :=
  match s.lfo[u.toNat]? with
  | none => illegalCommand s
  | some l => .next (s.writeV rd (lfoRemap s.nan l.phase (s.readV ra) (s.readV rb)))

/-- `LFO.ADV u` (R127). -/
def execLfoAdv (u : UnitIdx) (s : State) : Result :=
  match s.lfo[u.toNat]? with
  | none => illegalCommand s
  | some l =>
    .next ((s.setLfo u.toNat { l with phase := lfoAdvance s.nan s.sr l }).raiseIf
      (lfoRateClamped s.nan s.sr l.rate) .clamp)

end Sys2Proof.Machine
end

