-- ==== Sys2Proof/Machine/Mixer.lean ====
section
/-! DEFINITION. The mixer commands (spec/45_mixer.md R220 to R233). -/

namespace Sys2Proof.Machine

/-- `o = (MIX_DRY ⊗ x) ⊕ (MIX_WET ⊗ p)`, times `1 ⊘ s` when `s = MIX_WET ⊕ MIX_DRY > 1` (R221, R222); sites 0 to 5. -/
def wetDry (d : Nat → Word) (wet dry x p : Word) : Word :=
  let o := F32.add (d 2) (F32.mul (d 0) dry x) (F32.mul (d 1) wet p)
  let s := F32.add (d 3) wet dry
  if F32.gt s F32.one then F32.mul (d 5) o (F32.div (d 4) F32.one s) else o

/-- `((1 ⊖ h) ⊗ x) ⊕ (h ⊗ p)` with `h = MIX_INT ⊘ 2` (R223); sites 0 to 4. -/
def intensityMix (d : Nat → Word) (intensity x p : Word) : Word :=
  let h := F32.div (d 0) intensity F32.two
  F32.add (d 4) (F32.mul (d 2) (F32.sub (d 1) F32.one h) x) (F32.mul (d 3) h p)

/-- `v[ra] ⊕ (MIX_FB ⊗ v[rb])` (R225); sites 0 and 1. -/
def feedbackSum (d : Nat → Word) (fb x last : Word) : Word := F32.add (d 1) x (F32.mul (d 0) fb last)

/-- `mid = (L ⊕ R) ⊘ 2` (R229); sites 0 and 1. -/
def midOf (d : Nat → Word) (l r : Word) : Word := F32.div (d 1) (F32.add (d 0) l r) F32.two

/-- `side = (L ⊖ R) ⊘ 2` (R229); sites 2 and 3. -/
def sideOf (d : Nat → Word) (l r : Word) : Word := F32.div (d 3) (F32.sub (d 2) l r) F32.two

/-- `MIX.WD vd, va, vb` (R221). -/
def execMixWd (rd ra rb : Reg) (s : State) : Result :=
  .next (s.writeV rd (wetDry s.nan s.mixWet s.mixDry (s.readV ra) (s.readV rb)))

/-- `MIX.INT vd, va, vb` (R223). -/
def execMixInt (rd ra rb : Reg) (s : State) : Result :=
  .next (s.writeV rd (intensityMix s.nan s.mixInt (s.readV ra) (s.readV rb)))

/-- `MIX.FB vd, va, vb` (R225). -/
def execMixFb (rd ra rb : Reg) (s : State) : Result :=
  .next (s.writeV rd (feedbackSum s.nan s.mixFb (s.readV ra) (s.readV rb)))

/-- `MS.L vd, va, vb`: `(mid ⊗ MS_MID) ⊕ (side ⊗ MS_SIDE)` (R227); sites 4 to 6. -/
def execMsL (rd ra rb : Reg) (s : State) : Result :=
  .next (s.writeV rd
    (F32.add (s.nan 6)
      (F32.mul (s.nan 4) (midOf s.nan (s.readV ra) (s.readV rb)) s.msMid)
      (F32.mul (s.nan 5) (sideOf s.nan (s.readV ra) (s.readV rb)) s.msSide)))

/-- `MS.R vd, va, vb`: `(mid ⊗ MS_MID) ⊖ (side ⊗ MS_SIDE)` (R228); sites 4 to 6. -/
def execMsR (rd ra rb : Reg) (s : State) : Result :=
  .next (s.writeV rd
    (F32.sub (s.nan 6)
      (F32.mul (s.nan 4) (midOf s.nan (s.readV ra) (s.readV rb)) s.msMid)
      (F32.mul (s.nan 5) (sideOf s.nan (s.readV ra) (s.readV rb)) s.msSide)))

end Sys2Proof.Machine
end

