-- ==== Sys2Proof/Machine/System.lean ====
section
/-! DEFINITION. The system command `NOP` (spec/40_system.md R105). -/

namespace Sys2Proof.Machine

/-- `NOP`: nothing (R105). -/
def execNop (s : State) : Result := .next s

end Sys2Proof.Machine
end

