-- ==== Sys2Proof/Machine/Dispatch.lean ====
section
/-! DEFINITION. The meaning of each command (spec/30_encoding.md R86), one arm per constructor. -/

namespace Sys2Proof.Machine

/-- The meaning of a command. -/
def exec (i : Instr) (s : State) : Host.Outcome State Fault Refusal :=
  match i with
  | .nop => Sys2Proof.Machine.execNop s
  | .lfoInit u => Sys2Proof.Machine.execLfoInit u s
  | .lfoInitp ra u => Sys2Proof.Machine.execLfoInitp ra u s
  | .lfoInitr u => Sys2Proof.Machine.execLfoInitr u s
  | .lfoNext rd u => Sys2Proof.Machine.execLfoNext rd u s
  | .lfoRange rd ra rb u => Sys2Proof.Machine.execLfoRange rd ra rb u s
  | .lfoAdv u => Sys2Proof.Machine.execLfoAdv u s
  | .dlyInit u => Sys2Proof.Machine.execDlyInit u s
  | .dlyProci rd ra rb u => Sys2Proof.Machine.execDlyProci rd ra rb u s
  | .dlyProcf rd ra rb u => Sys2Proof.Machine.execDlyProcf rd ra rb u s
  | .biqSet u => Sys2Proof.Machine.execBiqSet u s
  | .biqProc rd ra ch u => Sys2Proof.Machine.execBiqProc rd ra ch u s
  | .biqRst u => Sys2Proof.Machine.execBiqRst u s
  | .apcSet a => Sys2Proof.Machine.execApcSet a s
  | .apcProc rd ra ch a => Sys2Proof.Machine.execApcProc rd ra ch a s
  | .apcRst a => Sys2Proof.Machine.execApcRst a s
  | .mixWd rd ra rb => Sys2Proof.Machine.execMixWd rd ra rb s
  | .mixInt rd ra rb => Sys2Proof.Machine.execMixInt rd ra rb s
  | .mixFb rd ra rb => Sys2Proof.Machine.execMixFb rd ra rb s
  | .msL rd ra rb => Sys2Proof.Machine.execMsL rd ra rb s
  | .msR rd ra rb => Sys2Proof.Machine.execMsR rd ra rb s

end Sys2Proof.Machine
end

