-- ==== Sys2Proof/Machine/Registers.lean ====
section
/-! DEFINITION. The register space: the address map (spec/20_memory.md R61, spec/10_state.md R20 to R42), what a read of
each register returns (spec/40_system.md R102) and what a write stores (R101, R103, R104). -/

namespace Sys2Proof.Machine

/-! ### Names of the registers -/

/-- The mixer registers (R29). -/
inductive MixReg where
  | wet | dry | int | fb | mid | side
deriving DecidableEq, Repr

/-- The registers of an LFO (R30). -/
inductive LfoReg where
  | phase | rate
deriving DecidableEq, Repr

/-- The registers of a delay line (R32). -/
inductive DlyReg where
  | size | n | w | fb | sized
deriving DecidableEq, Repr

/-- The seven coefficients (R38). -/
inductive CoefReg where
  | a0 | a1 | a2 | b0 | b1 | c0 | d0
deriving DecidableEq, Repr

/-- The four cells of a channel (R38). -/
inductive CellReg where
  | x1 | x2 | y1 | y2
deriving DecidableEq, Repr

/-- The registers of a biquad (R38). -/
inductive BiqReg where
  | type | cutoff | q | gain
  | coef (c : CoefReg)
  | cell (ch : Channel) (c : CellReg)
deriving DecidableEq, Repr

/-- The registers of a cascade (R42). -/
inductive ApcReg where
  | active | q
  | freq (k : Nat)
  | coef (k : Nat) (c : CoefReg)
  | cell (k : Nat) (ch : Channel) (c : CellReg)
deriving DecidableEq, Repr

/-- What an address names (R61). A unit register is named whether or not the unit exists; an access to a unit or a
stage that does not exist is bad like one to a reserved address (R103). -/
inductive Region where
  | cmd
  | status
  | sr
  | seed
  | mixer (r : MixReg)
  | sample (i : Reg)
  | lfo (u : Nat) (r : LfoReg)
  | dly (u : Nat) (r : DlyReg)
  | biq (u : Nat) (r : BiqReg)
  | apc (a : Nat) (r : ApcReg)
  | reserved
deriving DecidableEq, Repr

/-! ### The address map -/

/-- The coefficient at offset 0..6 of a coefficient block (R38, R42). -/
def coefRegOf : Nat → Option CoefReg
  | 0 => some .a0
  | 1 => some .a1
  | 2 => some .a2
  | 3 => some .b0
  | 4 => some .b1
  | 5 => some .c0
  | 6 => some .d0
  | _ => none

/-- The cell at offset 0..7 of a history block: left first (R38, R42). -/
def cellRegOf : Nat → Option (Channel × CellReg)
  | 0 => some (.left, .x1)
  | 1 => some (.left, .x2)
  | 2 => some (.left, .y1)
  | 3 => some (.left, .y2)
  | 4 => some (.right, .x1)
  | 5 => some (.right, .x2)
  | 6 => some (.right, .y1)
  | 7 => some (.right, .y2)
  | _ => none

/-- The registers `0x0008 .. 0x000D` by their offset from `0x0008` (R29). -/
def mixRegOf : Nat → Option MixReg
  | 0 => some .wet
  | 1 => some .dry
  | 2 => some .int
  | 3 => some .fb
  | 4 => some .mid
  | 5 => some .side
  | _ => none

/-- The register at offset `j` of an LFO (R30). -/
def lfoRegOf : Nat → Option LfoReg
  | 0 => some .phase
  | 1 => some .rate
  | _ => none

/-- The register at offset `j` of a delay line (R32). -/
def dlyRegOf : Nat → Option DlyReg
  | 0 => some .size
  | 1 => some .n
  | 2 => some .w
  | 3 => some .fb
  | 4 => some .sized
  | _ => none

/-- The register at offset `j` of a biquad (R38): parameters 0..3, coefficients 4..10, cells 16..23. -/
def biqRegOf (j : Nat) : Option BiqReg :=
  if j = 0 then some .type
  else if j = 1 then some .cutoff
  else if j = 2 then some .q
  else if j = 3 then some .gain
  else if j < 16 then (coefRegOf (j - 4)).map .coef
  else (cellRegOf (j - 16)).map (fun c => .cell c.1 c.2)

/-- The register at offset `j` of a cascade (R42): `ACTIVE`, `Q`, `F[k]` at `0x0100 + k`, coefficients at
`0x0800 + 8·k + c`, cells at `0x1000 + 8·k + s`. Stages have `k < APC_NSTAGE ≤ 255`, so no `k` above 255 is a register. -/
def apcRegOf (j : Nat) : Option ApcReg :=
  if j = 0 then some .active
  else if j = 1 then some .q
  else if 0x100 ≤ j ∧ j < 0x200 then some (.freq (j - 0x100))
  else if 0x800 ≤ j ∧ j < 0x1000 then (coefRegOf ((j - 0x800) % 8)).map (.coef ((j - 0x800) / 8))
  else if 0x1000 ≤ j ∧ j < 0x1800 then
    (cellRegOf ((j - 0x1000) % 8)).map (fun c => .cell ((j - 0x1000) / 8) c.1 c.2)
  else none

/-- `region(addr)` (R61, R101). -/
def region (addr : Addr) : Region :=
  let a := addr.toNat
  if a = 0 then .cmd
  else if a = 1 then .status
  else if a = 2 then .sr
  else if a = 3 then .seed
  else if 0x8 ≤ a ∧ a < 0x10 then ((mixRegOf (a - 0x8)).map .mixer).getD .reserved
  else if 0x10 ≤ a ∧ a < 0x20 then .sample (BitVec.ofNat 4 (a - 0x10))
  else if 0x100 ≤ a ∧ a < 0x500 then ((lfoRegOf ((a - 0x100) % 4)).map (.lfo ((a - 0x100) / 4))).getD .reserved
  else if 0x1000 ≤ a ∧ a < 0x3000 then ((biqRegOf ((a - 0x1000) % 32)).map (.biq ((a - 0x1000) / 32))).getD .reserved
  else if 0x3000 ≤ a ∧ a < 0x3800 then ((dlyRegOf ((a - 0x3000) % 8)).map (.dly ((a - 0x3000) / 8))).getD .reserved
  else if 0x4000 ≤ a ∧ a < 0xC000 then
    ((apcRegOf ((a - 0x4000) % 0x2000)).map (.apc ((a - 0x4000) / 0x2000))).getD .reserved
  else .reserved

/-- The offset of a coefficient in its block (R38, R42). -/
def coefOffset : CoefReg → Nat
  | .a0 => 0
  | .a1 => 1
  | .a2 => 2
  | .b0 => 3
  | .b1 => 4
  | .c0 => 5
  | .d0 => 6

/-- The offset of a cell in its block (R38, R42). -/
def cellOffset : Channel → CellReg → Nat
  | .left, .x1 => 0
  | .left, .x2 => 1
  | .left, .y1 => 2
  | .left, .y2 => 3
  | .right, .x1 => 4
  | .right, .x2 => 5
  | .right, .y1 => 6
  | .right, .y2 => 7

/-- The offset of a mixer register from `0x0008` (R29). -/
def mixOffset : MixReg → Nat
  | .wet => 0
  | .dry => 1
  | .int => 2
  | .fb => 3
  | .mid => 4
  | .side => 5

/-- The offset of an LFO register (R30). -/
def lfoOffset : LfoReg → Nat
  | .phase => 0
  | .rate => 1

/-- The offset of a delay line register (R32). -/
def dlyOffset : DlyReg → Nat
  | .size => 0
  | .n => 1
  | .w => 2
  | .fb => 3
  | .sized => 4

/-- The offset of a biquad register (R38). -/
def biqOffset : BiqReg → Nat
  | .type => 0
  | .cutoff => 1
  | .q => 2
  | .gain => 3
  | .coef c => 4 + coefOffset c
  | .cell ch c => 16 + cellOffset ch c

/-- The offset of a cascade register (R42). -/
def apcOffset : ApcReg → Nat
  | .active => 0
  | .q => 1
  | .freq k => 0x100 + k
  | .coef k c => 0x800 + 8 * k + coefOffset c
  | .cell k ch c => 0x1000 + 8 * k + cellOffset ch c

/-- The address of a register, by the formulas of 10_state.md (R20, R25 to R42); meaningless for `reserved`. -/
def addrOf : Region → Addr
  | .cmd => 0x0000
  | .status => 0x0001
  | .sr => 0x0002
  | .seed => 0x0003
  | .mixer r => BitVec.ofNat 16 (0x0008 + mixOffset r)
  | .sample i => BitVec.ofNat 16 (0x0010 + i.toNat)
  | .lfo u r => BitVec.ofNat 16 (0x0100 + 4 * u + lfoOffset r)
  | .dly u r => BitVec.ofNat 16 (0x3000 + 8 * u + dlyOffset r)
  | .biq u r => BitVec.ofNat 16 (0x1000 + 32 * u + biqOffset r)
  | .apc a r => BitVec.ofNat 16 (0x4000 + 0x2000 * a + apcOffset r)
  | .reserved => 0xFFFF

/-! ### Reading (R102) -/

/-- A coefficient of a set. -/
def Coeffs.get (k : Coeffs) : CoefReg → Word
  | .a0 => k.a0
  | .a1 => k.a1
  | .a2 => k.a2
  | .b0 => k.b0
  | .b1 => k.b1
  | .c0 => k.c0
  | .d0 => k.d0

/-- A cell of a history set. -/
def Cells.get (h : Cells) : CellReg → Word
  | .x1 => h.x1
  | .x2 => h.x2
  | .y1 => h.y1
  | .y2 => h.y2

/-- A mixer register. -/
def State.mixGet (s : State) : MixReg → Word
  | .wet => s.mixWet
  | .dry => s.mixDry
  | .int => s.mixInt
  | .fb => s.mixFb
  | .mid => s.msMid
  | .side => s.msSide

/-- A register of an LFO. -/
def LfoUnit.get (l : LfoUnit) : LfoReg → Word
  | .phase => l.phase
  | .rate => l.rate

/-- A register of a delay line. -/
def DlyUnit.get (l : DlyUnit) : DlyReg → Word
  | .size => BitVec.ofNat 32 l.size
  | .n => BitVec.ofNat 32 l.n
  | .w => BitVec.ofNat 32 l.w
  | .fb => l.fb
  | .sized => if l.sized then 1 else 0

/-- A register of a biquad. -/
def BiqUnit.get (b : BiqUnit) : BiqReg → Word
  | .type => BitVec.ofNat 32 (typeNumber b.type)
  | .cutoff => b.cutoff
  | .q => b.q
  | .gain => b.gain
  | .coef c => b.sec.coeffs.get c
  | .cell ch c => (b.sec.cells ch).get c

/-- A register of a cascade; `none` for a stage that does not exist. -/
def ApcUnit.get (c : ApcUnit) : ApcReg → Option Word
  | .active => some (BitVec.ofNat 32 c.active)
  | .q => some c.q
  | .freq k => (c.stages[k]?).map (·.freq)
  | .coef k r => (c.stages[k]?).map (·.sec.coeffs.get r)
  | .cell k ch r => (c.stages[k]?).map (fun st => (st.sec.cells ch).get r)

/-- The word a read of a region returns; `none` for a bad address (R103). -/
def State.readReg (s : State) : Region → Option Word
  | .cmd => some 0
  | .status => some (s.status.setWidth 32)
  | .sr => some s.sr
  | .seed => some s.seed
  | .mixer r => some (s.mixGet r)
  | .sample i => some (s.readV i)
  | .lfo u r => (s.lfo[u]?).map (·.get r)
  | .dly u r => (s.dly[u]?).map (·.get r)
  | .biq u r => (s.biq[u]?).map (·.get r)
  | .apc a r => (s.apc[a]?).bind (·.get r)
  | .reserved => none

/-! ### Writing (R101, R103, R104) -/

/-- Replace a coefficient. -/
def Coeffs.put (k : Coeffs) (d : Word) : CoefReg → Coeffs
  | .a0 => { k with a0 := d }
  | .a1 => { k with a1 := d }
  | .a2 => { k with a2 := d }
  | .b0 => { k with b0 := d }
  | .b1 => { k with b1 := d }
  | .c0 => { k with c0 := d }
  | .d0 => { k with d0 := d }

/-- Replace a cell. -/
def Cells.put (h : Cells) (d : Word) : CellReg → Cells
  | .x1 => { h with x1 := d }
  | .x2 => { h with x2 := d }
  | .y1 => { h with y1 := d }
  | .y2 => { h with y2 := d }

/-- Replace a coefficient of a section. -/
def Section.putCoef (b : Section) (c : CoefReg) (d : Word) : Section := { b with coeffs := b.coeffs.put d c }

/-- Replace a cell of a section. -/
def Section.putCell (b : Section) (ch : Channel) (c : CellReg) (d : Word) : Section :=
  b.setCells ch ((b.cells ch).put d c)

/-- A clamping unsigned register: `min(max(d, 1), hi)` (R104). -/
def clampCount (d : Word) (hi : Nat) : Nat := min (max d.toNat 1) hi

/-- Write a mixer register; `MIX_INT` clamps to `[0, 1]` (R29, R104). -/
def State.writeMix (s : State) (d : Word) : MixReg → State
  | .wet => { s with mixWet := d }
  | .dry => { s with mixDry := d }
  | .int => State.raiseIf { s with mixInt := F32.clamp d F32.zero F32.one } (F32.clamped d F32.zero F32.one) .clamp
  | .fb => { s with mixFb := d }
  | .mid => { s with msMid := d }
  | .side => { s with msSide := d }

/-- Write `SR`: clamp to `[SR_MIN, SR_MAX]`, and clear every `sized` flag whatever the value (R27, R37, R104). -/
def State.writeSr (s : State) (d : Word) : State :=
  State.raiseIf
    { s with
      sr := F32.clamp d s.params.srMin s.params.srMax
      dly := s.dly.map (fun l => { l with sized := false }) }
    (F32.clamped d s.params.srMin s.params.srMax) .clamp

/-- Write `SEED`, which also sets `rng_n` to 0 (R28, R101). -/
def State.writeSeed (s : State) (d : Word) : State := { s with seed := d, rngN := 0 }

/-- Write a register of LFO `u`; `PHASE` clamps to `[0, PHASE_MAX]` (R30, R104). -/
def State.writeLfo (s : State) (u : Nat) (l : LfoUnit) (d : Word) : LfoReg → State
  | .phase =>
    (s.setLfo u { l with phase := F32.clamp d F32.zero F32.phaseMax }).raiseIf
      (F32.clamped d F32.zero F32.phaseMax) .clamp
  | .rate => s.setLfo u { l with rate := d }

/-- Write a register of delay line `u`: `SIZE` clamps to `1..DLY_CAP`, `FB` to `[0, 1]`, the others are read-only
(R32, R103, R104). -/
def State.writeDly (s : State) (u : Nat) (l : DlyUnit) (d : Word) : DlyReg → State
  | .size =>
    (s.setDly u { l with size := clampCount d s.params.dlyCap }).raiseIf
      (clampCount d s.params.dlyCap != d.toNat) .clamp
  | .fb =>
    (s.setDly u { l with fb := F32.clamp d F32.zero F32.one }).raiseIf (F32.clamped d F32.zero F32.one) .clamp
  | .n | .w | .sized => s.raise .illaddr

/-- Write a register of biquad `u`: `TYPE` above 10 is ignored with `CLAMP`, `CUTOFF` clamps to `[20, 20000]`, `Q` to
`≥ 0.5`, the others store the word (R38, R104). No coefficient is recomputed (R66). -/
def State.writeBiq (s : State) (u : Nat) (b : BiqUnit) (d : Word) : BiqReg → State
  | .type =>
    match typeOfNumber d.toNat with
    | some t => s.setBiq u { b with type := t }
    | none => s.raise .clamp
  | .cutoff =>
    (s.setBiq u { b with cutoff := F32.clamp d 0x41A00000 0x469C4000 }).raiseIf
      (F32.clamped d 0x41A00000 0x469C4000) .clamp
  | .q => (s.setBiq u { b with q := F32.clampLo d F32.half }).raiseIf (F32.clampLo d F32.half != d) .clamp
  | .gain => s.setBiq u { b with gain := d }
  | .coef c => s.setBiq u { b with sec := b.sec.putCoef c d }
  | .cell ch c => s.setBiq u { b with sec := b.sec.putCell ch c d }

/-- Change stage `k` of cascade `a`; a stage that does not exist is a bad address (R103). -/
def State.writeStage (s : State) (a : Nat) (c : ApcUnit) (k : Nat) (f : Stage → Stage) : State :=
  match c.stages[k]? with
  | some st => s.setApc a { c with stages := c.stages.set k (f st) }
  | none => s.raise .illaddr

/-- Write `F[k]`, which clamps to `[APC_FMIN, 15000]` (R42, R104). -/
def State.writeFreq (s : State) (a : Nat) (c : ApcUnit) (k : Nat) (d : Word) : State :=
  match c.stages[k]? with
  | some st =>
    (s.setApc a { c with
      stages := c.stages.set k { st with freq := F32.clamp d s.params.apcFmin 0x466A6000 } }).raiseIf
        (F32.clamped d s.params.apcFmin 0x466A6000) .clamp
  | none => s.raise .illaddr

/-- Write a register of cascade `a`: `ACTIVE` clamps to `1..APC_NSTAGE`, `Q` to `[1, 1000]` (R42, R104). -/
def State.writeApc (s : State) (a : Nat) (c : ApcUnit) (d : Word) : ApcReg → State
  | .active =>
    (s.setApc a { c with active := clampCount d c.stages.length }).raiseIf
      (clampCount d c.stages.length != d.toNat) .clamp
  | .q =>
    (s.setApc a { c with q := F32.clamp d F32.one 0x447A0000 }).raiseIf (F32.clamped d F32.one 0x447A0000) .clamp
  | .freq k => s.writeFreq a c k d
  | .coef k r => s.writeStage a c k (fun st => { st with sec := st.sec.putCoef r d })
  | .cell k ch r => s.writeStage a c k (fun st => { st with sec := st.sec.putCell ch r d })

/-- A write of `d` to a region other than `CMD`, which stores nothing itself (R26, R101); a bad address sets `ILLADDR`
and stores nothing (R103). -/
def State.writeReg (s : State) (d : Word) : Region → State
  | .cmd => s
  | .status => s.clearFlags d
  | .sr => s.writeSr d
  | .seed => s.writeSeed d
  | .mixer r => s.writeMix d r
  | .sample i => s.writeV i d
  | .lfo u r => match s.lfo[u]? with
    | some l => s.writeLfo u l d r
    | none => s.raise .illaddr
  | .dly u r => match s.dly[u]? with
    | some l => s.writeDly u l d r
    | none => s.raise .illaddr
  | .biq u r => match s.biq[u]? with
    | some b => s.writeBiq u b d r
    | none => s.raise .illaddr
  | .apc a r => match s.apc[a]? with
    | some c => s.writeApc a c d r
    | none => s.raise .illaddr
  | .reserved => s.raise .illaddr

end Sys2Proof.Machine
end

