-- ==== Sys2Proof/Machine/Port.lean ====
section
/-! DEFINITION. The host port (spec/40_system.md R100 to R107): command execution, the two transactions, and the taking
of the host's next transaction. -/

namespace Sys2Proof.Machine

/-- `Execute(c)`: a word that is no command is an illegal command (R88, R107); the unit check of R84 is each command's
own. -/
def execute (c : Word) (s : State) : Result :=
  match decode c with
  | .ok i => exec i s
  | .reject _ => illegalCommand s

/-- `MemWrite(addr, data)` (R101). -/
def memWrite (addr : Addr) (data : Word) (s : State) : Result :=
  if region addr = .cmd then execute data s else .next (s.writeReg data (region addr))

/-- `MemRead(addr)`: the word read, and the state, which only a bad address changes (R65, R102, R103). -/
def memRead (addr : Addr) (s : State) : Word × State :=
  match s.readReg (region addr) with
  | some w => (w, s)
  | none => (0, s.raise .illaddr)

/-- One host transaction (R100). The word an `RD` returns is kept in `reply`. -/
def transact (t : Txn) (s : State) : Result :=
  match t with
  | .wr addr data => memWrite addr data s
  | .rd addr => .next { (memRead addr s).2 with reply := some (memRead addr s).1 }

/-- The state in which a transaction is performed: it has left the host's queue and the transaction index has advanced
by 1 (R24). -/
def State.take (s : State) (rest : List Txn) : State := { s with host := rest, txn := s.txn + 1 }

/-- Take the host's next transaction; with none pending, BQX holds its state (R7, R273). -/
def hostStep (s : State) : Result :=
  match s.host with
  | [] => .next s
  | t :: rest => transact t (s.take rest)

end Sys2Proof.Machine
end

