-- ==== Sys2Proof/Machine/Step.lean ====
section
/-! DEFINITION. One step of the machine: the host's next transaction (spec/40_system.md R100). -/

namespace Sys2Proof.Machine

/-- One step (R100). -/
def step (s : State) : Host.Outcome State Fault Refusal := hostStep s

/-- `s` with the transaction `WR 0x0000, w` as the host's next one, so that the next step executes the command word
`w` of `nbits` bits (R26, R80). BQX fetches nothing (R24): a command comes to run when the host writes it (log
entry 9). -/
def State.withFetchWord (s : State) (nbits w : Nat) : State :=
  { s with host := .wr 0 (BitVec.ofNat 32 (w % 2 ^ nbits)) :: s.host }

end Sys2Proof.Machine
end

