-- ==== Sys2Proof/Safety.lean ====
section
/-! DEFINITION. What a legal instance and a legal state are: every register within the range the spec says it never
leaves (spec/00_scope.md R8, spec/10_state.md R27 to R42). -/

namespace Sys2Proof.Machine

/-- `lo ≤ a ≤ hi`, false for a NaN. -/
def F32.within (lo a hi : Word) : Bool := F32.le lo a && F32.le a hi

/-- The legal ranges of R8 for the parameters that are not counts. Every `Coef` of the model is admissible by construction
(R163 to R168, R187, R206: `coefOther`), so `coef` needs no check here. Log entries 7, 23 and 24. -/
def legalParams (p : Params) : Bool :=
  decide (1 ≤ p.dlyCap ∧ p.dlyCap ≤ 2 ^ 23) && F32.isFinite p.srMin && F32.isFinite p.srMax
    && F32.lt F32.zero p.srMin && F32.le p.srMin p.srMax
    && (p.apcFmin == 0x43960000 || p.apcFmin == 0x43C80000)

/-- R31: `0 ≤ phase ≤ PHASE_MAX`. -/
def LfoUnit.legal (l : LfoUnit) : Bool := F32.within F32.zero l.phase F32.phaseMax

/-- R32, R33, R35, R67: sizes in range, the cursor inside the line, a sized line has a length, histories in canonical
form and inside their `DLY_CAP` words. -/
def DlyUnit.legal (cap : Nat) (l : DlyUnit) : Bool :=
  decide (1 ≤ l.size ∧ l.size ≤ cap ∧ l.n ≤ cap ∧ (l.w < l.n ∨ (l.n = 0 ∧ l.w = 0)))
    && (!l.sized || decide (1 ≤ l.n)) && F32.within F32.zero l.fb F32.one
    && l.x.wf && l.y.wf && l.x.all (fun c => c.1 < cap) && l.y.all (fun c => c.1 < cap)

/-- R38: `CUTOFF` in `[20, 20000]`, `Q ≥ 0.5`. -/
def BiqUnit.legal (b : BiqUnit) : Bool := F32.within 0x41A00000 b.cutoff 0x469C4000 && F32.le F32.half b.q

/-- R42: `ACTIVE` in `1..APC_NSTAGE`, `Q` in `[1, 1000]`, every `F[k]` in `[APC_FMIN, 15000]`. -/
def ApcUnit.legal (fmin : Word) (c : ApcUnit) : Bool :=
  decide (1 ≤ c.active ∧ c.active ≤ c.stages.length ∧ c.stages.length ≤ 255) && F32.within F32.one c.q 0x447A0000
    && c.stages.all (fun st => F32.within fmin st.freq 0x466A6000)

/-- The legal counts of R8. -/
def State.legalSizes (s : State) : Bool :=
  decide (1 ≤ s.lfo.length ∧ s.lfo.length ≤ 256 ∧ 1 ≤ s.dly.length ∧ s.dly.length ≤ 256
    ∧ 1 ≤ s.biq.length ∧ s.biq.length ≤ 256 ∧ 1 ≤ s.apc.length ∧ s.apc.length ≤ 4)

/-- A legal state: a legal instance, and no register holds an illegal value (the reset principle of 10_state.md). -/
def State.legal (s : State) : Bool :=
  legalParams s.params && s.legalSizes && F32.within s.params.srMin s.sr s.params.srMax
    && F32.within F32.zero s.mixInt F32.one
    && s.lfo.all LfoUnit.legal && s.dly.all (DlyUnit.legal s.params.dlyCap)
    && s.biq.all BiqUnit.legal && s.apc.all (ApcUnit.legal s.params.apcFmin)

/-- A legal configuration (R8). -/
def legalCfg (c : Cfg) : Bool :=
  legalParams c.params
    && decide (1 ≤ c.sizes.nLfo ∧ c.sizes.nLfo ≤ 256 ∧ 1 ≤ c.sizes.nDly ∧ c.sizes.nDly ≤ 256
      ∧ 1 ≤ c.sizes.nBiq ∧ c.sizes.nBiq ≤ 256 ∧ 1 ≤ c.sizes.nApc ∧ c.sizes.nApc ≤ 4
      ∧ 1 ≤ c.sizes.apcNStage ∧ c.sizes.apcNStage ≤ 255)

/-! ### What a command writes -/

/-- The families of units (R5). -/
inductive Family where
  | lfo | dly | biq | apc
deriving DecidableEq, Repr

/-- The sample register a command names as its destination (R20, R86). -/
def destOf : Instr → Option Reg
  | .lfoNext rd _ => some rd
  | .lfoRange rd _ _ _ => some rd
  | .dlyProci rd _ _ _ => some rd
  | .dlyProcf rd _ _ _ => some rd
  | .biqProc rd _ _ _ => some rd
  | .apcProc rd _ _ _ => some rd
  | .mixWd rd _ _ => some rd
  | .mixInt rd _ _ => some rd
  | .mixFb rd _ _ => some rd
  | .msL rd _ _ => some rd
  | .msR rd _ _ => some rd
  | .nop => none
  | .lfoInit _ => none
  | .lfoInitp _ _ => none
  | .lfoInitr _ => none
  | .lfoAdv _ => none
  | .dlyInit _ => none
  | .biqSet _ => none
  | .biqRst _ => none
  | .apcSet _ => none
  | .apcRst _ => none

/-- The unit whose state a command writes. `LFO.NEXT` and `LFO.RANGE` only read their LFO (R124, R125). -/
def targetOf : Instr → Option (Family × Nat)
  | .lfoInit u => some (.lfo, u.toNat)
  | .lfoInitp _ u => some (.lfo, u.toNat)
  | .lfoInitr u => some (.lfo, u.toNat)
  | .lfoAdv u => some (.lfo, u.toNat)
  | .dlyInit u => some (.dly, u.toNat)
  | .dlyProci _ _ _ u => some (.dly, u.toNat)
  | .dlyProcf _ _ _ u => some (.dly, u.toNat)
  | .biqSet u => some (.biq, u.toNat)
  | .biqProc _ _ _ u => some (.biq, u.toNat)
  | .biqRst u => some (.biq, u.toNat)
  | .apcSet a => some (.apc, a.toNat)
  | .apcProc _ _ _ a => some (.apc, a.toNat)
  | .apcRst a => some (.apc, a.toNat)
  | .nop => none
  | .lfoNext _ _ => none
  | .lfoRange _ _ _ _ => none
  | .mixWd _ _ _ => none
  | .mixInt _ _ _ => none
  | .mixFb _ _ _ => none
  | .msL _ _ _ => none
  | .msR _ _ _ => none

/-! ### What the host can and cannot see -/

/-- Two states that differ in nothing but the flags of `STATUS` (R274). -/
def State.sameData (s t : State) : Prop := { s with status := 0 } = { t with status := 0 }

/-- Two lines that differ at most in history words no command can reach: those of an unsized line, and those at or above
`N` (R34, R67). -/
def DlyUnit.sameVisible (l m : DlyUnit) : Prop :=
  l.size = m.size ∧ l.n = m.n ∧ l.w = m.w ∧ l.fb = m.fb ∧ l.sized = m.sized ∧
    (l.sized = true → ∀ k, k < l.n → l.x.read k = m.x.read k ∧ l.y.read k = m.y.read k)

/-- Two states that differ at most in such words (R34). -/
def State.sameVisible (s t : State) : Prop :=
  { s with dly := [] } = { t with dly := [] } ∧ List.Forall₂ DlyUnit.sameVisible s.dly t.dly

end Sys2Proof.Machine
end

