-- ==== Sys2Proof/WellFormed.lean ====
section
/-! DEFINITION. The unit check of spec/30_encoding.md R84: the one condition on a command that its format does not
express. A command that fails it is illegal (R88). -/

namespace Sys2Proof

/-- R84: the unit index is below the count of the family the opcode names; `NOP`, `MIX.*` and `MS.*` name no unit. -/
def Instr.wellFormed (n : Sizes) : Instr → Bool
  | .nop => true
  | .lfoInit u => u.toNat < n.nLfo
  | .lfoInitp _ u => u.toNat < n.nLfo
  | .lfoInitr u => u.toNat < n.nLfo
  | .lfoNext _ u => u.toNat < n.nLfo
  | .lfoRange _ _ _ u => u.toNat < n.nLfo
  | .lfoAdv u => u.toNat < n.nLfo
  | .dlyInit u => u.toNat < n.nDly
  | .dlyProci _ _ _ u => u.toNat < n.nDly
  | .dlyProcf _ _ _ u => u.toNat < n.nDly
  | .biqSet u => u.toNat < n.nBiq
  | .biqProc _ _ _ u => u.toNat < n.nBiq
  | .biqRst u => u.toNat < n.nBiq
  | .apcSet a => a.toNat < n.nApc
  | .apcProc _ _ _ a => a.toNat < n.nApc
  | .apcRst a => a.toNat < n.nApc
  | .mixWd _ _ _ => true
  | .mixInt _ _ _ => true
  | .mixFb _ _ _ => true
  | .msL _ _ _ => true
  | .msR _ _ _ => true

end Sys2Proof
end

