-- ==== Sys2Proof/Certificates/Slice0/Obligations.lean ====
section
/-! DEFINITION. The statements for the provers. Flags in `status`: `1#4` UNINIT, `2#4` CLAMP, `4#4` ILLCMD, `8#4` ILLADDR
(spec/10_state.md R25). Where an operation can return a NaN, a statement says "for some NaNs `e`", because the spec leaves
the NaN's sign and payload a draw (U1): `e k` is the NaN drawn at the operation numbered `k` in the statement. -/

open Sys2Proof Sys2Proof.Machine

/-! ## Encoding and decoding -/

/-- R81, R82, R86, R87: decoding the word of a command gives the command back, every field kept. -/
def Obligations.DecodeOfEncodeIsTheCommand : Prop :=
  ∀ i : Instr, decode (encode i) = .ok i

/-- R82, R86, R88: the decoder accepts no word but the encodings: two words never decode to one command, and a word with
a nonzero unused field is not accepted. -/
def Obligations.DecodeAcceptsOnlyEncodings : Prop :=
  ∀ (w : Word) (i : Instr), decode w = .ok i → encode i = w

/-- R86, R88: the 21 rows with their opcode, match and mask; a word written to `CMD` is the command of a row exactly when
`(c AND mask) = match` and the unit check passes; no two rows match one word; any other word sets `ILLCMD` and changes
nothing else. -/
def Obligations.CommandWordsAreThoseOfTheOpcodeMap : Prop :=
  Op.all.map (fun o => (o.code, o.pattern, o.mask)) =
    [(0x00#8, 0x00000000#32, 0xFFFFFFFF#32), (0x10#8, 0x10000000#32, 0xFFFFFF00#32),
     (0x11#8, 0x11000000#32, 0xFFF0FF00#32), (0x12#8, 0x12000000#32, 0xFFFFFF00#32),
     (0x13#8, 0x13000000#32, 0xFF0FFF00#32), (0x14#8, 0x14000000#32, 0xFF000F00#32),
     (0x15#8, 0x15000000#32, 0xFFFFFF00#32), (0x20#8, 0x20000000#32, 0xFFFFFF00#32),
     (0x21#8, 0x21000000#32, 0xFF000F00#32), (0x22#8, 0x22000000#32, 0xFF000F00#32),
     (0x30#8, 0x30000000#32, 0xFFFFFF00#32), (0x31#8, 0x31000000#32, 0xFF00F700#32),
     (0x32#8, 0x32000000#32, 0xFFFFFF00#32), (0x40#8, 0x40000000#32, 0xFFFFFF00#32),
     (0x41#8, 0x41000000#32, 0xFF00F700#32), (0x42#8, 0x42000000#32, 0xFFFFFF00#32),
     (0x50#8, 0x50000000#32, 0xFF000FFF#32), (0x51#8, 0x51000000#32, 0xFF000FFF#32),
     (0x52#8, 0x52000000#32, 0xFF000FFF#32), (0x53#8, 0x53000000#32, 0xFF000FFF#32),
     (0x54#8, 0x54000000#32, 0xFF000FFF#32)] ∧
  ∀ (s : State) (w : Word),
    (∀ o : Op, w &&& o.mask = o.pattern → (o.build w).wellFormed s.sizes = true →
      execute w s = exec (o.build w) s) ∧
    ((∀ o : Op, w &&& o.mask = o.pattern → (o.build w).wellFormed s.sizes = false) →
      execute w s = .next { s with status := s.status ||| 4#4 }) ∧
    (∀ o o' : Op, w &&& o.mask = o.pattern → w &&& o'.mask = o'.pattern → o = o')

/-- R86, R87, R88: words written out from the spec's encodings and examples. -/
def Obligations.KnownWordsDecode : Prop :=
  decode 0x31100802 = .ok (.biqProc 1 0 .right 2) ∧ decode 0x11020001 = .ok (.lfoInitp 2 1) ∧
  decode 0x13500000 = .ok (.lfoNext 5 0) ∧ decode 0x14312000 = .ok (.lfoRange 3 1 2 0) ∧
  decode 0x22812000 = .ok (.dlyProcf 8 1 2 0) ∧ decode 0x20000001 = .ok (.dlyInit 1) ∧
  decode 0x41100800 = .ok (.apcProc 1 0 .right 0) ∧ decode 0x52304000 = .ok (.mixFb 3 0 4) ∧
  decode 0x54301000 = .ok (.msR 3 0 1) ∧ decode 0x00000000 = .ok .nop ∧
  decode 0x00000100 = .reject .reservedBitsSet ∧ decode 0x10100000 = .reject .reservedBitsSet ∧
  decode 0x50201001 = .reject .reservedBitsSet ∧ decode 0x99000000 = .reject .unlistedOpcode

/-! ## The step -/

/-- R24, R26, R64, R65, R88, R100, R101, R103, R107, R273: a step performs the host's next transaction, in the state in
which it has left the queue and the transaction index has advanced by 1; with nothing pending the state is held. A write
to `CMD` executes the word: the meaning of the command it decodes to, and of a word that is none the flag `ILLCMD` alone. A
write to any other address writes the register the address names, and a read answers its word, or 0 with `ILLADDR` where
there is none. The queue, the held state and the reply are the model's (log entries 9, 10, 12). -/
def Obligations.StepRunsTheCommandWritten : Prop :=
  (∀ (s : State) (w : Word) (rest : List Txn) (i : Instr),
    s.host = .wr 0x0000 w :: rest → decode w = .ok i →
      step s = exec i { s with host := rest, txn := s.txn + 1 }) ∧
  (∀ s : State, s.host = [] → step s = .next s) ∧
  (∀ (s : State) (x : Txn) (rest : List Txn),
    s.host = x :: rest → step s = transact x { s with host := rest, txn := s.txn + 1 }) ∧
  (∀ (w : Word) (s : State), transact (.wr 0x0000 w) s = execute w s) ∧
  (∀ (w : Word) (i : Instr) (s : State), decode w = .ok i → execute w s = exec i s) ∧
  (∀ (w : Word) (s : State), (∀ i, decode w ≠ .ok i) →
    execute w s = .next { s with status := s.status ||| 4#4 }) ∧
  (∀ (addr : Addr) (d : Word) (s : State), addr ≠ 0x0000 →
    transact (.wr addr d) s = .next (s.writeReg d (region addr))) ∧
  (∀ (addr : Addr) (s : State),
    transact (.rd addr) s = .next (match s.readReg (region addr) with
      | some w => { s with reply := some w }
      | none => { s with reply := some 0, status := s.status ||| 8#4 }))

/-- R100, R262: every command, every transaction and every step answers a next state, in every state. -/
def Obligations.NothingEverStops : Prop :=
  (∀ (i : Instr) (s : State), ∃ t, exec i s = .next t) ∧
  (∀ (x : Txn) (s : State), ∃ t, transact x s = .next t) ∧
  (∀ s : State, ∃ t, step s = .next t)

/-! ## System -/

/-- R105: `NOP` is the all-zero word and changes nothing; with any nonzero bit in bits 23:0 the word is illegal. -/
def Obligations.NopChangesNothing : Prop :=
  encode .nop = 0x00000000 ∧ (∀ s : State, exec .nop s = .next s) ∧
  (∀ (x : BitVec 24) (s : State), x ≠ 0 →
    execute (0x00#8 ++ x) s = .next { s with status := s.status ||| 4#4 })

/-! ## LFO -/

/-- R121: `LFO.INIT`. -/
def Obligations.LfoInitZeroesThePhase : Prop :=
  ∀ (u : UnitIdx) (s : State),
    encode (.lfoInit u) = 0x10#8 ++ 0#16 ++ u ∧
    (s.lfo.length ≤ u.toNat → exec (.lfoInit u) s = .next { s with status := s.status ||| 4#4 }) ∧
    (∀ l, s.lfo[u.toNat]? = some l →
      exec (.lfoInit u) s = .next { s with lfo := s.lfo.set u.toNat { l with phase := 0 } })

/-- R122: `LFO.INITP`; NaN and negative phases store `+0`, a phase above `PHASE_MAX` stores `PHASE_MAX`, both with
`CLAMP`; `−0` is kept. A write of the same word to `LFOu.PHASE` has the same effect. -/
def Obligations.LfoInitpClampsThePhase : Prop :=
  ∀ (ra : Reg) (u : UnitIdx) (s : State),
    encode (.lfoInitp ra u) = 0x11#8 ++ 0#4 ++ ra ++ 0#8 ++ u ∧
    (s.lfo.length ≤ u.toNat → exec (.lfoInitp ra u) s = .next { s with status := s.status ||| 4#4 }) ∧
    (∀ l, s.lfo[u.toNat]? = some l →
      exec (.lfoInitp ra u) s = (
        if F32.isNaN (s.readV ra) = true ∨ F32.lt (s.readV ra) 0x00000000 = true then
          .next { s with lfo := s.lfo.set u.toNat { l with phase := 0x00000000 }, status := s.status ||| 2#4 }
        else if F32.gt (s.readV ra) 0x40C90FDA = true then
          .next { s with lfo := s.lfo.set u.toNat { l with phase := 0x40C90FDA }, status := s.status ||| 2#4 }
        else .next { s with lfo := s.lfo.set u.toNat { l with phase := s.readV ra } }) ∧
      ∀ addr, region addr = .lfo u.toNat .phase → transact (.wr addr (s.readV ra)) s = exec (.lfoInitp ra u) s)

/-- R123: `LFO.INITR`; the phase is a function of `SEED` and the draw counter, in `[0, PHASE_MAX]`. -/
def Obligations.LfoInitrDrawsThePhase : Prop :=
  ∀ (u : UnitIdx) (s : State),
    encode (.lfoInitr u) = 0x12#8 ++ 0#16 ++ u ∧
    (s.lfo.length ≤ u.toNat → exec (.lfoInitr u) s = .next { s with status := s.status ||| 4#4 }) ∧
    (∀ l, s.lfo[u.toNat]? = some l →
      exec (.lfoInitr u) s =
        .next { s with lfo := s.lfo.set u.toNat { l with phase := F32.rng s.seed s.rngN }, rngN := s.rngN + 1 }) ∧
    (∀ (seed : Word) (n : Nat),
      F32.le 0x00000000 (F32.rng seed n) = true ∧ F32.le (F32.rng seed n) 0x40C90FDA = true)

/-- R124: `LFO.NEXT` writes the sine of the phase and does not change it; the sine of a finite phase is in `[−1, 1]` and
that of `+0` is `+0`. -/
def Obligations.LfoNextWritesTheSine : Prop :=
  ∀ (rd : Reg) (u : UnitIdx) (s : State),
    encode (.lfoNext rd u) = 0x13#8 ++ rd ++ 0#12 ++ u ∧
    (s.lfo.length ≤ u.toNat → exec (.lfoNext rd u) s = .next { s with status := s.status ||| 4#4 }) ∧
    (∀ l, s.lfo[u.toNat]? = some l →
      exec (.lfoNext rd u) s = .next { s with v := s.v.set rd.toNat (F32.sin l.phase) rd.isLt } ∧
      (F32.isFinite l.phase = true →
        F32.le 0xBF800000 (F32.sin l.phase) = true ∧ F32.le (F32.sin l.phase) 0x3F800000 = true) ∧
      (l.phase = 0 → F32.sin l.phase = 0))

/-- R125: `LFO.RANGE` writes `lo ⊕ (((s ⊕ 1) ⊗ 0.5) ⊗ (hi ⊖ lo))` and does not change the phase. -/
def Obligations.LfoRangeRemapsTheSine : Prop :=
  ∀ (rd ra rb : Reg) (u : UnitIdx) (s : State),
    encode (.lfoRange rd ra rb u) = 0x14#8 ++ rd ++ ra ++ rb ++ 0#4 ++ u ∧
    (s.lfo.length ≤ u.toNat → exec (.lfoRange rd ra rb u) s = .next { s with status := s.status ||| 4#4 }) ∧
    (∀ l, s.lfo[u.toNat]? = some l →
      ∃ e : Nat → Word, (∀ k, F32.isNaN (e k) = true) ∧
        exec (.lfoRange rd ra rb u) s = .next { s with
          v := s.v.set rd.toNat
            (F32.add (e 4) (s.readV ra)
              (F32.mul (e 3) (F32.mul (e 1) (F32.add (e 0) (F32.sin l.phase) 0x3F800000) 0x3F000000)
                (F32.sub (e 2) (s.readV rb) (s.readV ra)))) rd.isLt })

/-- R125's corner case: with `lo = hi` finite, `LFO.RANGE` writes `lo` whatever the (finite) phase. `lo ≠ −0`, for which
`lo ⊕ (+0)` is `+0`. -/
def Obligations.LfoRangeOfEqualBoundsIsTheBound : Prop :=
  ∀ (rd ra rb : Reg) (u : UnitIdx) (s : State) (l : LfoUnit),
    s.lfo[u.toNat]? = some l → F32.isFinite l.phase = true → F32.isFinite (s.readV ra) = true →
    s.readV ra ≠ 0x80000000 → s.readV rb = s.readV ra →
      exec (.lfoRange rd ra rb u) s = .next { s with v := s.v.set rd.toNat (s.readV ra) rd.isLt }

/-- R126, R127: `LFO.ADV`: the rate clamped to `[0, SR ⊗ 0.5]` (with `CLAMP`), the increment `(TWO_PI ⊗ r) ⊘ SR`, one
conditional subtraction, and the safety net. -/
def Obligations.LfoAdvAdvancesThePhase : Prop :=
  ∀ (u : UnitIdx) (s : State),
    encode (.lfoAdv u) = 0x15#8 ++ 0#16 ++ u ∧
    (s.lfo.length ≤ u.toNat → exec (.lfoAdv u) s = .next { s with status := s.status ||| 4#4 }) ∧
    (∀ l, s.lfo[u.toNat]? = some l →
      ∃ e : Nat → Word, (∀ k, F32.isNaN (e k) = true) ∧
        let r := F32.clamp l.rate 0x00000000 (F32.mul (e 0) s.sr 0x3F000000)
        let inc := F32.div (e 2) (F32.mul (e 1) 0x40C90FDB r) s.sr
        let p := F32.add (e 3) l.phase inc
        let p' := if F32.ge p 0x40C90FDB = true then F32.sub (e 4) p 0x40C90FDB else p
        exec (.lfoAdv u) s = .next { s with
          lfo := s.lfo.set u.toNat { l with
            phase := if F32.gt p' 0x40C90FDA = true ∨ F32.isNaN p' = true ∨ F32.lt p' 0 = true then 0 else p' }
          status := if r ≠ l.rate then s.status ||| 2#4 else s.status })

/-- R127's corner case: with rate `+0`, a positive finite `SR` and a phase of the invariant's range other than `−0`,
`LFO.ADV` changes nothing at all. -/
def Obligations.LfoAdvAtRateZeroChangesNothing : Prop :=
  ∀ (u : UnitIdx) (s : State) (l : LfoUnit),
    s.lfo[u.toNat]? = some l → l.rate = 0x00000000 → l.legal = true → l.phase ≠ 0x80000000 →
    F32.lt 0 s.sr = true → F32.isFinite s.sr = true →
      exec (.lfoAdv u) s = .next s

/-! ## Delay line -/

/-- R142: `DLY.INIT`. `X` and `Y` read `+0` below the new `N` and as before at and above it. -/
def Obligations.DlyInitSizesAndClearsTheLine : Prop :=
  ∀ (u : UnitIdx) (s : State),
    encode (.dlyInit u) = 0x20#8 ++ 0#16 ++ u ∧
    (s.dly.length ≤ u.toNat → exec (.dlyInit u) s = .next { s with status := s.status ||| 4#4 }) ∧
    (∀ l, s.dly[u.toNat]? = some l →
      ∃ l' : DlyUnit,
        exec (.dlyInit u) s = .next { s with dly := s.dly.set u.toNat l' } ∧
        l'.n = l.size ∧ l'.w = 0 ∧ l'.sized = true ∧ l'.size = l.size ∧ l'.fb = l.fb ∧
        (∀ k, k < l.size → l'.x.read k = 0 ∧ l'.y.read k = 0) ∧
        (∀ k, l.size ≤ k → l'.x.read k = l.x.read k ∧ l'.y.read k = l.y.read k))

/-- R144: a process command on a line that is not sized writes `+0` to `v[rd]`, raises `UNINIT` and does nothing else. -/
def Obligations.UnsizedLineAnswersSilence : Prop :=
  ∀ (rd ra rb : Reg) (u : UnitIdx) (s : State) (l : DlyUnit),
    s.dly[u.toNat]? = some l → l.sized = false →
      exec (.dlyProci rd ra rb u) s =
        .next { s with v := s.v.set rd.toNat 0 rd.isLt, status := s.status ||| 1#4 } ∧
      exec (.dlyProcf rd ra rb u) s =
        .next { s with v := s.v.set rd.toNat 0 rd.isLt, status := s.status ||| 1#4 }

/-- R145, with R143's delay operand: `DLY.PROCI` on a sized line whose histories are in canonical form. It reads before
it writes; `X` and `Y` change in the slot the advanced cursor names and nowhere else. -/
def Obligations.DlyProciReadsThenWrites : Prop :=
  ∀ (rd ra rb : Reg) (u : UnitIdx) (s : State),
    encode (.dlyProci rd ra rb u) = 0x21#8 ++ rd ++ ra ++ rb ++ 0#4 ++ u ∧
    (s.dly.length ≤ u.toNat → exec (.dlyProci rd ra rb u) s = .next { s with status := s.status ||| 4#4 }) ∧
    (∀ l, s.dly[u.toNat]? = some l → l.sized = true → l.x.wf = true → l.y.wf = true →
      ∃ (e : Nat → Word) (l' : DlyUnit), (∀ k, F32.isNaN (e k) = true) ∧
        let d := F32.clamp (s.readV rb) 0 (F32.ofInt ((l.n : Int) - 1))
        let idx := (((l.w : Int) - F32.floor d) % (l.n : Int)).toNat
        let y := F32.add (e 1) (l.x.read idx) (F32.mul (e 0) l.fb (l.y.read idx))
        exec (.dlyProci rd ra rb u) s = .next { s with
          v := s.v.set rd.toNat y rd.isLt
          dly := s.dly.set u.toNat l'
          status := if d ≠ s.readV rb then s.status ||| 2#4 else s.status } ∧
        l'.w = (l.w + 1) % l.n ∧ l'.x.read l'.w = s.readV ra ∧ l'.y.read l'.w = y ∧
        (∀ k, k ≠ l'.w → l'.x.read k = l.x.read k ∧ l'.y.read k = l.y.read k) ∧
        l'.size = l.size ∧ l'.n = l.n ∧ l'.fb = l.fb ∧ l'.sized = l.sized)

/-- R147 and R148, with R143's delay operand: `DLY.PROCF` on a sized line whose histories are in canonical form. It
writes `x` before it reads the two taps of the input history, and stores its output in `Y`. -/
def Obligations.DlyProcfWritesThenInterpolates : Prop :=
  ∀ (rd ra rb : Reg) (u : UnitIdx) (s : State),
    encode (.dlyProcf rd ra rb u) = 0x22#8 ++ rd ++ ra ++ rb ++ 0#4 ++ u ∧
    (s.dly.length ≤ u.toNat → exec (.dlyProcf rd ra rb u) s = .next { s with status := s.status ||| 4#4 }) ∧
    (∀ l, s.dly[u.toNat]? = some l → l.sized = true → l.x.wf = true → l.y.wf = true →
      ∃ (e : Nat → Word) (l' : DlyUnit), (∀ k, F32.isNaN (e k) = true) ∧
        let d := F32.clamp (s.readV rb) 0 (F32.ofInt ((l.n : Int) - 1))
        let di := F32.floor d
        let fd := F32.sub (e 0) d (F32.ofInt di)
        let i0 := if F32.eq fd 0 = true then (((l'.w : Int) - di) % (l.n : Int)).toNat
          else (((l'.w : Int) - di - 1) % (l.n : Int)).toNat
        let frac := if F32.eq fd 0 = true then 0 else F32.sub (e 1) 0x3F800000 fd
        let y := F32.add (e 5) (F32.mul (e 3) (F32.sub (e 2) 0x3F800000 frac) (l'.x.read i0))
          (F32.mul (e 4) frac (l'.x.read ((i0 + 1) % l.n)))
        exec (.dlyProcf rd ra rb u) s = .next { s with
          v := s.v.set rd.toNat y rd.isLt
          dly := s.dly.set u.toNat l'
          status := if d ≠ s.readV rb then s.status ||| 2#4 else s.status } ∧
        l'.w = (l.w + 1) % l.n ∧ l'.x.read l'.w = s.readV ra ∧ l'.y.read l'.w = y ∧
        (∀ k, k ≠ l'.w → l'.x.read k = l.x.read k ∧ l'.y.read k = l.y.read k) ∧
        l'.size = l.size ∧ l'.n = l.n ∧ l'.fb = l.fb ∧ l'.sized = l.sized)

/-- R143: for every legal length and every request, also a NaN, `0 ≤ di ≤ N − 1`; `fd` is exactly the fraction of the
clamped delay, so `0 ≤ fd < 1`. -/
def Obligations.DelayOperandIsInRangeAndSplitExactly : Prop :=
  ∀ (n : Nat) (req nan : Word), 1 ≤ n → n ≤ 2 ^ 23 →
    0 ≤ delayWhole n req ∧ delayWhole n req ≤ (n : Int) - 1 ∧
    F32.isFinite (delayFrac nan n req) = true ∧
    F32.units (delayFrac nan n req) = F32.units (delayOf n req) - delayWhole n req * 2 ^ 149 ∧
    0 ≤ F32.units (delayFrac nan n req) ∧ F32.units (delayFrac nan n req) < 2 ^ 149

/-- R150: at an integer delay (`fd = 0`) with finite taps, `DLY.PROCF` writes the value of the tap `i0`, weight 1 for it and 0
for its neighbour: the tap itself bit for bit when it is no zero, and a zero when it is one (up to its sign). No smearing. -/
def Obligations.IntegerDelayIsNotSmeared : Prop :=
  ∀ (rd ra rb : Reg) (u : UnitIdx) (s : State) (l : DlyUnit),
    s.dly[u.toNat]? = some l → l.sized = true → l.legal s.params.dlyCap = true → s.params.dlyCap ≤ 2 ^ 23 →
    F32.units (delayOf l.n (s.readV rb)) = delayWhole l.n (s.readV rb) * 2 ^ 149 →
    let x' := l.x.write ((l.w + 1) % l.n) (s.readV ra)
    let i0 := ((((l.w + 1) % l.n : Nat) - delayWhole l.n (s.readV rb) : Int) % (l.n : Int)).toNat
    F32.isFinite (x'.read i0) = true → F32.isFinite (x'.read ((i0 + 1) % l.n)) = true →
      ∃ t, exec (.dlyProcf rd ra rb u) s = .next t ∧ F32.eq (t.readV rd) (x'.read i0) = true ∧
        (F32.isZero (x'.read i0) = false → t.readV rd = x'.read i0)

/-! ## Biquad -/

/-- R161, R162: `BIQ.SET` writes the seven coefficients of `Coef` and nothing else; for `AP2` alone `Q` is first clamped
to `[1, 1000]`, with `CLAMP` if that changes it, and the register keeps its value. -/
def Obligations.BiqSetRecomputesTheCoefficients : Prop :=
  ∀ (u : UnitIdx) (s : State),
    encode (.biqSet u) = 0x30#8 ++ 0#16 ++ u ∧
    (s.biq.length ≤ u.toNat → exec (.biqSet u) s = .next { s with status := s.status ||| 4#4 }) ∧
    (∀ b, s.biq[u.toNat]? = some b →
      let q := if b.type = .ap2 then F32.clamp b.q 0x3F800000 0x447A0000 else b.q
      exec (.biqSet u) s = .next { s with
        biq := s.biq.set u.toNat { b with
          sec := { b.sec with coeffs := coef s.params.coef b.type b.cutoff q b.gain s.sr } }
        status := if q ≠ b.q then s.status ||| 2#4 else s.status })

/-- R166, R168: for every `Coef` of the model, `c0 = 1` and `d0 = 0` for the eight topologies without gain, which ignore
the gain, and `c0 = g ⊖ 1`, `d0 = 1` for shelves and peak. -/
def Obligations.PostScaleOfEveryCoef : Prop :=
  ∀ (sel : CoefSel) (t : BiquadType) (fc q g fs : Word),
    (t ≠ .lsh → t ≠ .hsh → t ≠ .peak →
      (coef sel t fc q g fs).c0 = 0x3F800000 ∧ (coef sel t fc q g fs).d0 = 0 ∧
      ∀ g', coef sel t fc q g' fs = coef sel t fc q g fs) ∧
    (t = .lsh ∨ t = .hsh ∨ t = .peak →
      (∃ e, F32.isNaN e = true ∧ (coef sel t fc q g fs).c0 = F32.sub e g 0x3F800000) ∧
      (coef sel t fc q g fs).d0 = 0x3F800000)

/-- R169 to R180: the reference instantiation, topology by topology, as the spec writes it. -/
def Obligations.ReferenceCoefIsTheSpecsFormulas : Prop :=
  ∀ (fc q g fs : Word) (t : BiquadType), ∃ e : Nat → Word, (∀ k, F32.isNaN (e k) = true) ∧
    let th := F32.div (e 1) (F32.mul (e 0) 0x40C90FDB fc) fs
    let K := F32.tan (F32.div (e 3) (F32.mul (e 2) 0x40490FDB fc) fs)
    let K2 := F32.mul (e 4) K K
    let one : Word := 0x3F800000
    let two : Word := 0x40000000
    let half : Word := 0x3F000000
    let ga1 := F32.div (e 11) (F32.cos th) (F32.add (e 10) one (F32.sin th))
    let s2 := F32.mul (e 16) (F32.div (e 15) (F32.div (e 14) one q) two) (F32.sin th)
    let be2 := F32.mul (e 17) half (F32.div (e 8) (F32.sub (e 6) one s2) (F32.add (e 7) one s2))
    let ga2 := F32.mul (e 19) (F32.add (e 18) half be2) (F32.cos th)
    let de := F32.add (e 26) (F32.add (e 25) (F32.mul (e 24) K2 q) K) q
    let bmid := F32.div (e 30) (F32.mul (e 29) (F32.mul (e 27) two q) (F32.sub (e 28) K2 one)) de
    let bb1 := F32.div (e 33) (F32.add (e 32) (F32.sub (e 31) (F32.mul (e 24) K2 q) K) q) de
    let tb := F32.tan (F32.div (e 3) (F32.mul (e 2) 0x40490FDB (F32.div (e 5) fc q)) fs)
    let sh := fun be : Word =>
      let dsh := F32.mul (e 41) be (F32.tan (F32.div (e 40) th two))
      F32.div (e 8) (F32.sub (e 6) one dsh) (F32.add (e 7) one dsh)
    let C := coef .reference t fc q g fs
    match t with
    | .lp1 =>
      let a0 := F32.div (e 13) (F32.sub (e 12) one ga1) two
      C = { a0 := a0, a1 := a0, a2 := 0, b0 := F32.neg ga1, b1 := 0, c0 := one, d0 := 0 }
    | .hp1 =>
      let a0 := F32.div (e 13) (F32.add (e 12) one ga1) two
      C = { a0 := a0, a1 := F32.neg a0, a2 := 0, b0 := F32.neg ga1, b1 := 0, c0 := one, d0 := 0 }
    | .lp2 =>
      let a1 := F32.sub (e 22) (F32.add (e 18) half be2) ga2
      let a0 := F32.div (e 23) a1 two
      C = { a0 := a0, a1 := a1, a2 := a0, b0 := F32.neg (F32.mul (e 20) two ga2), b1 := F32.mul (e 21) two be2,
            c0 := one, d0 := 0 }
    | .hp2 =>
      let tt := F32.add (e 22) (F32.add (e 18) half be2) ga2
      let a0 := F32.div (e 23) tt two
      C = { a0 := a0, a1 := F32.neg tt, a2 := a0, b0 := F32.neg (F32.mul (e 20) two ga2), b1 := F32.mul (e 21) two be2,
            c0 := one, d0 := 0 }
    | .bp =>
      let a0 := F32.div (e 34) K de
      C = { a0 := a0, a1 := 0, a2 := F32.neg a0, b0 := bmid, b1 := bb1, c0 := one, d0 := 0 }
    | .notch =>
      let a0 := F32.div (e 36) (F32.mul (e 35) q (F32.add (e 34) K2 one)) de
      C = { a0 := a0, a1 := bmid, a2 := a0, b0 := bmid, b1 := bb1, c0 := one, d0 := 0 }
    | .ap1 =>
      let al := F32.div (e 8) (F32.sub (e 6) K one) (F32.add (e 7) K one)
      C = { a0 := al, a1 := one, a2 := 0, b0 := al, b1 := 0, c0 := one, d0 := 0 }
    | .ap2 =>
      let al := F32.div (e 8) (F32.sub (e 6) tb one) (F32.add (e 7) tb one)
      let a1 := F32.mul (e 38) (F32.neg (F32.cos th)) (F32.sub (e 37) one al)
      C = { a0 := F32.neg al, a1 := a1, a2 := one, b0 := a1, b1 := F32.neg al, c0 := one, d0 := 0 }
    | .lsh =>
      let ga := sh (F32.div (e 43) 0x40800000 (F32.add (e 42) one g))
      let a0 := F32.div (e 13) (F32.sub (e 12) one ga) two
      C = { a0 := a0, a1 := a0, a2 := 0, b0 := F32.neg ga, b1 := 0, c0 := F32.sub (e 39) g one, d0 := one }
    | .hsh =>
      let ga := sh (F32.div (e 43) (F32.add (e 42) one g) 0x40800000)
      let a0 := F32.div (e 13) (F32.add (e 12) one ga) two
      C = { a0 := a0, a1 := F32.neg a0, a2 := 0, b0 := F32.neg ga, b1 := 0, c0 := F32.sub (e 39) g one, d0 := one }
    | .peak =>
      let cc := if F32.ge g one = true then F32.div (e 8) (F32.sub (e 6) tb one) (F32.add (e 7) tb one)
        else F32.div (e 8) (F32.sub (e 6) tb g) (F32.add (e 7) tb g)
      let a0 := F32.div (e 45) (F32.add (e 44) one cc) two
      C = { a0 := a0, a1 := 0, a2 := F32.neg a0, b0 := F32.mul (e 47) (F32.neg (F32.cos th)) (F32.sub (e 46) one cc),
            b1 := F32.neg cc, c0 := F32.sub (e 39) g one, d0 := one }

/-- R181, R182: `BIQ.PROC` on one channel: the recurrence, the shift of that channel's cells, the post-scale; the other
channel's cells and the coefficients are not touched. -/
def Obligations.BiqProcRunsTheRecurrence : Prop :=
  ∀ (rd ra : Reg) (ch : Channel) (u : UnitIdx) (s : State),
    encode (.biqProc rd ra ch u) = 0x31#8 ++ rd ++ ra ++ 0#4 ++ ch.bit ++ 0#3 ++ u ∧
    (s.biq.length ≤ u.toNat → exec (.biqProc rd ra ch u) s = .next { s with status := s.status ||| 4#4 }) ∧
    (∀ b, s.biq[u.toNat]? = some b →
      ∃ e : Nat → Word, (∀ k, F32.isNaN (e k) = true) ∧
        let k := b.sec.coeffs
        let x := s.readV ra
        let h := match ch with | .left => b.sec.left | .right => b.sec.right
        let y := F32.sub (e 8) (F32.sub (e 6) (F32.add (e 4) (F32.add (e 2) (F32.mul (e 0) k.a0 x)
          (F32.mul (e 1) k.a1 h.x1)) (F32.mul (e 3) k.a2 h.x2)) (F32.mul (e 5) k.b0 h.y1)) (F32.mul (e 7) k.b1 h.y2)
        let out := F32.add (e 11) (F32.mul (e 9) k.c0 y) (F32.mul (e 10) k.d0 x)
        let h' : Cells := { x1 := x, x2 := h.x1, y1 := y, y2 := h.y1 }
        exec (.biqProc rd ra ch u) s = .next { s with
          v := s.v.set rd.toNat out rd.isLt
          biq := s.biq.set u.toNat { b with sec := match ch with
            | .left => { b.sec with left := h' }
            | .right => { b.sec with right := h' } } })

/-- R183: `BIQ.RST` clears the eight cells and nothing else. -/
def Obligations.BiqRstClearsTheCells : Prop :=
  ∀ (u : UnitIdx) (s : State),
    encode (.biqRst u) = 0x32#8 ++ 0#16 ++ u ∧
    (s.biq.length ≤ u.toNat → exec (.biqRst u) s = .next { s with status := s.status ||| 4#4 }) ∧
    (∀ b, s.biq[u.toNat]? = some b →
      exec (.biqRst u) s = .next { s with biq := s.biq.set u.toNat { b with sec :=
        { b.sec with left := { x1 := 0, x2 := 0, y1 := 0, y2 := 0 }
                     right := { x1 := 0, x2 := 0, y1 := 0, y2 := 0 } } } })

/-- R41: a biquad whose coefficients are all `+0`, as after reset, with finite cells of the channel, returns a zero for
finite input and a NaN for an infinite or NaN input. -/
def Obligations.UnsetBiquadReturnsZero : Prop :=
  ∀ (rd ra : Reg) (ch : Channel) (u : UnitIdx) (s : State) (b : BiqUnit),
    s.biq[u.toNat]? = some b → b.sec.coeffs = { a0 := 0, a1 := 0, a2 := 0, b0 := 0, b1 := 0, c0 := 0, d0 := 0 } →
    F32.isFinite (b.sec.cells ch).x1 = true → F32.isFinite (b.sec.cells ch).x2 = true →
    F32.isFinite (b.sec.cells ch).y1 = true → F32.isFinite (b.sec.cells ch).y2 = true →
      ∃ t, exec (.biqProc rd ra ch u) s = .next t ∧
        (F32.isFinite (s.readV ra) = true → F32.isZero (t.readV rd) = true) ∧
        (F32.isFinite (s.readV ra) = false → F32.isNaN (t.readV rd) = true)

/-- R40: the two channels of a biquad are independent: whatever stands in the other channel's cells, `BIQ.PROC` writes the
same output and the same cells of its own channel, and leaves the other channel's cells as they were. -/
def Obligations.ChannelsAreIndependent : Prop :=
  ∀ (rd ra : Reg) (u : UnitIdx) (s : State) (b : BiqUnit) (ch other : Channel) (h : Cells),
    s.biq[u.toNat]? = some b → ch ≠ other →
      ∃ t t', exec (.biqProc rd ra ch u) s = .next t ∧
        exec (.biqProc rd ra ch u)
          { s with biq := s.biq.set u.toNat { b with sec := b.sec.setCells other h } } = .next t' ∧
        t.readV rd = t'.readV rd ∧
        ∃ c c', t.biq[u.toNat]? = some c ∧ t'.biq[u.toNat]? = some c' ∧
          c.sec.cells ch = c'.sec.cells ch ∧ c.sec.coeffs = c'.sec.coeffs ∧
          c.sec.cells other = b.sec.cells other ∧ c'.sec.cells other = h

/-! ## Allpass cascade -/

/-- R201: `APC.SET` gives every active stage the `AP2` coefficients of its frequency and the cascade's `Q`; inactive stages
and all cells keep what they had. -/
def Obligations.ApcSetRecomputesTheActiveStages : Prop :=
  ∀ (a : UnitIdx) (s : State),
    encode (.apcSet a) = 0x40#8 ++ 0#16 ++ a ∧
    (s.apc.length ≤ a.toNat → exec (.apcSet a) s = .next { s with status := s.status ||| 4#4 }) ∧
    (∀ c, s.apc[a.toNat]? = some c →
      ∃ c' : ApcUnit, exec (.apcSet a) s = .next { s with apc := s.apc.set a.toNat c' } ∧
        c'.active = c.active ∧ c'.q = c.q ∧ c'.stages.length = c.stages.length ∧
        ∀ k st, c.stages[k]? = some st → c'.stages[k]? = some (
          if k < c.active then
            { st with sec := { st.sec with coeffs := coef s.params.coef .ap2 st.freq c.q 0 s.sr } }
          else st))

/-- R203, R204: `APC.PROC` on a cascade whose active count does not exceed its stages: a signal runs through the active
stages in order, each a `BiquadStep` on its own coefficients and cells; the last active stage's output is the result;
stages at and above `ACTIVE`, and the other channel, are left untouched, and a write to `ACTIVE` clears nothing. -/
def Obligations.ApcProcChainsTheActiveStages : Prop :=
  ∀ (rd ra : Reg) (ch : Channel) (a : UnitIdx) (s : State),
    encode (.apcProc rd ra ch a) = 0x41#8 ++ rd ++ ra ++ 0#4 ++ ch.bit ++ 0#3 ++ a ∧
    (s.apc.length ≤ a.toNat → exec (.apcProc rd ra ch a) s = .next { s with status := s.status ||| 4#4 }) ∧
    (∀ c, s.apc[a.toNat]? = some c → c.active ≤ c.stages.length →
      ∃ (e : Nat → Nat → Word) (sig : Nat → Word) (stages' : List Stage), (∀ k j, F32.isNaN (e k j) = true) ∧
        sig 0 = s.readV ra ∧ stages'.length = c.stages.length ∧
        (∀ k st, c.stages[k]? = some st → c.active ≤ k → stages'[k]? = some st) ∧
        (∀ k st, c.stages[k]? = some st → k < c.active →
          sig (k + 1) = (biquadStep (e k) st.sec.coeffs (st.sec.cells ch) (sig k)).1 ∧
          stages'[k]? = some { st with
            sec := st.sec.setCells ch (biquadStep (e k) st.sec.coeffs (st.sec.cells ch) (sig k)).2 }) ∧
        exec (.apcProc rd ra ch a) s = .next { s with
          v := s.v.set rd.toNat (sig c.active) rd.isLt
          apc := s.apc.set a.toNat { c with stages := stages' } }) ∧
    (∀ c, s.apc[a.toNat]? = some c → ∀ addr d t, region addr = .apc a.toNat .active →
      transact (.wr addr d) s = .next t → ∃ c', t.apc[a.toNat]? = some c' ∧ c'.stages = c.stages)

/-- R205: `APC.RST` clears the eight cells of every stage, active or not, and nothing else. -/
def Obligations.ApcRstClearsEveryStage : Prop :=
  ∀ (a : UnitIdx) (s : State),
    encode (.apcRst a) = 0x42#8 ++ 0#16 ++ a ∧
    (s.apc.length ≤ a.toNat → exec (.apcRst a) s = .next { s with status := s.status ||| 4#4 }) ∧
    (∀ c, s.apc[a.toNat]? = some c →
      ∃ stages' : List Stage, stages'.length = c.stages.length ∧
        (∀ (k : Nat) (st : Stage), c.stages[k]? = some st → stages'[k]? = some { st with sec :=
          { st.sec with left := { x1 := 0, x2 := 0, y1 := 0, y2 := 0 }
                        right := { x1 := 0, x2 := 0, y1 := 0, y2 := 0 } } }) ∧
        exec (.apcRst a) s = .next { s with apc := s.apc.set a.toNat { c with stages := stages' } })

/-! ## Mixer -/

/-- R221, R222: `MIX.WD`: the blend, multiplied by the reciprocal of `s = MIX_WET ⊕ MIX_DRY` only when `s > 1` (so never
when `s` is 1, less, or a NaN); a nonzero `unit`, `ch` or `z` makes the word illegal. -/
def Obligations.MixWdRenormalisesAboveOne : Prop :=
  ∀ (rd ra rb : Reg) (s : State),
    encode (.mixWd rd ra rb) = 0x50#8 ++ rd ++ ra ++ rb ++ 0#12 ∧
    (∀ z : BitVec 12, z ≠ 0 →
      execute (0x50#8 ++ rd ++ ra ++ rb ++ z) s = .next { s with status := s.status ||| 4#4 }) ∧
    ∃ e : Nat → Word, (∀ k, F32.isNaN (e k) = true) ∧
      let o := F32.add (e 2) (F32.mul (e 0) s.mixDry (s.readV ra)) (F32.mul (e 1) s.mixWet (s.readV rb))
      let sum := F32.add (e 3) s.mixWet s.mixDry
      exec (.mixWd rd ra rb) s =
        if F32.gt sum 0x3F800000 = true then
          .next { s with v := s.v.set rd.toNat (F32.mul (e 5) o (F32.div (e 4) 0x3F800000 sum)) rd.isLt }
        else .next { s with v := s.v.set rd.toNat o rd.isLt }

/-- R223: `MIX.INT`; a nonzero `unit`, `ch` or `z` makes the word illegal. -/
def Obligations.MixIntBlendsByIntensity : Prop :=
  ∀ (rd ra rb : Reg) (s : State),
    encode (.mixInt rd ra rb) = 0x51#8 ++ rd ++ ra ++ rb ++ 0#12 ∧
    (∀ z : BitVec 12, z ≠ 0 →
      execute (0x51#8 ++ rd ++ ra ++ rb ++ z) s = .next { s with status := s.status ||| 4#4 }) ∧
    ∃ e : Nat → Word, (∀ k, F32.isNaN (e k) = true) ∧
      let h := F32.div (e 0) s.mixInt 0x40000000
      exec (.mixInt rd ra rb) s = .next { s with
        v := s.v.set rd.toNat (F32.add (e 4) (F32.mul (e 2) (F32.sub (e 1) 0x3F800000 h) (s.readV ra))
          (F32.mul (e 3) h (s.readV rb))) rd.isLt }

/-- R225: `MIX.FB`; a nonzero `unit`, `ch` or `z` makes the word illegal. -/
def Obligations.MixFbAddsTheFeedback : Prop :=
  ∀ (rd ra rb : Reg) (s : State),
    encode (.mixFb rd ra rb) = 0x52#8 ++ rd ++ ra ++ rb ++ 0#12 ∧
    (∀ z : BitVec 12, z ≠ 0 →
      execute (0x52#8 ++ rd ++ ra ++ rb ++ z) s = .next { s with status := s.status ||| 4#4 }) ∧
    ∃ e : Nat → Word, (∀ k, F32.isNaN (e k) = true) ∧
      exec (.mixFb rd ra rb) s = .next { s with
        v := s.v.set rd.toNat (F32.add (e 1) (s.readV ra) (F32.mul (e 0) s.mixFb (s.readV rb))) rd.isLt }

/-- R227, R228, R229: `MS.L` and `MS.R`; a nonzero `unit`, `ch` or `z` makes the word illegal. -/
def Obligations.MidSideOutputs : Prop :=
  ∀ (rd ra rb : Reg) (s : State),
    encode (.msL rd ra rb) = 0x53#8 ++ rd ++ ra ++ rb ++ 0#12 ∧
    encode (.msR rd ra rb) = 0x54#8 ++ rd ++ ra ++ rb ++ 0#12 ∧
    (∀ z : BitVec 12, z ≠ 0 →
      execute (0x53#8 ++ rd ++ ra ++ rb ++ z) s = .next { s with status := s.status ||| 4#4 } ∧
      execute (0x54#8 ++ rd ++ ra ++ rb ++ z) s = .next { s with status := s.status ||| 4#4 }) ∧
    ∃ e : Nat → Word, (∀ k, F32.isNaN (e k) = true) ∧
      let mid := F32.div (e 1) (F32.add (e 0) (s.readV ra) (s.readV rb)) 0x40000000
      let side := F32.div (e 3) (F32.sub (e 2) (s.readV ra) (s.readV rb)) 0x40000000
      exec (.msL rd ra rb) s = .next { s with
        v := s.v.set rd.toNat (F32.add (e 6) (F32.mul (e 4) mid s.msMid) (F32.mul (e 5) side s.msSide)) rd.isLt } ∧
      exec (.msR rd ra rb) s = .next { s with
        v := s.v.set rd.toNat (F32.sub (e 6) (F32.mul (e 4) mid s.msMid) (F32.mul (e 5) side s.msSide)) rd.isLt }

/-- R230: with `MS_MID = 1`, `MS_SIDE = 0` both outputs have the value `mid`, and with `MS_MID = 0`, `MS_SIDE = 1` those of
`side` and its negative, for finite `mid` and `side`; they are it bit for bit when it is no zero, whatever the other is.
With `MS_MID = MS_SIDE = 1` the outputs have the values of `L` and `R`, bit for bit those that are no zero, when `mid` and
`side` are exactly `(L + R) / 2` and `(L − R) / 2`. R230 asks that the sum and the difference be exact, which is not enough
where one of them is an odd number of the smallest subnormals, so that its half is rounded. -/
def Obligations.MidSideRoundTrip : Prop :=
  ∀ (rd ra rb : Reg) (s : State) (nan : Word),
    let mid := F32.div nan (F32.add nan (s.readV ra) (s.readV rb)) 0x40000000
    let side := F32.div nan (F32.sub nan (s.readV ra) (s.readV rb)) 0x40000000
    F32.isNaN nan = true → F32.isFinite mid = true → F32.isFinite side = true →
    (s.msMid = 0x3F800000 → s.msSide = 0 →
      ∃ l r : Word, exec (.msL rd ra rb) s = .next { s with v := s.v.set rd.toNat l rd.isLt } ∧
        exec (.msR rd ra rb) s = .next { s with v := s.v.set rd.toNat r rd.isLt } ∧
        F32.eq l mid = true ∧ F32.eq r mid = true ∧ (F32.isZero mid = false → l = mid ∧ r = mid)) ∧
    (s.msMid = 0 → s.msSide = 0x3F800000 →
      ∃ l r : Word, exec (.msL rd ra rb) s = .next { s with v := s.v.set rd.toNat l rd.isLt } ∧
        exec (.msR rd ra rb) s = .next { s with v := s.v.set rd.toNat r rd.isLt } ∧
        F32.eq l side = true ∧ F32.eq r (F32.neg side) = true ∧
        (F32.isZero side = false → l = side ∧ r = F32.neg side)) ∧
    (s.msMid = 0x3F800000 → s.msSide = 0x3F800000 →
      2 * F32.units mid = F32.units (s.readV ra) + F32.units (s.readV rb) →
      2 * F32.units side = F32.units (s.readV ra) - F32.units (s.readV rb) →
      ∃ l r : Word, exec (.msL rd ra rb) s = .next { s with v := s.v.set rd.toNat l rd.isLt } ∧
        exec (.msR rd ra rb) s = .next { s with v := s.v.set rd.toNat r rd.isLt } ∧
        F32.eq l (s.readV ra) = true ∧ F32.eq r (s.readV rb) = true ∧
        (F32.isZero (s.readV ra) = false → l = s.readV ra) ∧ (F32.isZero (s.readV rb) = false → r = s.readV rb))

/-! ## The port -/

/-- R61: the address map. Every address of a region names the register of its table, every other address is reserved, and
an address of a unit that does not exist answers a read as a reserved address does. -/
def Obligations.AddressMapIsTheTableOfRegions : Prop :=
  region 0x0000 = .cmd ∧ region 0x0001 = .status ∧ region 0x0002 = .sr ∧ region 0x0003 = .seed ∧
  region 0x0008 = .mixer .wet ∧ region 0x0009 = .mixer .dry ∧ region 0x000A = .mixer .int ∧
  region 0x000B = .mixer .fb ∧ region 0x000C = .mixer .mid ∧ region 0x000D = .mixer .side ∧
  (∀ i : Reg, region (BitVec.ofNat 16 (0x0010 + i.toNat)) = .sample i) ∧
  (∀ u j, u < 256 → j < 4 → region (BitVec.ofNat 16 (0x0100 + 4 * u + j)) =
    match j with
    | 0 => .lfo u .phase
    | 1 => .lfo u .rate
    | _ => .reserved) ∧
  (∀ u j, u < 256 → j < 32 → region (BitVec.ofNat 16 (0x1000 + 32 * u + j)) =
    match j with
    | 0 => .biq u .type
    | 1 => .biq u .cutoff
    | 2 => .biq u .q
    | 3 => .biq u .gain
    | 4 => .biq u (.coef .a0)
    | 5 => .biq u (.coef .a1)
    | 6 => .biq u (.coef .a2)
    | 7 => .biq u (.coef .b0)
    | 8 => .biq u (.coef .b1)
    | 9 => .biq u (.coef .c0)
    | 10 => .biq u (.coef .d0)
    | 16 => .biq u (.cell .left .x1)
    | 17 => .biq u (.cell .left .x2)
    | 18 => .biq u (.cell .left .y1)
    | 19 => .biq u (.cell .left .y2)
    | 20 => .biq u (.cell .right .x1)
    | 21 => .biq u (.cell .right .x2)
    | 22 => .biq u (.cell .right .y1)
    | 23 => .biq u (.cell .right .y2)
    | _ => .reserved) ∧
  (∀ u j, u < 256 → j < 8 → region (BitVec.ofNat 16 (0x3000 + 8 * u + j)) =
    match j with
    | 0 => .dly u .size
    | 1 => .dly u .n
    | 2 => .dly u .w
    | 3 => .dly u .fb
    | 4 => .dly u .sized
    | _ => .reserved) ∧
  (∀ a, a < 4 → region (BitVec.ofNat 16 (0x4000 + 0x2000 * a)) = .apc a .active ∧
    region (BitVec.ofNat 16 (0x4000 + 0x2000 * a + 1)) = .apc a .q) ∧
  (∀ a k, a < 4 → k < 256 → region (BitVec.ofNat 16 (0x4000 + 0x2000 * a + 0x0100 + k)) = .apc a (.freq k)) ∧
  (∀ a k j, a < 4 → k < 256 → j < 8 → region (BitVec.ofNat 16 (0x4000 + 0x2000 * a + 0x0800 + 8 * k + j)) =
    match j with
    | 0 => .apc a (.coef k .a0)
    | 1 => .apc a (.coef k .a1)
    | 2 => .apc a (.coef k .a2)
    | 3 => .apc a (.coef k .b0)
    | 4 => .apc a (.coef k .b1)
    | 5 => .apc a (.coef k .c0)
    | 6 => .apc a (.coef k .d0)
    | _ => .reserved) ∧
  (∀ a k j, a < 4 → k < 256 → j < 8 → region (BitVec.ofNat 16 (0x4000 + 0x2000 * a + 0x1000 + 8 * k + j)) =
    match j with
    | 0 => .apc a (.cell k .left .x1)
    | 1 => .apc a (.cell k .left .x2)
    | 2 => .apc a (.cell k .left .y1)
    | 3 => .apc a (.cell k .left .y2)
    | 4 => .apc a (.cell k .right .x1)
    | 5 => .apc a (.cell k .right .x2)
    | 6 => .apc a (.cell k .right .y1)
    | _ => .apc a (.cell k .right .y2)) ∧
  (∀ a o, a < 4 → o < 0x2000 → (2 ≤ o ∧ o < 0x0100) ∨ (0x0200 ≤ o ∧ o < 0x0800) ∨ 0x1800 ≤ o →
    region (BitVec.ofNat 16 (0x4000 + 0x2000 * a + o)) = .reserved) ∧
  (∀ n, (0x0004 ≤ n ∧ n < 0x0008) ∨ (0x000E ≤ n ∧ n < 0x0010) ∨ (0x0020 ≤ n ∧ n < 0x0100) ∨
      (0x0500 ≤ n ∧ n < 0x1000) ∨ (0x3800 ≤ n ∧ n < 0x4000) ∨ (0xC000 ≤ n ∧ n < 0x10000) →
    region (BitVec.ofNat 16 n) = .reserved) ∧
  (∀ s : State, s.readReg .reserved = none ∧
    (∀ u r, s.lfo.length ≤ u → s.readReg (.lfo u r) = none) ∧ (∀ u r, s.dly.length ≤ u → s.readReg (.dly u r) = none) ∧
    (∀ u r, s.biq.length ≤ u → s.readReg (.biq u r) = none) ∧ (∀ a r, s.apc.length ≤ a → s.readReg (.apc a r) = none))

/-- What reads of the seven coefficients and the eight cells of a section answer (R102). -/
def sectionReads (b : Section) (coef : CoefReg → Option Word) (cell : Channel → CellReg → Option Word) : Prop :=
  coef .a0 = some b.coeffs.a0 ∧ coef .a1 = some b.coeffs.a1 ∧ coef .a2 = some b.coeffs.a2 ∧ coef .b0 = some b.coeffs.b0 ∧
  coef .b1 = some b.coeffs.b1 ∧ coef .c0 = some b.coeffs.c0 ∧ coef .d0 = some b.coeffs.d0 ∧
  cell .left .x1 = some b.left.x1 ∧ cell .left .x2 = some b.left.x2 ∧ cell .left .y1 = some b.left.y1 ∧
  cell .left .y2 = some b.left.y2 ∧ cell .right .x1 = some b.right.x1 ∧ cell .right .x2 = some b.right.x2 ∧
  cell .right .y1 = some b.right.y1 ∧ cell .right .y2 = some b.right.y2

/-- R65, R102, R103: a read of a mapped register returns its word and changes nothing; any other read returns 0 and sets
`ILLADDR`, and that is all. The word of every register: `CMD` 0, `STATUS` its four bits, an unsigned register its value, a
numeric one the 32 bits it holds, `SIZED` 1 or 0. -/
def Obligations.ReadsHaveNoSideEffects : Prop :=
  (∀ (addr : Addr) (s : State),
    (∀ w, s.readReg (region addr) = some w → transact (.rd addr) s = .next { s with reply := some w }) ∧
    (s.readReg (region addr) = none →
      transact (.rd addr) s = .next { s with reply := some 0, status := s.status ||| 8#4 })) ∧
  (∀ s : State,
    transact (.rd 0x0000) s = .next { s with reply := some 0 } ∧
    transact (.rd 0x0001) s = .next { s with reply := some (0#28 ++ s.status) } ∧
    transact (.rd 0x0002) s = .next { s with reply := some s.sr } ∧
    transact (.rd 0x0003) s = .next { s with reply := some s.seed } ∧
    transact (.rd 0x0008) s = .next { s with reply := some s.mixWet } ∧
    transact (.rd 0x0009) s = .next { s with reply := some s.mixDry } ∧
    transact (.rd 0x000A) s = .next { s with reply := some s.mixInt } ∧
    transact (.rd 0x000B) s = .next { s with reply := some s.mixFb } ∧
    transact (.rd 0x000C) s = .next { s with reply := some s.msMid } ∧
    transact (.rd 0x000D) s = .next { s with reply := some s.msSide } ∧
    (∀ i, s.readReg (.sample i) = some (s.v[i.toNat]'i.isLt)) ∧
    (∀ (u : Nat) (l : LfoUnit), s.lfo[u]? = some l →
      s.readReg (.lfo u .phase) = some l.phase ∧ s.readReg (.lfo u .rate) = some l.rate) ∧
    (∀ (u : Nat) (l : DlyUnit), s.dly[u]? = some l →
      s.readReg (.dly u .size) = some (BitVec.ofNat 32 l.size) ∧ s.readReg (.dly u .n) = some (BitVec.ofNat 32 l.n) ∧
      s.readReg (.dly u .w) = some (BitVec.ofNat 32 l.w) ∧ s.readReg (.dly u .fb) = some l.fb ∧
      s.readReg (.dly u .sized) = some (if l.sized = true then 1 else 0)) ∧
    (∀ (u : Nat) (b : BiqUnit), s.biq[u]? = some b →
      (s.readReg (.biq u .type) = some (match b.type with
        | .lp1 => 0 | .lp2 => 1 | .hp1 => 2 | .hp2 => 3 | .bp => 4 | .notch => 5 | .ap1 => 6 | .ap2 => 7 | .lsh => 8
        | .hsh => 9 | .peak => 10)) ∧
      s.readReg (.biq u .cutoff) = some b.cutoff ∧ s.readReg (.biq u .q) = some b.q ∧
      s.readReg (.biq u .gain) = some b.gain ∧
      sectionReads b.sec (fun r => s.readReg (.biq u (.coef r))) (fun ch r => s.readReg (.biq u (.cell ch r)))) ∧
    (∀ (a : Nat) (c : ApcUnit), s.apc[a]? = some c →
      s.readReg (.apc a .active) = some (BitVec.ofNat 32 c.active) ∧ s.readReg (.apc a .q) = some c.q ∧
      ∀ (k : Nat) (st : Stage), c.stages[k]? = some st →
        s.readReg (.apc a (.freq k)) = some st.freq ∧
        sectionReads st.sec (fun r => s.readReg (.apc a (.coef k r))) (fun ch r => s.readReg (.apc a (.cell k ch r)))))

/-- R103: a bad access: a read or write of a reserved address or of a unit or stage that does not exist, or a write to a
read-only register. The write stores nothing, the read returns 0, both set `ILLADDR` and change nothing else. -/
def Obligations.BadAccessesOnlySetIlladdr : Prop :=
  (∀ (addr : Addr) (d : Word) (s : State),
    (s.readReg (region addr) = none ∨
      ∃ u, region addr = .dly u .n ∨ region addr = .dly u .w ∨ region addr = .dly u .sized) →
      transact (.wr addr d) s = .next { s with status := s.status ||| 8#4 }) ∧
  (∀ (addr : Addr) (s : State), s.readReg (region addr) = none →
      transact (.rd addr) s = .next { s with reply := some 0, status := s.status ||| 8#4 }) ∧
  (∀ (s : State) (a k : Nat) (c : ApcUnit), s.apc[a]? = some c → c.stages.length ≤ k →
    s.readReg (.apc a (.freq k)) = none ∧ (∀ r, s.readReg (.apc a (.coef k r)) = none) ∧
      ∀ ch r, s.readReg (.apc a (.cell k ch r)) = none)

/-- The registers that store the word written and do nothing else (R66): no clamp, no side effect. -/
def plainRegister : Region → Bool
  | .sample _ => true
  | .mixer r => r != .int
  | .lfo _ r => r == .rate
  | .biq _ .gain => true
  | .biq _ (.coef _) => true
  | .biq _ (.cell _ _) => true
  | .apc _ (.coef _ _) => true
  | .apc _ (.cell _ _ _) => true
  | _ => false

/-- R20, R29, R30, R38, R42, R66: a plain register reads back bit for bit as what was last written to it, with no flag
raised and every other register as it was; what no register shows stays too: the draw counter and the delay lines with
their histories, the parameters, and the model's own fields. -/
def Obligations.PlainRegistersReadBackWhatWasWritten : Prop :=
  ∀ (addr : Addr) (d : Word) (s : State),
    plainRegister (region addr) = true → (s.readReg (region addr)).isSome = true →
      ∃ t, transact (.wr addr d) s = .next t ∧ t.readReg (region addr) = some d ∧
        (∀ r, r ≠ region addr → t.readReg r = s.readReg r) ∧
        t.rngN = s.rngN ∧ t.dly = s.dly ∧ t.params = s.params ∧ t.host = s.host ∧ t.reply = s.reply ∧ t.txn = s.txn ∧
        t.lfo.length = s.lfo.length ∧ t.biq.length = s.biq.length ∧
        t.apc.map (fun c => c.stages.length) = s.apc.map (fun c => c.stages.length)

/-- R104: what each clamping register stores: the nearest legal value, a NaN stores the lower bound, a reserved `TYPE` is
ignored; `CLAMP` is set exactly when the stored value is not the value written. Nothing else changes (but for `SR`, which
also unsizes every delay line). -/
def Obligations.ClampingRegistersStoreTheClampedValue : Prop :=
  ∀ (addr : Addr) (d : Word) (s : State),
    let flag := fun changed : Bool => if changed then s.status ||| 2#4 else s.status
    (region addr = .sr →
      let v := F32.clamp d s.params.srMin s.params.srMax
      transact (.wr addr d) s = .next { s with
        sr := v, dly := s.dly.map (fun l => { l with sized := false }), status := flag (v != d) }) ∧
    (region addr = .mixer .int →
      let v := F32.clamp d 0 0x3F800000
      transact (.wr addr d) s = .next { s with mixInt := v, status := flag (v != d) }) ∧
    (∀ u l, region addr = .lfo u .phase → s.lfo[u]? = some l →
      let v := F32.clamp d 0 0x40C90FDA
      transact (.wr addr d) s = .next { s with lfo := s.lfo.set u { l with phase := v }, status := flag (v != d) }) ∧
    (∀ u l, region addr = .dly u .size → s.dly[u]? = some l →
      let v := min (max d.toNat 1) s.params.dlyCap
      transact (.wr addr d) s = .next { s with dly := s.dly.set u { l with size := v }, status := flag (v != d.toNat) }) ∧
    (∀ u l, region addr = .dly u .fb → s.dly[u]? = some l →
      let v := F32.clamp d 0 0x3F800000
      transact (.wr addr d) s = .next { s with dly := s.dly.set u { l with fb := v }, status := flag (v != d) }) ∧
    (∀ u b, region addr = .biq u .type → s.biq[u]? = some b →
      (10 < d.toNat → transact (.wr addr d) s = .next { s with status := s.status ||| 2#4 }) ∧
      (d.toNat ≤ 10 → ∃ t, typeNumber t = d.toNat ∧
        transact (.wr addr d) s = .next { s with biq := s.biq.set u { b with type := t } })) ∧
    (∀ u b, region addr = .biq u .cutoff → s.biq[u]? = some b →
      let v := F32.clamp d 0x41A00000 0x469C4000
      transact (.wr addr d) s = .next { s with biq := s.biq.set u { b with cutoff := v }, status := flag (v != d) }) ∧
    (∀ u b, region addr = .biq u .q → s.biq[u]? = some b →
      let v := F32.clampLo d 0x3F000000
      transact (.wr addr d) s = .next { s with biq := s.biq.set u { b with q := v }, status := flag (v != d) }) ∧
    (∀ a c, region addr = .apc a .active → s.apc[a]? = some c →
      let v := min (max d.toNat 1) c.stages.length
      transact (.wr addr d) s = .next { s with apc := s.apc.set a { c with active := v }, status := flag (v != d.toNat) }) ∧
    (∀ a c, region addr = .apc a .q → s.apc[a]? = some c →
      let v := F32.clamp d 0x3F800000 0x447A0000
      transact (.wr addr d) s = .next { s with apc := s.apc.set a { c with q := v }, status := flag (v != d) }) ∧
    (∀ a c k st, region addr = .apc a (.freq k) → s.apc[a]? = some c → c.stages[k]? = some st →
      let v := F32.clamp d s.params.apcFmin 0x466A6000
      transact (.wr addr d) s = .next { s with
        apc := s.apc.set a { c with stages := c.stages.set k { st with freq := v } }, status := flag (v != d) })

/-- R25, R27, R28, R37, R263, R284: the writes with side effects. `STATUS` clears the flags written as 1; `SR` clamps and clears
every `sized`, moving no phase, coefficient or history; `SEED` zeroes the draw counter. -/
def Obligations.ControlRegisterWrites : Prop :=
  ∀ (d : Word) (s : State),
    transact (.wr 0x0001 d) s = .next { s with status := s.status &&& ~~~(d.setWidth 4) } ∧
    transact (.wr 0x0002 d) s = .next { s with
      sr := F32.clamp d s.params.srMin s.params.srMax
      dly := s.dly.map (fun l => { l with sized := false })
      status := if F32.clamp d s.params.srMin s.params.srMax ≠ d then s.status ||| 2#4 else s.status } ∧
    transact (.wr 0x0003 d) s = .next { s with seed := d, rngN := 0 }

/-! ## Reset -/

/-- R47: the reset values, for every configuration. -/
def Obligations.ResetValues : Prop :=
  ∀ (c : Cfg),
    let s := State.resetOf c
    (∀ i, s.readV i = 0) ∧ s.status = 0 ∧ s.sr = c.params.srMin ∧ s.seed = 0 ∧ s.rngN = 0 ∧
    s.mixWet = 0 ∧ s.mixDry = 0 ∧ s.mixInt = 0 ∧ s.mixFb = 0 ∧ s.msMid = 0 ∧ s.msSide = 0 ∧
    s.lfo.length = c.sizes.nLfo ∧ (∀ l ∈ s.lfo, l.phase = 0 ∧ l.rate = 0) ∧
    s.dly.length = c.sizes.nDly ∧
    (∀ l ∈ s.dly, l.size = 1 ∧ l.n = 0 ∧ l.w = 0 ∧ l.fb = 0 ∧ l.sized = false) ∧
    s.biq.length = c.sizes.nBiq ∧
    (∀ b ∈ s.biq, typeNumber b.type = 0 ∧ b.cutoff = 0x41A00000 ∧ b.q = 0x3F000000 ∧ b.gain = 0 ∧
      (∀ r, b.sec.coeffs.get r = 0) ∧ (∀ ch r, (b.sec.cells ch).get r = 0)) ∧
    s.apc.length = c.sizes.nApc ∧
    (∀ a ∈ s.apc, a.active = 1 ∧ a.q = 0x3F800000 ∧ a.stages.length = c.sizes.apcNStage ∧
      ∀ st ∈ a.stages, st.freq = c.params.apcFmin ∧ (∀ r, st.sec.coeffs.get r = 0) ∧
        (∀ ch r, (st.sec.cells ch).get r = 0))

/-- R8, R47: every legal configuration resets to a legal state, and the machine's own reset state is one of them. -/
def Obligations.ResetIsLegal : Prop :=
  (∀ c : Cfg, legalCfg c = true → (State.resetOf c).legal = true) ∧
  legalCfg Cfg.default = true ∧ State.reset = State.resetOf Cfg.default

/-! ## Invariants and whole-machine rules -/

/-- Every step keeps a legal state legal: sizes and parameters in range, `SR`, `MIX_INT`, phases, line sizes, cursors and
feedback gains, histories in canonical form, cutoffs, quality factors, active counts and stage frequencies all within the
ranges of 10_state.md. -/
def Obligations.EveryStepKeepsTheStateLegal : Prop :=
  ∀ s t : State, s.legal = true → step s = .next t → t.legal = true

/-- R31: `0 ≤ phase ≤ PHASE_MAX` for every LFO after every transaction, from any state in which it holds, whatever the rest
of that state. -/
def Obligations.EveryTransactionKeepsThePhaseInvariant : Prop :=
  (∀ c : Cfg, (State.resetOf c).lfo.all LfoUnit.legal = true) ∧
  ∀ (x : Txn) (s t : State), s.lfo.all LfoUnit.legal = true → transact x s = .next t →
    t.lfo.all LfoUnit.legal = true

/-- R46: no transaction changes the implementation parameters or the number of units or stages. -/
def Obligations.ParametersAndCountsAreFixed : Prop :=
  ∀ s t : State, step s = .next t →
    t.params = s.params ∧ t.lfo.length = s.lfo.length ∧ t.dly.length = s.dly.length ∧
    t.biq.length = s.biq.length ∧ t.apc.map (fun c => c.stages.length) = s.apc.map (fun c => c.stages.length)

/-- R274: the flags change no data result and no later behaviour: from two states that differ in the flags only, every
transaction but a read of `STATUS` leads to two states that differ in the flags only. -/
def Obligations.FlagsNeverChangeData : Prop :=
  ∀ (x : Txn) (s : State) (f : BitVec 4), x ≠ .rd 0x0001 →
    ∃ t t', transact x s = .next t ∧ transact x { s with status := f } = .next t' ∧ t.sameData t'

/-- R263: a write to `STATUS` clears exactly the flags written as 1; reset clears all four; no other transaction clears a
flag, a read of `STATUS` neither. -/
def Obligations.OnlyAStatusWriteClearsFlags : Prop :=
  (∀ (m : Word) (s : State), transact (.wr 0x0001 m) s = .next { s with status := s.status &&& ~~~(m.setWidth 4) }) ∧
  State.reset.status = 0 ∧
  (∀ (x : Txn) (s t : State), (∀ m, x ≠ .wr 0x0001 m) → transact x s = .next t → s.status &&& t.status = s.status)

/-- R265: one transaction sets at most one flag: from clear flags, every step leaves at most one set. -/
def Obligations.OneTransactionRaisesAtMostOneFlag : Prop :=
  ∀ s t : State, s.status = 0 → step s = .next t →
    t.status = 0 ∨ t.status = 1#4 ∨ t.status = 2#4 ∨ t.status = 4#4 ∨ t.status = 8#4

/-- R20, R22, R45, R232, R254, R260: what a command leaves alone: every register but its destination, every unit but its own, every
control register, the draw counter but for `LFO.INITR`; and the only flags it can set are `UNINIT`, `CLAMP`, `ILLCMD`. -/
def Obligations.ACommandChangesOnlyItsTargets : Prop :=
  ∀ (i : Instr) (s t : State), exec i s = .next t →
    t.params = s.params ∧ t.host = s.host ∧ t.reply = s.reply ∧ t.txn = s.txn ∧ t.sr = s.sr ∧ t.seed = s.seed ∧
    t.mixWet = s.mixWet ∧ t.mixDry = s.mixDry ∧ t.mixInt = s.mixInt ∧ t.mixFb = s.mixFb ∧ t.msMid = s.msMid ∧
    t.msSide = s.msSide ∧ ((∀ u, i ≠ .lfoInitr u) → t.rngN = s.rngN) ∧
    (∀ r, destOf i ≠ some r → t.readV r = s.readV r) ∧
    (∀ u, targetOf i ≠ some (.lfo, u) → t.lfo[u]? = s.lfo[u]?) ∧
    (∀ u, targetOf i ≠ some (.dly, u) → t.dly[u]? = s.dly[u]?) ∧
    (∀ u, targetOf i ≠ some (.biq, u) → t.biq[u]? = s.biq[u]?) ∧
    (∀ u, targetOf i ≠ some (.apc, u) → t.apc[u]? = s.apc[u]?) ∧
    (t.status = s.status ∨ t.status = s.status ||| 1#4 ∨ t.status = s.status ||| 2#4 ∨ t.status = s.status ||| 4#4)

/-- R36, R153: the length `N` of a delay line changes in `DLY.INIT` and in no other transaction. -/
def Obligations.LineLengthChangesOnlyInDlyInit : Prop :=
  ∀ (x : Txn) (s t : State), transact x s = .next t → (∀ u, x ≠ .wr 0x0000 (encode (.dlyInit u))) →
    t.dly.map (fun l => l.n) = s.dly.map (fun l => l.n)

/-- R34: history words of an unsized line, and those at or above `N`, are unobservable: from two legal states that differ
in such words only, every transaction leads to two states that differ in such words only (so every register, flag and
reply agrees). -/
def Obligations.UnreachableHistoryIsUnobservable : Prop :=
  ∀ (x : Txn) (s s' t : State), s.legal = true → s'.legal = true → s.sameVisible s' → transact x s = .next t →
    ∃ t', transact x s' = .next t' ∧ t.sameVisible t'

/-! ## The number system -/

/-- R13: the one rounding of the number system is to nearest, ties to even, with gradual underflow and overflow to
infinity: the result is finite exactly below the overflow threshold, no finite value is nearer to `n / d` units of 2^-149,
and when another value is equally near the result's last bit is 0. -/
def Obligations.RoundingIsToNearestTiesToEven : Prop :=
  ∀ (neg : Bool) (n d : Nat), 0 < d →
    F32.sign (F32.round neg n d) = neg ∧
    (F32.isFinite (F32.round neg n d) = true ↔ n < (2 ^ 25 - 1) * 2 ^ 252 * d) ∧
    (F32.isFinite (F32.round neg n d) = false → F32.isInf (F32.round neg n d) = true) ∧
    (F32.isFinite (F32.round neg n d) = true →
      ∀ c : Word, F32.isFinite c = true →
        ((F32.unitsAbs (F32.round neg n d) * d : Int) - n).natAbs ≤ ((F32.unitsAbs c * d : Int) - n).natAbs ∧
        (((F32.unitsAbs (F32.round neg n d) * d : Int) - n).natAbs = ((F32.unitsAbs c * d : Int) - n).natAbs →
          F32.mag c ≠ F32.mag (F32.round neg n d) → F32.mag (F32.round neg n d) % 2 = 0))

/-- R12, R13: on finite operands (only those) the four operations are one rounding of the exact result, in units of 2^-149.
The signs of zero sums, products and quotients, a value divided by a zero being infinite and `0 ⊘ 0` being the drawn NaN
are the model's reading of "IEEE 754" in R13: log entry 22 (PRESUMED). SpecialOperandsFollowIeee states the exact zero
difference and the operands that are not finite. -/
def Obligations.OperationsRoundTheExactResultOnce : Prop :=
  ∀ (nan a b : Word), F32.isFinite a = true → F32.isFinite b = true →
    (F32.units a + F32.units b ≠ 0 →
      F32.add nan a b = F32.round (decide (F32.units a + F32.units b < 0)) (F32.units a + F32.units b).natAbs 1) ∧
    (F32.units a + F32.units b = 0 →
      F32.add nan a b = if a = 0x80000000 ∧ b = 0x80000000 then 0x80000000 else 0x00000000) ∧
    (F32.units a - F32.units b ≠ 0 →
      F32.sub nan a b = F32.round (decide (F32.units a - F32.units b < 0)) (F32.units a - F32.units b).natAbs 1) ∧
    F32.mul nan a b =
      F32.round (F32.sign a != F32.sign b) (F32.units a * F32.units b).natAbs (2 ^ 149) ∧
    (F32.units b ≠ 0 →
      F32.div nan a b =
        F32.round (F32.sign a != F32.sign b) ((F32.units a).natAbs * 2 ^ 149) (F32.units b).natAbs) ∧
    (F32.units a ≠ 0 → F32.units b = 0 → F32.isInf (F32.div nan a b) = true) ∧
    (F32.units a = 0 → F32.units b = 0 → F32.div nan a b = nan)

/-- R12, R13, R15: comparisons of finite values are those of their values; `+∞` (`0x7F800000`) is above and `−∞`
(`0xFF800000`) below every finite value and each other, and each equals itself; every comparison with a NaN is false. So
`clamp` and `clampLo` answer the lower bound for a NaN and for what lies below it, `clamp` the upper bound for what lies above
it, and otherwise their argument. -/
def Obligations.ComparisonsAreThoseOfTheValues : Prop :=
  (∀ a b : Word, F32.isFinite a = true → F32.isFinite b = true →
    (F32.lt a b = true ↔ F32.units a < F32.units b) ∧ (F32.le a b = true ↔ F32.units a ≤ F32.units b) ∧
    (F32.eq a b = true ↔ F32.units a = F32.units b) ∧ (F32.gt a b = true ↔ F32.units a > F32.units b) ∧
    (F32.ge a b = true ↔ F32.units a ≥ F32.units b)) ∧
  (∀ a b : Word, F32.isNaN a = true ∨ F32.isNaN b = true →
    F32.lt a b = false ∧ F32.le a b = false ∧ F32.eq a b = false ∧ F32.gt a b = false ∧ F32.ge a b = false) ∧
  (∀ a b : Word, a = 0xFF800000 ∧ F32.isFinite b = true ∨ F32.isFinite a = true ∧ b = 0x7F800000 ∨
      a = 0xFF800000 ∧ b = 0x7F800000 →
    F32.lt a b = true ∧ F32.le a b = true ∧ F32.eq a b = false ∧ F32.gt a b = false ∧ F32.ge a b = false ∧
    F32.lt b a = false ∧ F32.le b a = false ∧ F32.eq b a = false ∧ F32.gt b a = true ∧ F32.ge b a = true) ∧
  (∀ a : Word, a = 0x7F800000 ∨ a = 0xFF800000 →
    F32.lt a a = false ∧ F32.le a a = true ∧ F32.eq a a = true ∧ F32.gt a a = false ∧ F32.ge a a = true) ∧
  (∀ a lo hi : Word,
    F32.clampLo a lo = (if F32.isNaN a = true ∨ F32.lt a lo = true then lo else a) ∧
    F32.clamp a lo hi = (if F32.isNaN a = true ∨ F32.lt a lo = true then lo else if F32.gt a hi = true then hi else a) ∧
    (F32.isFinite lo = true → F32.isFinite hi = true →
      F32.clampLo 0x7F800000 lo = 0x7F800000 ∧ F32.clampLo 0xFF800000 lo = lo ∧
      F32.clamp 0x7F800000 lo hi = hi ∧ F32.clamp 0xFF800000 lo hi = lo))

/-- R12: `ofInt(n)` is exact for `|n| ≤ 2^24`, and `floor` gives the integer back. -/
def Obligations.SmallIntegersAreExact : Prop :=
  ∀ n : Int, n.natAbs ≤ 2 ^ 24 →
    F32.isFinite (F32.ofInt n) = true ∧ F32.units (F32.ofInt n) = n * 2 ^ 149 ∧ F32.floor (F32.ofInt n) = n

/-- R12, R13, as log entry 22 (PRESUMED) reads "IEEE 754": the exact zero difference, a finite value divided by a zero, and
the four operations on NaNs and infinities, where `nan` is the NaN drawn for the operation. -/
def Obligations.SpecialOperandsFollowIeee : Prop :=
  ∀ (nan a b : Word),
    let zero : Word := if F32.sign a = F32.sign b then 0x00000000 else 0x80000000
    let inf : Word := if F32.sign a = F32.sign b then 0x7F800000 else 0xFF800000
    (F32.isNaN a = true ∨ F32.isNaN b = true →
      F32.add nan a b = nan ∧ F32.sub nan a b = nan ∧ F32.mul nan a b = nan ∧ F32.div nan a b = nan) ∧
    (F32.isFinite a = true → F32.isFinite b = true → F32.units a = F32.units b →
      F32.sub nan a b = if a = 0x80000000 ∧ b = 0x00000000 then 0x80000000 else 0x00000000) ∧
    (F32.isFinite a = true → F32.units a ≠ 0 → F32.isFinite b = true → F32.units b = 0 → F32.div nan a b = inf) ∧
    (F32.isInf a = true → F32.isInf b = true →
      F32.add nan a b = (if F32.sign a = F32.sign b then a else nan) ∧
      F32.sub nan a b = (if F32.sign a = F32.sign b then nan else a) ∧
      F32.mul nan a b = inf ∧ F32.div nan a b = nan) ∧
    (F32.isInf a = true → F32.isFinite b = true →
      F32.add nan a b = a ∧ F32.sub nan a b = a ∧ F32.mul nan a b = (if F32.units b = 0 then nan else inf) ∧
      F32.div nan a b = inf) ∧
    (F32.isFinite a = true → F32.isInf b = true →
      F32.add nan a b = b ∧ F32.sub nan a b = F32.neg b ∧ F32.mul nan a b = (if F32.units a = 0 then nan else inf) ∧
      F32.div nan a b = zero)

/-! ## The testable properties of the coefficient function -/

/-- R187 and R206, as log entries 23 and 24 (each a DESIGN CHOICE) read them: what any admissible `Coef` must meet. Every
other `Coef` of the model: a lowpass whose cutoff lies from 4/5 to 24/25 of Nyquist passes its input through, `LP2` for `Q`
from 0.5 to 1000; `LP2` at `cutoff = 1000`, `Q = 0.707`, `SR = 44100` meets the scenario; a notch with `fc` from 1/100 to 6/25
of `SR` and `Q` from 0.5 to 100 suppresses a sine at `fc` by more than 20 dB relative to one at `2·fc`; an `AP2` set for a
cutoff below Nyquist has magnitude 1 up to the rounding of coefficients, and is stable and not the identity for a cutoff from
1/1000 to 12/25 of `SR` and a bandwidth `bw = fc ⊘ Q` from `fc / 1001` to `fc`. A free set that meets the properties is not
changed. The reference meets the scenario and the notch property at the arguments and trigonometric values of T3.6, and its
`AP2` is mirror-image at all arguments, so of magnitude exactly 1 at every frequency. -/
def Obligations.EveryOtherCoefMeetsTheTestableProperties : Prop :=
  (∀ (n : Nat) (fc q g fs : Word), F32.isFinite fc = true → F32.isFinite fs = true → 0 < F32.units fc → 0 < F32.units fs →
    (2 * F32.units fs ≤ 5 * F32.units fc → 25 * F32.units fc ≤ 12 * F32.units fs →
      passesThrough (coef (.other n) .lp1 fc q g fs) = true ∧
      (F32.isFinite q = true → 2 ^ 149 ≤ 2 * F32.units q → F32.units q ≤ 1000 * 2 ^ 149 →
        passesThrough (coef (.other n) .lp2 fc q g fs) = true)) ∧
    meetsScenario (coef (.other n) .lp2 0x447A0000 0x3F34FDF4 g 0x472C4400) = true ∧
    (F32.units fs ≤ 100 * F32.units fc → 25 * F32.units fc ≤ 6 * F32.units fs →
      F32.isFinite q = true → 2 ^ 149 ≤ 2 * F32.units q → F32.units q ≤ 100 * 2 ^ 149 →
        notches fc fs (coef (.other n) .notch fc q g fs) = true) ∧
    (2 * F32.units fc < F32.units fs →
      ∃ e : Word, F32.isNaN e = true ∧
        let k := coef (.other n) .ap2 fc q g fs
        let bw := F32.div e fc q
        keepsMagnitude fc fs k = true ∧
        (F32.units fs ≤ 1000 * F32.units fc → 25 * F32.units fc ≤ 12 * F32.units fs → F32.isFinite bw = true →
          F32.units fc ≤ 1001 * F32.units bw → F32.units bw ≤ F32.units fc →
            settles k = true ∧ forward k ≠ feedback k))) ∧
  (∀ (t : BiquadType) (fc q fs : Word) (k : Coeffs),
    meetsProperties t fc q fs k = true → holdToProperties t fc q fs k = k) ∧
  (∀ (f : Trig) (e : Nat → Word) (g : Word),
    f.sin 0x3E11E531 = 0x3E1166F5 → f.cos 0x3E11E531 = 0x3F7D67F4 → f.tan 0x3D91E531 = 0x3D922480 →
      meetsScenario (coefRef f e .lp2 0x447A0000 0x3F34FDF4 g 0x472C4400) = true ∧
      notches 0x447A0000 0x472C4400 (coefRef f e .notch 0x447A0000 0x3F34FDF4 g 0x472C4400) = true) ∧
  (∀ fc q g fs : Word,
    let k := coef .reference .ap2 fc q g fs
    k.a0 = k.b1 ∧ k.a1 = k.b0 ∧ k.a2 = 0x3F800000 ∧ ∀ w : Cosine, power (forward k) w = power (feedback k) w)

/-- R182, R187, R206 (log entries 23, 24): the integers in which the properties are stated are the settled response of the
recurrence with the coefficient values of a set, without the rounding of each sample. `forward` and `feedback` hold the
weights with which `recurrence` takes its input and each cell, read off with a one in that place and zeros elsewhere. Where
`H · feedback = forward` at `z = exp(−iθ)`, the input `exp(iθm)` and the output `H · exp(iθm)` solve the recurrence; for a
stable set every solution without input dies away, so that output is what any start settles to. With `n / d` the cosine of
`θ`, `power` is the squared magnitude of a polynomial in `z`, scaled by `d²`; `quadrature` times `sin θ` is the imaginary
part of one times the conjugate of the other, scaled by `d`; `doubled` is the cosine of `2θ`; `magnitudesAgree` holds when
the magnitudes differ by at most `2⁻¹⁸`, and then they differ by at most `2⁻¹⁷`, of the unit. `polesWithin` holds exactly when
every root of `z² + b0·z + b1` lies within the radius. -/
def Obligations.PropertiesSpeakOfTheFrequencyResponse : Prop :=
  (∀ (d : Nat → Word) (k : Coeffs), finiteSet k = true →
    let one : Word := 0x3F800000
    let y := fun (x x1 x2 y1 y2 : Word) => F32.units (recurrence d k { x1 := x1, x2 := x2, y1 := y1, y2 := y2 } x)
    forward k = ⟨y one 0 0 0 0, y 0 one 0 0 0, y 0 0 one 0 0⟩ ∧
    feedback k = ⟨F32.units one, -y 0 0 0 one 0, -y 0 0 0 0 one⟩) ∧
  (∀ (k : Coeffs) (θ : ℝ) (H : ℂ),
    let z := Complex.exp (-(θ * Complex.I))
    let p := forward k
    let q := feedback k
    H * (q.p0 + q.p1 * z + q.p2 * z ^ 2) = p.p0 + p.p1 * z + p.p2 * z ^ 2 →
      let x := fun m : ℤ => Complex.exp (θ * m * Complex.I)
      let y := fun m : ℤ => H * x m
      ∀ m : ℤ, q.p0 * y m = p.p0 * x m + p.p1 * x (m - 1) + p.p2 * x (m - 2) - q.p1 * y (m - 1) - q.p2 * y (m - 2)) ∧
  (∀ (k : Coeffs) (y : ℕ → ℂ), settles k = true →
    (∀ m, (feedback k).p0 * y (m + 2) = -((feedback k).p1 * y (m + 1)) - (feedback k).p2 * y m) →
      Filter.Tendsto y Filter.atTop (nhds 0)) ∧
  (∀ (p q : Poly) (w : Cosine) (θ : ℝ), w.d ≠ 0 → Real.cos θ = w.n / w.d →
    let z := Complex.exp (-(θ * Complex.I))
    let P : ℂ := p.p0 + p.p1 * z + p.p2 * z ^ 2
    let Q : ℂ := q.p0 + q.p1 * z + q.p2 * z ^ 2
    (power p w : ℝ) = (w.d : ℝ) ^ 2 * Complex.normSq P ∧
    (quadrature p q w : ℝ) * Real.sin θ = w.d * (P * (starRingEnd ℂ) Q).im ∧
    Real.cos (2 * θ) = (doubled w).n / (doubled w).d ∧
    (|‖P‖ - ‖Q‖| ≤ oneUnits / 2 ^ 18 → magnitudesAgree p q w = true) ∧
    (magnitudesAgree p q w = true → |‖P‖ - ‖Q‖| ≤ oneUnits / 2 ^ 17)) ∧
  (∀ (r s : Int) (k : Coeffs), 0 < r → 0 < s →
    (polesWithin r s k = true ↔
      ∀ z : ℂ, oneUnits * z ^ 2 + F32.units k.b0 * z + F32.units k.b1 = 0 → ‖z‖ < (r : ℝ) / s))
end

