-- ==== Sys2Proof/Laws/Memory.lean ====
section
/-! SUPPORT. The laws of the private memories: a read after a write, what a write leaves alone, and the canonical form
that every operation keeps. -/

namespace Sys2Proof.Machine

@[simp] theorem Memory.read_nil (a : Nat) : Memory.read [] a = F32.zero := rfl

/-- An address below the canonical form's lower bound is unlisted. -/
theorem Memory.read_below {lo : Nat} {m : Memory} (h : m.wfFrom lo) {a : Nat} (ha : a < lo) :
    m.read a = F32.zero := by
  induction m generalizing lo with
  | nil => rfl
  | cons c rest ih =>
    obtain ⟨k, x⟩ := c
    simp only [Memory.wfFrom, Bool.and_eq_true, decide_eq_true_eq] at h
    have hk : ¬ a = k := by omega
    simp only [Memory.read, if_neg hk]
    exact ih h.2 (by omega)

/-- A weaker lower bound. -/
theorem Memory.wfFrom_mono {lo lo' : Nat} {m : Memory} (h : m.wfFrom lo) (hl : lo' ≤ lo) : m.wfFrom lo' := by
  cases m with
  | nil => rfl
  | cons c rest =>
    obtain ⟨k, x⟩ := c
    simp only [Memory.wfFrom, Bool.and_eq_true, decide_eq_true_eq] at h ⊢
    exact ⟨⟨by omega, h.1.2⟩, h.2⟩

/-- A write keeps the canonical form. -/
theorem Memory.wfFrom_write {lo : Nat} {m : Memory} (h : m.wfFrom lo) {a : Nat} (ha : lo ≤ a) (x : Word) :
    (m.write a x).wfFrom lo := by
  induction m generalizing lo with
  | nil =>
    by_cases hx : x = F32.zero
    · simp [Memory.write, hx, Memory.wfFrom]
    · simp [Memory.write, hx, Memory.wfFrom, ha]
  | cons c rest ih =>
    obtain ⟨k, y⟩ := c
    simp only [Memory.wfFrom, Bool.and_eq_true, decide_eq_true_eq] at h
    obtain ⟨⟨hk, hy⟩, hr⟩ := h
    by_cases h1 : a < k
    · by_cases hx : x = F32.zero
      · simp [Memory.write, h1, hx, Memory.wfFrom, hk, hr]
        simpa using hy
      · have : k ≥ a + 1 := h1
        simp only [Memory.write, if_pos h1, if_neg hx, Memory.wfFrom, Bool.and_eq_true, decide_eq_true_eq]
        exact ⟨⟨ha, by simpa using hx⟩, ⟨this, hy⟩, hr⟩
    · by_cases h2 : a = k
      · subst h2
        by_cases hx : x = F32.zero
        · simp only [Memory.write, if_neg h1, if_pos trivial, if_pos hx]
          exact Memory.wfFrom_mono hr (by omega)
        · simp only [Memory.write, if_neg h1, if_pos trivial, if_neg hx, Memory.wfFrom, Bool.and_eq_true,
            decide_eq_true_eq]
          exact ⟨⟨ha, by simpa using hx⟩, hr⟩
      · simp only [Memory.write, if_neg h1, if_neg h2, Memory.wfFrom, Bool.and_eq_true, decide_eq_true_eq]
        exact ⟨⟨hk, hy⟩, ih hr (by omega)⟩

/-- A write keeps the canonical form. -/
theorem Memory.wf_write {m : Memory} (h : m.wf) (a : Nat) (x : Word) : (m.write a x).wf :=
  Memory.wfFrom_write h (Nat.zero_le a) x

/-- A read at the address written gives the word written. -/
theorem Memory.read_write_same {m : Memory} (h : m.wf) (a : Nat) (x : Word) : (m.write a x).read a = x := by
  suffices ∀ lo, m.wfFrom lo → (m.write a x).read a = x from this 0 h
  clear h
  induction m with
  | nil =>
    intro lo _
    by_cases hx : x = F32.zero
    · simp [Memory.write, hx]
    · simp [Memory.write, hx, Memory.read]
  | cons c rest ih =>
    obtain ⟨k, y⟩ := c
    intro lo h
    simp only [Memory.wfFrom, Bool.and_eq_true, decide_eq_true_eq] at h
    by_cases h1 : a < k
    · by_cases hx : x = F32.zero
      · have hk : ¬ a = k := by omega
        simp only [Memory.write, if_pos h1, if_pos hx, Memory.read, if_neg hk]
        rw [Memory.read_below h.2 (by omega), hx]
      · simp [Memory.write, h1, hx, Memory.read]
    · by_cases h2 : a = k
      · subst h2
        by_cases hx : x = F32.zero
        · simp only [Memory.write, if_neg h1, if_pos trivial, if_pos hx]
          rw [Memory.read_below h.2 (by omega), hx]
        · simp [Memory.write, hx, Memory.read]
      · simp only [Memory.write, if_neg h1, if_neg h2, Memory.read]
        exact ih _ h.2

/-- A write leaves every other address alone. -/
theorem Memory.read_write_other (m : Memory) {a b : Nat} (hb : b ≠ a) (x : Word) : (m.write a x).read b = m.read b := by
  induction m with
  | nil =>
    by_cases hx : x = F32.zero
    · simp [Memory.write, hx]
    · simp [Memory.write, hx, Memory.read, hb]
  | cons c rest ih =>
    obtain ⟨k, y⟩ := c
    by_cases h1 : a < k
    · by_cases hx : x = F32.zero
      · simp [Memory.write, h1, hx]
      · simp [Memory.write, h1, hx, Memory.read, hb]
    · by_cases h2 : a = k
      · subst h2
        by_cases hx : x = F32.zero
        · simp [Memory.write, hx, Memory.read, hb]
        · simp [Memory.write, hx, Memory.read, hb]
      · simp only [Memory.write, if_neg h1, if_neg h2, Memory.read, ih]

/-- A write lists no address but the one written. -/
theorem Memory.keys_write {p : Nat → Bool} {m : Memory} (h : m.all (fun c => p c.1)) {a : Nat} (ha : p a) (x : Word) :
    (m.write a x).all (fun c => p c.1) := by
  induction m with
  | nil =>
    by_cases hx : x = F32.zero
    · simp [Memory.write, hx]
    · simp [Memory.write, hx, ha]
  | cons c rest ih =>
    obtain ⟨k, y⟩ := c
    simp only [List.all_cons, Bool.and_eq_true] at h
    unfold Memory.write
    split
    · split <;> simp only [List.all_cons, Bool.and_eq_true, h, ha, and_self]
    · split
      · split <;> simp only [List.all_cons, Bool.and_eq_true, h, ha, and_self]
      · simp only [List.all_cons, Bool.and_eq_true]
        exact ⟨h.1, ih h.2⟩

/-- Clearing keeps the canonical form. -/
theorem Memory.wf_clearBelow {m : Memory} (h : m.wf) (n : Nat) : (m.clearBelow n).wf := by
  suffices ∀ lo, m.wfFrom lo → (Memory.clearBelow m n).wfFrom lo from this 0 h
  clear h
  induction m with
  | nil => intro _ _; rfl
  | cons c rest ih =>
    obtain ⟨k, y⟩ := c
    intro lo h
    simp only [Memory.wfFrom, Bool.and_eq_true, decide_eq_true_eq] at h
    by_cases hn : n ≤ k
    · simp only [Memory.clearBelow, List.filter_cons, decide_eq_true hn, if_true, Memory.wfFrom, Bool.and_eq_true,
        decide_eq_true_eq]
      exact ⟨h.1, ih _ h.2⟩
    · simp only [Memory.clearBelow, List.filter_cons, decide_eq_false hn]
      exact Memory.wfFrom_mono (ih _ h.2) (by omega)

/-- After clearing, every address below `n` reads `+0` and the others read as before. -/
theorem Memory.read_clearBelow (m : Memory) (n a : Nat) :
    (m.clearBelow n).read a = if a < n then F32.zero else m.read a := by
  induction m with
  | nil => simp [Memory.clearBelow]
  | cons c rest ih =>
    obtain ⟨k, y⟩ := c
    by_cases hn : n ≤ k
    · have : Memory.clearBelow ((k, y) :: rest) n = (k, y) :: Memory.clearBelow rest n := by
        simp [Memory.clearBelow, hn]
      rw [this]
      by_cases hk : a = k
      · subst hk
        simp [Memory.read, Nat.not_lt.mpr hn]
      · simp only [Memory.read, if_neg hk, ih]
    · have : Memory.clearBelow ((k, y) :: rest) n = Memory.clearBelow rest n := by
        simp [Memory.clearBelow, hn]
      rw [this, ih]
      by_cases ha : a < n
      · simp [ha]
      · have hk : ¬ a = k := by omega
        simp [ha, Memory.read, hk]

/-- Clearing lists no address that was not listed. -/
theorem Memory.keys_clearBelow {p : Nat × Word → Bool} {m : Memory} (h : m.all p) (n : Nat) :
    (m.clearBelow n).all p := by
  simp only [Memory.clearBelow, List.all_eq_true, List.mem_filter] at *
  exact fun c hc => h c hc.1

end Sys2Proof.Machine
end

