-- ==== Sys2Proof/Laws/Num.lean ====
section
/-! SUPPORT. What the operations of the number system promise: NaNs are NaNs, a clamp lands in its range, the free
functions keep the properties R13 and R123 fix. -/

namespace Sys2Proof.Machine.F32

theorem mag_lt (a : Word) : mag a < 2 ^ 31 := Nat.mod_lt _ (by decide)

/-- The bits 30:0 of an assembled word. -/
theorem mag_ofMag (neg : Bool) {m : Nat} (h : m < 2 ^ 31) : mag (ofMag neg m) = m := by
  cases neg <;> simp only [mag, ofMag, BitVec.toNat_ofNat, if_true, Bool.false_eq_true, if_false] <;> omega

/-- The sign of an assembled word. -/
theorem sign_ofMag (neg : Bool) {m : Nat} (h : m < 2 ^ 31) : sign (ofMag neg m) = neg := by
  cases neg <;>
    simp only [sign, ofMag, BitVec.msb_eq_decide, BitVec.toNat_ofNat, if_true, Bool.false_eq_true, if_false,
      decide_eq_true_eq, decide_eq_false_iff_not] <;> omega

/-- A word is its sign and its bits 30:0. -/
theorem ofMag_sign_mag (a : Word) : ofMag (sign a) (mag a) = a := by
  apply BitVec.eq_of_toNat_eq
  have ha := a.isLt
  by_cases h : 2 ^ 31 ≤ a.toNat
  · simp only [ofMag, sign, mag, BitVec.msb_eq_decide, h, decide_true, if_true, BitVec.toNat_ofNat]
    omega
  · simp only [ofMag, sign, mag, BitVec.msb_eq_decide, h, decide_false, if_false, BitVec.toNat_ofNat,
      Bool.false_eq_true]
    omega

/-- The NaN made from free bits is a NaN (U1). -/
@[simp] theorem isNaN_nanOf (b : Word) : isNaN (nanOf b) = true := by
  have hf : b.toNat % 2 ^ 23 < 2 ^ 23 := Nat.mod_lt _ (by decide)
  unfold isNaN nanOf
  rw [mag_ofMag]
  · simp only [decide_eq_true_eq]; split <;> omega
  · split <;> omega

/-- Every NaN is the NaN made from itself, so a draw of free bits reaches every NaN encoding (U1). -/
theorem nanOf_self {a : Word} (h : isNaN a) : nanOf a = a := by
  have hm := mag_lt a
  simp only [isNaN, decide_eq_true_eq] at h
  have h1 : 0x7F800000 + a.toNat % 2 ^ 23 = mag a := by unfold mag at *; omega
  have h2 : ¬ a.toNat % 2 ^ 23 = 0 := by omega
  rw [nanOf, if_neg h2, h1, ofMag_sign_mag]

/-! ### Comparisons -/

theorem le_iff {a b : Word} : le a b ↔ isNaN a = false ∧ isNaN b = false ∧ key a ≤ key b := by
  simp [le, and_assoc]

theorem lt_iff {a b : Word} : lt a b ↔ isNaN a = false ∧ isNaN b = false ∧ key a < key b := by
  simp [lt, and_assoc]

theorem le_refl {a : Word} (h : isNaN a = false) : le a a := le_iff.2 ⟨h, h, Int.le_refl _⟩

/-- Two numbers are ordered one way or the other. -/
theorem le_of_not_lt {a b : Word} (ha : isNaN a = false) (hb : isNaN b = false) (h : ¬ lt a b) : le b a :=
  le_iff.2 ⟨hb, ha, by
    have := mt (fun hk => lt_iff.2 ⟨ha, hb, hk⟩) h
    omega⟩

/-! ### Clamping (R15) -/

/-- A clamp between two numbers lands between them, whatever it is applied to. -/
theorem clamp_within {lo hi : Word} (h : le lo hi) (a : Word) : within lo (clamp a lo hi) hi := by
  obtain ⟨hlo, hhi, _⟩ := le_iff.1 h
  unfold clamp within
  split
  · simp [le_refl hlo, h]
  · rename_i h1
    simp only [Bool.or_eq_true, not_or, Bool.not_eq_true] at h1
    split
    · simp [le_refl hhi, h]
    · rename_i h2
      simp only [gt] at h2
      rw [Bool.and_eq_true]
      exact ⟨le_of_not_lt h1.1 hlo (by simp [h1.2]), le_of_not_lt hhi h1.1 h2⟩

/-- `clampLo` lands at or above its bound. -/
theorem le_clampLo {lo : Word} (h : isNaN lo = false) (a : Word) : le lo (clampLo a lo) := by
  unfold clampLo
  split
  · exact le_refl h
  · rename_i h1
    simp only [Bool.or_eq_true, not_or, Bool.not_eq_true] at h1
    exact le_of_not_lt h1.1 h (by simp [h1.2])

/-- A value within the range is kept. -/
theorem clamp_of_within {lo a hi : Word} (h : within lo a hi) : clamp a lo hi = a := by
  simp only [within, Bool.and_eq_true, le_iff] at h
  obtain ⟨⟨_, ha, hl⟩, _, _, hh⟩ := h
  unfold clamp
  rw [if_neg (by simp only [ha, Bool.false_or, lt_iff, not_and]; omega), if_neg (by simp only [gt, lt_iff, not_and]; omega)]

/-! ### The free functions -/

/-- `Rng` has its value in `[0, PHASE_MAX]` (R123). -/
theorem rng_within (seed : Word) (n : Nat) : within zero (rng seed n) phaseMax := by
  unfold rng within
  split
  · assumption
  · decide

/-- `sin(+0) = +0` (R13). -/
@[simp] theorem sin_zero : sin zero = zero := by
  simp [sin, show isFinite zero = true from by decide]

/-- `−1 ≤ sin(a) ≤ 1` for finite `a` (R13). -/
theorem sin_within {a : Word} (h : isFinite a) : within negOne (sin a) one := by
  unfold sin within
  rw [if_pos h]
  split
  · decide
  · split
    · assumption
    · decide

/-- `−1 ≤ cos(a) ≤ 1` for finite `a` (R13). -/
theorem cos_within {a : Word} (h : isFinite a) : within negOne (cos a) one := by
  unfold cos within
  rw [if_pos h]
  split
  · assumption
  · decide

/-- `sin`, `cos` and `tan` of a NaN or an infinity are NaNs (R13). -/
theorem trig_isNaN {a : Word} (h : isFinite a = false) : isNaN (sin a) ∧ isNaN (cos a) ∧ isNaN (tan a) := by
  simp [sin, cos, tan, h]

/-! ### Rounding -/

/-- Rounding a quotient that is an integer gives that integer. -/
theorem nearestEven_mul {m d : Nat} (hd : 0 < d) : nearestEven (m * d) d = m := by
  simp [nearestEven, hd]

/-- The excess of a normal value's size is its exponent field less one. -/
theorem log2_mul_pow {m : Nat} (h1 : 2 ^ 23 ≤ m) (h2 : m < 2 ^ 24) (k : Nat) : (m * 2 ^ k).log2 = 23 + k := by
  have hm : m ≠ 0 := by omega
  apply (Nat.log2_eq_iff (Nat.mul_ne_zero hm (by positivity))).2
  rw [Nat.pow_add, Nat.pow_succ, Nat.pow_add]
  constructor
  · exact Nat.mul_le_mul_right _ h1
  · calc m * 2 ^ k < 2 ^ 24 * 2 ^ k := Nat.mul_lt_mul_of_pos_right h2 (by positivity)
      _ = _ := by rw [show (2 : Nat) ^ 24 = 2 ^ 23 * 2 by norm_num]; ring

/-- The size of a finite value, rounded, is that value: rounding is exact where it can be (R13). -/
theorem roundMag_unitsAbs {a : Word} (h : isFinite a) {d : Nat} (hd : 0 < d) : roundMag (unitsAbs a * d) d = mag a := by
  simp only [isFinite, decide_eq_true_eq] at h
  unfold roundMag excess unitsAbs
  rw [Nat.mul_div_cancel _ hd]
  split
  · rename_i h0
    have hm : mag a < 2 ^ 23 := by omega
    have hl : (mag a).log2 - 23 = 0 := by
      by_cases hz : mag a = 0
      · simp [hz]
      · have := (Nat.log2_lt hz).2 hm
        omega
    rw [hl, Nat.pow_zero, Nat.mul_one, nearestEven_mul hd]
    omega
  · rename_i h0
    rw [log2_mul_pow (by omega) (by omega), Nat.add_sub_cancel_left]
    rw [show ((2 ^ 23 + mag a % 2 ^ 23) * 2 ^ (mag a / 2 ^ 23 - 1)) * d =
        (2 ^ 23 + mag a % 2 ^ 23) * (d * 2 ^ (mag a / 2 ^ 23 - 1)) by ring,
      nearestEven_mul (Nat.mul_pos hd (by positivity))]
    omega

/-- A finite value rounds to itself. -/
theorem round_unitsAbs {a : Word} (h : isFinite a) {d : Nat} (hd : 0 < d) :
    round (sign a) (unitsAbs a * d) d = a := by
  rw [round, roundMag_unitsAbs h hd, ofMag_sign_mag]

/-! ### The error of a rounding -/

/-- The bits of a rounded significand `m` with exponent `e` have the size `m · 2^e`, also when `m` carried to `2^24`. -/
theorem unitsAbs_ofMag (neg : Bool) {e m : Nat} (hm : m ≤ 2 ^ 24) (h : e = 0 ∨ 2 ^ 23 ≤ m) (he : e ≤ 200) :
    unitsAbs (ofMag neg (e * 2 ^ 23 + m)) = m * 2 ^ e := by
  unfold unitsAbs
  rw [mag_ofMag _ (by omega)]
  by_cases h1 : m < 2 ^ 23
  · obtain rfl : e = 0 := by omega
    rw [if_pos (by omega)]; omega
  · rw [if_neg (by omega)]
    by_cases h2 : m < 2 ^ 24
    · have hq : (e * 2 ^ 23 + m) / 2 ^ 23 - 1 = e := by omega
      have hr : 2 ^ 23 + (e * 2 ^ 23 + m) % 2 ^ 23 = m := by omega
      rw [hq, hr]
    · have hq : (e * 2 ^ 23 + m) / 2 ^ 23 - 1 = e + 1 := by omega
      have hr : 2 ^ 23 + (e * 2 ^ 23 + m) % 2 ^ 23 = 2 ^ 23 := by omega
      have hmm : m = 2 ^ 23 * 2 := by omega
      rw [hq, hr, hmm]
      ring

/-- The nearest integer is within half a unit. -/
theorem nearestEven_error (n : Nat) {d : Nat} (hd : 0 < d) :
    2 * (nearestEven n d * d) ≤ 2 * n + d ∧ 2 * n ≤ 2 * (nearestEven n d * d) + d := by
  have h1 := Nat.div_add_mod n d
  have h2 := Nat.mod_lt n hd
  have h3 : (n / d + 1) * d = d * (n / d) + d := by ring
  have h4 : n / d * d = d * (n / d) := Nat.mul_comm _ _
  unfold nearestEven
  split
  · omega
  · split
    · rcases Nat.mod_two_eq_zero_or_one (n / d) with h | h <;> rw [h]
      · rw [Nat.add_zero]; omega
      · omega
    · omega

/-- A value below `2^151` units is rounded to a finite value, with an error of at most `2^126` units, half a unit in the last place of the values
just below `2^151`. -/
theorem round_error (neg : Bool) {n d : Nat} (hd : 0 < d) (hn : n < 2 ^ 151 * d) :
    isFinite (round neg n d) ∧ unitsAbs (round neg n d) * d ≤ n + 2 ^ 126 * d ∧
      n ≤ unitsAbs (round neg n d) * d + 2 ^ 126 * d := by
  set e := excess n d with he
  set m := nearestEven n (d * 2 ^ e) with hmdef
  have hq : n / d < 2 ^ 151 := Nat.div_lt_of_lt_mul (by rwa [Nat.mul_comm])
  have hlog : (n / d).log2 ≤ 150 := by
    by_cases hz : n / d = 0
    · simp [hz]
    · have := (Nat.log2_lt hz).2 hq; omega
  have he' : e ≤ 127 := by simp only [he, excess]; omega
  have hD : 0 < d * 2 ^ e := Nat.mul_pos hd (by positivity)
  have e12 := nearestEven_error n hD
  rw [← hmdef] at e12
  obtain ⟨e1, e2⟩ := e12
  -- the significand is in range
  have hup : n < 2 ^ 24 * (d * 2 ^ e) := by
    have h1 : n / d < 2 ^ ((n / d).log2 + 1) := Nat.lt_log2_self
    have h2 : 2 ^ ((n / d).log2 + 1) ≤ 2 ^ (24 + e) := Nat.pow_le_pow_right (by decide) (by simp only [he, excess]; omega)
    have h3 : n < 2 ^ (24 + e) * d := (Nat.div_lt_iff_lt_mul hd).1 (h1.trans_le h2)
    calc n < _ := h3
      _ = _ := by rw [Nat.pow_add]; ring
  have hm : m ≤ 2 ^ 24 := by
    have h1 : 2 * (m * (d * 2 ^ e)) < 2 * (2 ^ 24 * (d * 2 ^ e)) + d * 2 ^ e := by omega
    have h2 : m * (d * 2 ^ e) < (2 ^ 24 + 1) * (d * 2 ^ e) := by rw [Nat.add_mul]; omega
    have := Nat.lt_of_mul_lt_mul_right h2
    omega
  have hlo : e = 0 ∨ 2 ^ 23 ≤ m := by
    by_cases h0 : e = 0
    · exact .inl h0
    · right
      have hz : n / d ≠ 0 := by intro hz; simp [he, excess, hz] at h0
      have h1 : 2 ^ (n / d).log2 ≤ n / d := Nat.log2_self_le hz
      have h2 : (n / d).log2 = 23 + e := by simp only [he, excess] at h0 ⊢; omega
      rw [h2] at h1
      have h3 : 2 ^ (23 + e) * d ≤ n := (Nat.le_div_iff_mul_le hd).1 h1
      have h4 : 2 ^ 23 * (d * 2 ^ e) ≤ n := by
        calc _ = 2 ^ (23 + e) * d := by rw [Nat.pow_add]; ring
          _ ≤ n := h3
      have h5 : 2 ^ 23 * (d * 2 ^ e) < (m + 1) * (d * 2 ^ e) := by rw [Nat.add_mul]; omega
      have := Nat.lt_of_mul_lt_mul_right h5
      omega
  have hr : roundMag n d = e * 2 ^ 23 + m := by
    have : e * 2 ^ 23 + m ≤ 0x7F800000 := by omega
    rw [roundMag, ← he, ← hmdef, Nat.min_eq_right this]
  have hu : unitsAbs (round neg n d) = m * 2 ^ e := by
    rw [round, hr, unitsAbs_ofMag neg hm hlo (by omega)]
  have hp : d * 2 ^ e ≤ 2 ^ 127 * d := by
    rw [Nat.mul_comm]; exact Nat.mul_le_mul_right _ (Nat.pow_le_pow_right (by decide) he')
  have hmul : m * 2 ^ e * d = m * (d * 2 ^ e) := by ring
  have hf : isFinite (round neg n d) := by
    rw [isFinite, round, hr, mag_ofMag _ (by omega)]
    simp only [decide_eq_true_eq]
    omega
  rw [hu, hmul]
  exact ⟨hf, by omega, by omega⟩

/-- The sign of a rounded value. -/
theorem sign_round (neg : Bool) (n d : Nat) : sign (round neg n d) = neg :=
  sign_ofMag _ ((Nat.min_le_left _ _).trans_lt (by decide))

/-! ### Finite values -/

theorem isNaN_of_isFinite {a : Word} (h : isFinite a) : isNaN a = false := by
  simp only [isFinite, isNaN, decide_eq_true_eq, decide_eq_false_iff_not] at *
  omega

theorem isInf_of_isFinite {a : Word} (h : isFinite a) : isInf a = false := by
  simp only [isFinite, isInf, decide_eq_true_eq, beq_eq_false_iff_ne] at *
  omega

/-- The size in units is 0 for the two zeros only. -/
theorem unitsAbs_eq_zero {a : Word} : unitsAbs a = 0 ↔ mag a = 0 := by
  unfold unitsAbs
  split
  · exact Iff.rfl
  · rename_i h0
    constructor
    · intro h
      have : 0 < (2 ^ 23 + mag a % 2 ^ 23) * 2 ^ (mag a / 2 ^ 23 - 1) := by positivity
      omega
    · intro h
      omega

theorem natAbs_units (a : Word) : (units a).natAbs = unitsAbs a := by
  unfold units
  split <;> omega

/-- `1 ⊗ a = a` for a finite `a` (R150). -/
theorem one_mul_finite {nan a : Word} (h : isFinite a) : mul nan one a = a := by
  have h1 : unitsAbs one = 2 ^ 149 := by decide
  have h2 : isNaN one = false := by decide
  have h3 : isInf one = false := by decide
  have h4 : sign one = false := by decide
  simp only [mul, isNaN_of_isFinite h, isInf_of_isFinite h, h1, h2, h3, h4, Bool.or_self, Bool.false_eq_true, if_false,
    Bool.false_bne]
  rw [Nat.mul_comm, round_unitsAbs h (by positivity)]

/-- Adding a zero to a finite value that is none gives that value (R150). -/
theorem add_zero_finite {nan a z : Word} (h : isFinite a) (ha : isZero a = false) (hz : isZero z) : add nan a z = a := by
  simp only [isZero, beq_iff_eq, beq_eq_false_iff_ne] at ha hz
  have hzf : isFinite z := by simp [isFinite, hz]
  have hu : units z = 0 := by
    have := natAbs_units z
    rw [unitsAbs_eq_zero.2 hz] at this
    omega
  have hn : units a ≠ 0 := by
    intro hc
    have := natAbs_units a
    rw [hc] at this
    exact ha (unitsAbs_eq_zero.1 this.symm)
  have hs : decide (units a < 0) = sign a := by
    have := natAbs_units a
    unfold units at *
    cases hsg : sign a
    · simp [hsg] at *
    · simp [hsg] at *
      omega
  simp only [add, isNaN_of_isFinite h, isInf_of_isFinite h, isNaN_of_isFinite hzf, isInf_of_isFinite hzf, hu, Bool.or_self,
    Bool.false_eq_true, if_false, Int.add_zero, hn, hs, natAbs_units]
  simpa using round_unitsAbs h (d := 1) (by decide)

end Sys2Proof.Machine.F32
end

