-- ==== Sys2Proof/Laws/State.lean ====
section
/-! SUPPORT. The small lemmas of the state updates: one per update and field, so that no later proof unfolds a record
update. -/

namespace Sys2Proof.Machine

/-! ### `writeV` -/

@[simp] theorem writeV_params (s : State) (i : Reg) (x : Word) : (s.writeV i x).params = s.params := rfl
@[simp] theorem writeV_host (s : State) (i : Reg) (x : Word) : (s.writeV i x).host = s.host := rfl
@[simp] theorem writeV_reply (s : State) (i : Reg) (x : Word) : (s.writeV i x).reply = s.reply := rfl
@[simp] theorem writeV_txn (s : State) (i : Reg) (x : Word) : (s.writeV i x).txn = s.txn := rfl
@[simp] theorem writeV_v (s : State) (i : Reg) (x : Word) : (s.writeV i x).v = s.v.set i.toNat x i.isLt := rfl
@[simp] theorem writeV_status (s : State) (i : Reg) (x : Word) : (s.writeV i x).status = s.status := rfl
@[simp] theorem writeV_sr (s : State) (i : Reg) (x : Word) : (s.writeV i x).sr = s.sr := rfl
@[simp] theorem writeV_seed (s : State) (i : Reg) (x : Word) : (s.writeV i x).seed = s.seed := rfl
@[simp] theorem writeV_rngN (s : State) (i : Reg) (x : Word) : (s.writeV i x).rngN = s.rngN := rfl
@[simp] theorem writeV_mixWet (s : State) (i : Reg) (x : Word) : (s.writeV i x).mixWet = s.mixWet := rfl
@[simp] theorem writeV_mixDry (s : State) (i : Reg) (x : Word) : (s.writeV i x).mixDry = s.mixDry := rfl
@[simp] theorem writeV_mixInt (s : State) (i : Reg) (x : Word) : (s.writeV i x).mixInt = s.mixInt := rfl
@[simp] theorem writeV_mixFb (s : State) (i : Reg) (x : Word) : (s.writeV i x).mixFb = s.mixFb := rfl
@[simp] theorem writeV_msMid (s : State) (i : Reg) (x : Word) : (s.writeV i x).msMid = s.msMid := rfl
@[simp] theorem writeV_msSide (s : State) (i : Reg) (x : Word) : (s.writeV i x).msSide = s.msSide := rfl
@[simp] theorem writeV_lfo (s : State) (i : Reg) (x : Word) : (s.writeV i x).lfo = s.lfo := rfl
@[simp] theorem writeV_dly (s : State) (i : Reg) (x : Word) : (s.writeV i x).dly = s.dly := rfl
@[simp] theorem writeV_biq (s : State) (i : Reg) (x : Word) : (s.writeV i x).biq = s.biq := rfl
@[simp] theorem writeV_apc (s : State) (i : Reg) (x : Word) : (s.writeV i x).apc = s.apc := rfl

/-! ### `setLfo` -/

@[simp] theorem setLfo_params (s : State) (u : Nat) (l : LfoUnit) : (s.setLfo u l).params = s.params := rfl
@[simp] theorem setLfo_host (s : State) (u : Nat) (l : LfoUnit) : (s.setLfo u l).host = s.host := rfl
@[simp] theorem setLfo_reply (s : State) (u : Nat) (l : LfoUnit) : (s.setLfo u l).reply = s.reply := rfl
@[simp] theorem setLfo_txn (s : State) (u : Nat) (l : LfoUnit) : (s.setLfo u l).txn = s.txn := rfl
@[simp] theorem setLfo_v (s : State) (u : Nat) (l : LfoUnit) : (s.setLfo u l).v = s.v := rfl
@[simp] theorem setLfo_status (s : State) (u : Nat) (l : LfoUnit) : (s.setLfo u l).status = s.status := rfl
@[simp] theorem setLfo_sr (s : State) (u : Nat) (l : LfoUnit) : (s.setLfo u l).sr = s.sr := rfl
@[simp] theorem setLfo_seed (s : State) (u : Nat) (l : LfoUnit) : (s.setLfo u l).seed = s.seed := rfl
@[simp] theorem setLfo_rngN (s : State) (u : Nat) (l : LfoUnit) : (s.setLfo u l).rngN = s.rngN := rfl
@[simp] theorem setLfo_mixWet (s : State) (u : Nat) (l : LfoUnit) : (s.setLfo u l).mixWet = s.mixWet := rfl
@[simp] theorem setLfo_mixDry (s : State) (u : Nat) (l : LfoUnit) : (s.setLfo u l).mixDry = s.mixDry := rfl
@[simp] theorem setLfo_mixInt (s : State) (u : Nat) (l : LfoUnit) : (s.setLfo u l).mixInt = s.mixInt := rfl
@[simp] theorem setLfo_mixFb (s : State) (u : Nat) (l : LfoUnit) : (s.setLfo u l).mixFb = s.mixFb := rfl
@[simp] theorem setLfo_msMid (s : State) (u : Nat) (l : LfoUnit) : (s.setLfo u l).msMid = s.msMid := rfl
@[simp] theorem setLfo_msSide (s : State) (u : Nat) (l : LfoUnit) : (s.setLfo u l).msSide = s.msSide := rfl
@[simp] theorem setLfo_lfo (s : State) (u : Nat) (l : LfoUnit) : (s.setLfo u l).lfo = s.lfo.set u l := rfl
@[simp] theorem setLfo_dly (s : State) (u : Nat) (l : LfoUnit) : (s.setLfo u l).dly = s.dly := rfl
@[simp] theorem setLfo_biq (s : State) (u : Nat) (l : LfoUnit) : (s.setLfo u l).biq = s.biq := rfl
@[simp] theorem setLfo_apc (s : State) (u : Nat) (l : LfoUnit) : (s.setLfo u l).apc = s.apc := rfl

/-! ### `setDly` -/

@[simp] theorem setDly_params (s : State) (u : Nat) (l : DlyUnit) : (s.setDly u l).params = s.params := rfl
@[simp] theorem setDly_host (s : State) (u : Nat) (l : DlyUnit) : (s.setDly u l).host = s.host := rfl
@[simp] theorem setDly_reply (s : State) (u : Nat) (l : DlyUnit) : (s.setDly u l).reply = s.reply := rfl
@[simp] theorem setDly_txn (s : State) (u : Nat) (l : DlyUnit) : (s.setDly u l).txn = s.txn := rfl
@[simp] theorem setDly_v (s : State) (u : Nat) (l : DlyUnit) : (s.setDly u l).v = s.v := rfl
@[simp] theorem setDly_status (s : State) (u : Nat) (l : DlyUnit) : (s.setDly u l).status = s.status := rfl
@[simp] theorem setDly_sr (s : State) (u : Nat) (l : DlyUnit) : (s.setDly u l).sr = s.sr := rfl
@[simp] theorem setDly_seed (s : State) (u : Nat) (l : DlyUnit) : (s.setDly u l).seed = s.seed := rfl
@[simp] theorem setDly_rngN (s : State) (u : Nat) (l : DlyUnit) : (s.setDly u l).rngN = s.rngN := rfl
@[simp] theorem setDly_mixWet (s : State) (u : Nat) (l : DlyUnit) : (s.setDly u l).mixWet = s.mixWet := rfl
@[simp] theorem setDly_mixDry (s : State) (u : Nat) (l : DlyUnit) : (s.setDly u l).mixDry = s.mixDry := rfl
@[simp] theorem setDly_mixInt (s : State) (u : Nat) (l : DlyUnit) : (s.setDly u l).mixInt = s.mixInt := rfl
@[simp] theorem setDly_mixFb (s : State) (u : Nat) (l : DlyUnit) : (s.setDly u l).mixFb = s.mixFb := rfl
@[simp] theorem setDly_msMid (s : State) (u : Nat) (l : DlyUnit) : (s.setDly u l).msMid = s.msMid := rfl
@[simp] theorem setDly_msSide (s : State) (u : Nat) (l : DlyUnit) : (s.setDly u l).msSide = s.msSide := rfl
@[simp] theorem setDly_lfo (s : State) (u : Nat) (l : DlyUnit) : (s.setDly u l).lfo = s.lfo := rfl
@[simp] theorem setDly_dly (s : State) (u : Nat) (l : DlyUnit) : (s.setDly u l).dly = s.dly.set u l := rfl
@[simp] theorem setDly_biq (s : State) (u : Nat) (l : DlyUnit) : (s.setDly u l).biq = s.biq := rfl
@[simp] theorem setDly_apc (s : State) (u : Nat) (l : DlyUnit) : (s.setDly u l).apc = s.apc := rfl

/-! ### `setBiq` -/

@[simp] theorem setBiq_params (s : State) (u : Nat) (b : BiqUnit) : (s.setBiq u b).params = s.params := rfl
@[simp] theorem setBiq_host (s : State) (u : Nat) (b : BiqUnit) : (s.setBiq u b).host = s.host := rfl
@[simp] theorem setBiq_reply (s : State) (u : Nat) (b : BiqUnit) : (s.setBiq u b).reply = s.reply := rfl
@[simp] theorem setBiq_txn (s : State) (u : Nat) (b : BiqUnit) : (s.setBiq u b).txn = s.txn := rfl
@[simp] theorem setBiq_v (s : State) (u : Nat) (b : BiqUnit) : (s.setBiq u b).v = s.v := rfl
@[simp] theorem setBiq_status (s : State) (u : Nat) (b : BiqUnit) : (s.setBiq u b).status = s.status := rfl
@[simp] theorem setBiq_sr (s : State) (u : Nat) (b : BiqUnit) : (s.setBiq u b).sr = s.sr := rfl
@[simp] theorem setBiq_seed (s : State) (u : Nat) (b : BiqUnit) : (s.setBiq u b).seed = s.seed := rfl
@[simp] theorem setBiq_rngN (s : State) (u : Nat) (b : BiqUnit) : (s.setBiq u b).rngN = s.rngN := rfl
@[simp] theorem setBiq_mixWet (s : State) (u : Nat) (b : BiqUnit) : (s.setBiq u b).mixWet = s.mixWet := rfl
@[simp] theorem setBiq_mixDry (s : State) (u : Nat) (b : BiqUnit) : (s.setBiq u b).mixDry = s.mixDry := rfl
@[simp] theorem setBiq_mixInt (s : State) (u : Nat) (b : BiqUnit) : (s.setBiq u b).mixInt = s.mixInt := rfl
@[simp] theorem setBiq_mixFb (s : State) (u : Nat) (b : BiqUnit) : (s.setBiq u b).mixFb = s.mixFb := rfl
@[simp] theorem setBiq_msMid (s : State) (u : Nat) (b : BiqUnit) : (s.setBiq u b).msMid = s.msMid := rfl
@[simp] theorem setBiq_msSide (s : State) (u : Nat) (b : BiqUnit) : (s.setBiq u b).msSide = s.msSide := rfl
@[simp] theorem setBiq_lfo (s : State) (u : Nat) (b : BiqUnit) : (s.setBiq u b).lfo = s.lfo := rfl
@[simp] theorem setBiq_dly (s : State) (u : Nat) (b : BiqUnit) : (s.setBiq u b).dly = s.dly := rfl
@[simp] theorem setBiq_biq (s : State) (u : Nat) (b : BiqUnit) : (s.setBiq u b).biq = s.biq.set u b := rfl
@[simp] theorem setBiq_apc (s : State) (u : Nat) (b : BiqUnit) : (s.setBiq u b).apc = s.apc := rfl

/-! ### `setApc` -/

@[simp] theorem setApc_params (s : State) (a : Nat) (c : ApcUnit) : (s.setApc a c).params = s.params := rfl
@[simp] theorem setApc_host (s : State) (a : Nat) (c : ApcUnit) : (s.setApc a c).host = s.host := rfl
@[simp] theorem setApc_reply (s : State) (a : Nat) (c : ApcUnit) : (s.setApc a c).reply = s.reply := rfl
@[simp] theorem setApc_txn (s : State) (a : Nat) (c : ApcUnit) : (s.setApc a c).txn = s.txn := rfl
@[simp] theorem setApc_v (s : State) (a : Nat) (c : ApcUnit) : (s.setApc a c).v = s.v := rfl
@[simp] theorem setApc_status (s : State) (a : Nat) (c : ApcUnit) : (s.setApc a c).status = s.status := rfl
@[simp] theorem setApc_sr (s : State) (a : Nat) (c : ApcUnit) : (s.setApc a c).sr = s.sr := rfl
@[simp] theorem setApc_seed (s : State) (a : Nat) (c : ApcUnit) : (s.setApc a c).seed = s.seed := rfl
@[simp] theorem setApc_rngN (s : State) (a : Nat) (c : ApcUnit) : (s.setApc a c).rngN = s.rngN := rfl
@[simp] theorem setApc_mixWet (s : State) (a : Nat) (c : ApcUnit) : (s.setApc a c).mixWet = s.mixWet := rfl
@[simp] theorem setApc_mixDry (s : State) (a : Nat) (c : ApcUnit) : (s.setApc a c).mixDry = s.mixDry := rfl
@[simp] theorem setApc_mixInt (s : State) (a : Nat) (c : ApcUnit) : (s.setApc a c).mixInt = s.mixInt := rfl
@[simp] theorem setApc_mixFb (s : State) (a : Nat) (c : ApcUnit) : (s.setApc a c).mixFb = s.mixFb := rfl
@[simp] theorem setApc_msMid (s : State) (a : Nat) (c : ApcUnit) : (s.setApc a c).msMid = s.msMid := rfl
@[simp] theorem setApc_msSide (s : State) (a : Nat) (c : ApcUnit) : (s.setApc a c).msSide = s.msSide := rfl
@[simp] theorem setApc_lfo (s : State) (a : Nat) (c : ApcUnit) : (s.setApc a c).lfo = s.lfo := rfl
@[simp] theorem setApc_dly (s : State) (a : Nat) (c : ApcUnit) : (s.setApc a c).dly = s.dly := rfl
@[simp] theorem setApc_biq (s : State) (a : Nat) (c : ApcUnit) : (s.setApc a c).biq = s.biq := rfl
@[simp] theorem setApc_apc (s : State) (a : Nat) (c : ApcUnit) : (s.setApc a c).apc = s.apc.set a c := rfl

/-! ### `setRngN` -/

@[simp] theorem setRngN_params (s : State) (n : Nat) : (s.setRngN n).params = s.params := rfl
@[simp] theorem setRngN_host (s : State) (n : Nat) : (s.setRngN n).host = s.host := rfl
@[simp] theorem setRngN_reply (s : State) (n : Nat) : (s.setRngN n).reply = s.reply := rfl
@[simp] theorem setRngN_txn (s : State) (n : Nat) : (s.setRngN n).txn = s.txn := rfl
@[simp] theorem setRngN_v (s : State) (n : Nat) : (s.setRngN n).v = s.v := rfl
@[simp] theorem setRngN_status (s : State) (n : Nat) : (s.setRngN n).status = s.status := rfl
@[simp] theorem setRngN_sr (s : State) (n : Nat) : (s.setRngN n).sr = s.sr := rfl
@[simp] theorem setRngN_seed (s : State) (n : Nat) : (s.setRngN n).seed = s.seed := rfl
@[simp] theorem setRngN_rngN (s : State) (n : Nat) : (s.setRngN n).rngN = n := rfl
@[simp] theorem setRngN_mixWet (s : State) (n : Nat) : (s.setRngN n).mixWet = s.mixWet := rfl
@[simp] theorem setRngN_mixDry (s : State) (n : Nat) : (s.setRngN n).mixDry = s.mixDry := rfl
@[simp] theorem setRngN_mixInt (s : State) (n : Nat) : (s.setRngN n).mixInt = s.mixInt := rfl
@[simp] theorem setRngN_mixFb (s : State) (n : Nat) : (s.setRngN n).mixFb = s.mixFb := rfl
@[simp] theorem setRngN_msMid (s : State) (n : Nat) : (s.setRngN n).msMid = s.msMid := rfl
@[simp] theorem setRngN_msSide (s : State) (n : Nat) : (s.setRngN n).msSide = s.msSide := rfl
@[simp] theorem setRngN_lfo (s : State) (n : Nat) : (s.setRngN n).lfo = s.lfo := rfl
@[simp] theorem setRngN_dly (s : State) (n : Nat) : (s.setRngN n).dly = s.dly := rfl
@[simp] theorem setRngN_biq (s : State) (n : Nat) : (s.setRngN n).biq = s.biq := rfl
@[simp] theorem setRngN_apc (s : State) (n : Nat) : (s.setRngN n).apc = s.apc := rfl

/-! ### `raise` -/

@[simp] theorem raise_params (s : State) (f : Flag) : (s.raise f).params = s.params := rfl
@[simp] theorem raise_host (s : State) (f : Flag) : (s.raise f).host = s.host := rfl
@[simp] theorem raise_reply (s : State) (f : Flag) : (s.raise f).reply = s.reply := rfl
@[simp] theorem raise_txn (s : State) (f : Flag) : (s.raise f).txn = s.txn := rfl
@[simp] theorem raise_v (s : State) (f : Flag) : (s.raise f).v = s.v := rfl
@[simp] theorem raise_status (s : State) (f : Flag) : (s.raise f).status = s.status ||| f.bit := rfl
@[simp] theorem raise_sr (s : State) (f : Flag) : (s.raise f).sr = s.sr := rfl
@[simp] theorem raise_seed (s : State) (f : Flag) : (s.raise f).seed = s.seed := rfl
@[simp] theorem raise_rngN (s : State) (f : Flag) : (s.raise f).rngN = s.rngN := rfl
@[simp] theorem raise_mixWet (s : State) (f : Flag) : (s.raise f).mixWet = s.mixWet := rfl
@[simp] theorem raise_mixDry (s : State) (f : Flag) : (s.raise f).mixDry = s.mixDry := rfl
@[simp] theorem raise_mixInt (s : State) (f : Flag) : (s.raise f).mixInt = s.mixInt := rfl
@[simp] theorem raise_mixFb (s : State) (f : Flag) : (s.raise f).mixFb = s.mixFb := rfl
@[simp] theorem raise_msMid (s : State) (f : Flag) : (s.raise f).msMid = s.msMid := rfl
@[simp] theorem raise_msSide (s : State) (f : Flag) : (s.raise f).msSide = s.msSide := rfl
@[simp] theorem raise_lfo (s : State) (f : Flag) : (s.raise f).lfo = s.lfo := rfl
@[simp] theorem raise_dly (s : State) (f : Flag) : (s.raise f).dly = s.dly := rfl
@[simp] theorem raise_biq (s : State) (f : Flag) : (s.raise f).biq = s.biq := rfl
@[simp] theorem raise_apc (s : State) (f : Flag) : (s.raise f).apc = s.apc := rfl

/-! ### `clearFlags` -/

@[simp] theorem clearFlags_params (s : State) (m : Word) : (s.clearFlags m).params = s.params := rfl
@[simp] theorem clearFlags_host (s : State) (m : Word) : (s.clearFlags m).host = s.host := rfl
@[simp] theorem clearFlags_reply (s : State) (m : Word) : (s.clearFlags m).reply = s.reply := rfl
@[simp] theorem clearFlags_txn (s : State) (m : Word) : (s.clearFlags m).txn = s.txn := rfl
@[simp] theorem clearFlags_v (s : State) (m : Word) : (s.clearFlags m).v = s.v := rfl
@[simp] theorem clearFlags_status (s : State) (m : Word) : (s.clearFlags m).status = s.status &&& ~~~(m.extractLsb' 0 4) := rfl
@[simp] theorem clearFlags_sr (s : State) (m : Word) : (s.clearFlags m).sr = s.sr := rfl
@[simp] theorem clearFlags_seed (s : State) (m : Word) : (s.clearFlags m).seed = s.seed := rfl
@[simp] theorem clearFlags_rngN (s : State) (m : Word) : (s.clearFlags m).rngN = s.rngN := rfl
@[simp] theorem clearFlags_mixWet (s : State) (m : Word) : (s.clearFlags m).mixWet = s.mixWet := rfl
@[simp] theorem clearFlags_mixDry (s : State) (m : Word) : (s.clearFlags m).mixDry = s.mixDry := rfl
@[simp] theorem clearFlags_mixInt (s : State) (m : Word) : (s.clearFlags m).mixInt = s.mixInt := rfl
@[simp] theorem clearFlags_mixFb (s : State) (m : Word) : (s.clearFlags m).mixFb = s.mixFb := rfl
@[simp] theorem clearFlags_msMid (s : State) (m : Word) : (s.clearFlags m).msMid = s.msMid := rfl
@[simp] theorem clearFlags_msSide (s : State) (m : Word) : (s.clearFlags m).msSide = s.msSide := rfl
@[simp] theorem clearFlags_lfo (s : State) (m : Word) : (s.clearFlags m).lfo = s.lfo := rfl
@[simp] theorem clearFlags_dly (s : State) (m : Word) : (s.clearFlags m).dly = s.dly := rfl
@[simp] theorem clearFlags_biq (s : State) (m : Word) : (s.clearFlags m).biq = s.biq := rfl
@[simp] theorem clearFlags_apc (s : State) (m : Word) : (s.clearFlags m).apc = s.apc := rfl

/-! ### `take` -/

@[simp] theorem take_params (s : State) (rest : List Txn) : (s.take rest).params = s.params := rfl
@[simp] theorem take_host (s : State) (rest : List Txn) : (s.take rest).host = rest := rfl
@[simp] theorem take_reply (s : State) (rest : List Txn) : (s.take rest).reply = s.reply := rfl
@[simp] theorem take_txn (s : State) (rest : List Txn) : (s.take rest).txn = s.txn + 1 := rfl
@[simp] theorem take_v (s : State) (rest : List Txn) : (s.take rest).v = s.v := rfl
@[simp] theorem take_status (s : State) (rest : List Txn) : (s.take rest).status = s.status := rfl
@[simp] theorem take_sr (s : State) (rest : List Txn) : (s.take rest).sr = s.sr := rfl
@[simp] theorem take_seed (s : State) (rest : List Txn) : (s.take rest).seed = s.seed := rfl
@[simp] theorem take_rngN (s : State) (rest : List Txn) : (s.take rest).rngN = s.rngN := rfl
@[simp] theorem take_mixWet (s : State) (rest : List Txn) : (s.take rest).mixWet = s.mixWet := rfl
@[simp] theorem take_mixDry (s : State) (rest : List Txn) : (s.take rest).mixDry = s.mixDry := rfl
@[simp] theorem take_mixInt (s : State) (rest : List Txn) : (s.take rest).mixInt = s.mixInt := rfl
@[simp] theorem take_mixFb (s : State) (rest : List Txn) : (s.take rest).mixFb = s.mixFb := rfl
@[simp] theorem take_msMid (s : State) (rest : List Txn) : (s.take rest).msMid = s.msMid := rfl
@[simp] theorem take_msSide (s : State) (rest : List Txn) : (s.take rest).msSide = s.msSide := rfl
@[simp] theorem take_lfo (s : State) (rest : List Txn) : (s.take rest).lfo = s.lfo := rfl
@[simp] theorem take_dly (s : State) (rest : List Txn) : (s.take rest).dly = s.dly := rfl
@[simp] theorem take_biq (s : State) (rest : List Txn) : (s.take rest).biq = s.biq := rfl
@[simp] theorem take_apc (s : State) (rest : List Txn) : (s.take rest).apc = s.apc := rfl

/-! ### `writeSeed` -/

@[simp] theorem writeSeed_params (s : State) (d : Word) : (s.writeSeed d).params = s.params := rfl
@[simp] theorem writeSeed_host (s : State) (d : Word) : (s.writeSeed d).host = s.host := rfl
@[simp] theorem writeSeed_reply (s : State) (d : Word) : (s.writeSeed d).reply = s.reply := rfl
@[simp] theorem writeSeed_txn (s : State) (d : Word) : (s.writeSeed d).txn = s.txn := rfl
@[simp] theorem writeSeed_v (s : State) (d : Word) : (s.writeSeed d).v = s.v := rfl
@[simp] theorem writeSeed_status (s : State) (d : Word) : (s.writeSeed d).status = s.status := rfl
@[simp] theorem writeSeed_sr (s : State) (d : Word) : (s.writeSeed d).sr = s.sr := rfl
@[simp] theorem writeSeed_seed (s : State) (d : Word) : (s.writeSeed d).seed = d := rfl
@[simp] theorem writeSeed_rngN (s : State) (d : Word) : (s.writeSeed d).rngN = 0 := rfl
@[simp] theorem writeSeed_mixWet (s : State) (d : Word) : (s.writeSeed d).mixWet = s.mixWet := rfl
@[simp] theorem writeSeed_mixDry (s : State) (d : Word) : (s.writeSeed d).mixDry = s.mixDry := rfl
@[simp] theorem writeSeed_mixInt (s : State) (d : Word) : (s.writeSeed d).mixInt = s.mixInt := rfl
@[simp] theorem writeSeed_mixFb (s : State) (d : Word) : (s.writeSeed d).mixFb = s.mixFb := rfl
@[simp] theorem writeSeed_msMid (s : State) (d : Word) : (s.writeSeed d).msMid = s.msMid := rfl
@[simp] theorem writeSeed_msSide (s : State) (d : Word) : (s.writeSeed d).msSide = s.msSide := rfl
@[simp] theorem writeSeed_lfo (s : State) (d : Word) : (s.writeSeed d).lfo = s.lfo := rfl
@[simp] theorem writeSeed_dly (s : State) (d : Word) : (s.writeSeed d).dly = s.dly := rfl
@[simp] theorem writeSeed_biq (s : State) (d : Word) : (s.writeSeed d).biq = s.biq := rfl
@[simp] theorem writeSeed_apc (s : State) (d : Word) : (s.writeSeed d).apc = s.apc := rfl

/-! ### `raiseIf` -/

@[simp] theorem raiseIf_params (s : State) (c : Bool) (f : Flag) : (s.raiseIf c f).params = s.params := by
  cases c <;> rfl
@[simp] theorem raiseIf_host (s : State) (c : Bool) (f : Flag) : (s.raiseIf c f).host = s.host := by
  cases c <;> rfl
@[simp] theorem raiseIf_reply (s : State) (c : Bool) (f : Flag) : (s.raiseIf c f).reply = s.reply := by
  cases c <;> rfl
@[simp] theorem raiseIf_txn (s : State) (c : Bool) (f : Flag) : (s.raiseIf c f).txn = s.txn := by
  cases c <;> rfl
@[simp] theorem raiseIf_v (s : State) (c : Bool) (f : Flag) : (s.raiseIf c f).v = s.v := by
  cases c <;> rfl
@[simp] theorem raiseIf_status (s : State) (c : Bool) (f : Flag) :
    (s.raiseIf c f).status = if c then s.status ||| f.bit else s.status := by
  cases c <;> rfl
@[simp] theorem raiseIf_sr (s : State) (c : Bool) (f : Flag) : (s.raiseIf c f).sr = s.sr := by
  cases c <;> rfl
@[simp] theorem raiseIf_seed (s : State) (c : Bool) (f : Flag) : (s.raiseIf c f).seed = s.seed := by
  cases c <;> rfl
@[simp] theorem raiseIf_rngN (s : State) (c : Bool) (f : Flag) : (s.raiseIf c f).rngN = s.rngN := by
  cases c <;> rfl
@[simp] theorem raiseIf_mixWet (s : State) (c : Bool) (f : Flag) : (s.raiseIf c f).mixWet = s.mixWet := by
  cases c <;> rfl
@[simp] theorem raiseIf_mixDry (s : State) (c : Bool) (f : Flag) : (s.raiseIf c f).mixDry = s.mixDry := by
  cases c <;> rfl
@[simp] theorem raiseIf_mixInt (s : State) (c : Bool) (f : Flag) : (s.raiseIf c f).mixInt = s.mixInt := by
  cases c <;> rfl
@[simp] theorem raiseIf_mixFb (s : State) (c : Bool) (f : Flag) : (s.raiseIf c f).mixFb = s.mixFb := by
  cases c <;> rfl
@[simp] theorem raiseIf_msMid (s : State) (c : Bool) (f : Flag) : (s.raiseIf c f).msMid = s.msMid := by
  cases c <;> rfl
@[simp] theorem raiseIf_msSide (s : State) (c : Bool) (f : Flag) : (s.raiseIf c f).msSide = s.msSide := by
  cases c <;> rfl
@[simp] theorem raiseIf_lfo (s : State) (c : Bool) (f : Flag) : (s.raiseIf c f).lfo = s.lfo := by
  cases c <;> rfl
@[simp] theorem raiseIf_dly (s : State) (c : Bool) (f : Flag) : (s.raiseIf c f).dly = s.dly := by
  cases c <;> rfl
@[simp] theorem raiseIf_biq (s : State) (c : Bool) (f : Flag) : (s.raiseIf c f).biq = s.biq := by
  cases c <;> rfl
@[simp] theorem raiseIf_apc (s : State) (c : Bool) (f : Flag) : (s.raiseIf c f).apc = s.apc := by
  cases c <;> rfl

@[simp] theorem raiseIf_true (s : State) (f : Flag) : s.raiseIf true f = s.raise f := rfl
@[simp] theorem raiseIf_false (s : State) (f : Flag) : s.raiseIf false f = s := rfl

/-! ### Reading a sample register -/

/-- A register reads as what was last written to it (R20). -/
@[simp] theorem readV_writeV_same (s : State) (i : Reg) (x : Word) : (s.writeV i x).readV i = x := by
  simp [State.readV]

/-- A write to one register leaves the others alone. -/
theorem readV_writeV_other (s : State) (i j : Reg) (x : Word) (h : j ≠ i) : (s.writeV i x).readV j = s.readV j := by
  have h' : i.toNat ≠ j.toNat := fun e => h (BitVec.eq_of_toNat_eq e.symm)
  simp [State.readV, h']

/-- Two states with the same register file read alike. -/
theorem readV_congr {s t : State} (h : s.v = t.v) (i : Reg) : s.readV i = t.readV i := by
  simp [State.readV, h]

@[simp] theorem setLfo_readV (s : State) (u : Nat) (l : LfoUnit) (i : Reg) : (s.setLfo u l).readV i = s.readV i := rfl
@[simp] theorem setDly_readV (s : State) (u : Nat) (l : DlyUnit) (i : Reg) : (s.setDly u l).readV i = s.readV i := rfl
@[simp] theorem setBiq_readV (s : State) (u : Nat) (b : BiqUnit) (i : Reg) : (s.setBiq u b).readV i = s.readV i := rfl
@[simp] theorem setApc_readV (s : State) (a : Nat) (c : ApcUnit) (i : Reg) : (s.setApc a c).readV i = s.readV i := rfl
@[simp] theorem setRngN_readV (s : State) (n : Nat) (i : Reg) : (s.setRngN n).readV i = s.readV i := rfl
@[simp] theorem raise_readV (s : State) (f : Flag) (i : Reg) : (s.raise f).readV i = s.readV i := rfl
@[simp] theorem clearFlags_readV (s : State) (m : Word) (i : Reg) : (s.clearFlags m).readV i = s.readV i := rfl
@[simp] theorem take_readV (s : State) (rest : List Txn) (i : Reg) : (s.take rest).readV i = s.readV i := rfl
@[simp] theorem writeSeed_readV (s : State) (d : Word) (i : Reg) : (s.writeSeed d).readV i = s.readV i := rfl
@[simp] theorem raiseIf_readV (s : State) (c : Bool) (f : Flag) (i : Reg) :
    (s.raiseIf c f).readV i = s.readV i := by
  cases c <;> rfl

end Sys2Proof.Machine
end

