-- ==== Sys2Proof/Laws/Ops.lean ====
section
/-! SUPPORT. One lemma per shared operation: what it answers, said once. -/

namespace Sys2Proof.Machine

/-- What a drawn NaN is (U1). -/
@[simp] theorem isNaN_nan (s : State) (k : Nat) : F32.isNaN (s.nan k) = true := F32.isNaN_nanOf _

/-- An illegal command answers the state with `ILLCMD` set (R88). -/
theorem illegalCommand_eq (s : State) : illegalCommand s = .next (s.raise .illcmd) := rfl

/-! ### Delay lines -/

/-- A circular index is inside a line that has a length (R67). -/
theorem slot_lt {n : Nat} (h : 0 < n) (i : Int) : slot n i < n := by
  have h1 := Int.emod_nonneg i (show (n : Int) ≠ 0 by omega)
  have h2 := Int.emod_lt_of_pos i (show (0 : Int) < n by omega)
  unfold slot
  omega

/-- What a push leaves in a line: the advanced cursor, the two words in the slot it names, every other slot as it was,
the parameters untouched (R145, R147). -/
theorem push_spec {l : DlyUnit} (hx : l.x.wf) (hy : l.y.wf) (x y : Word) :
    (l.push x y).w = slot l.n ((l.w : Int) + 1) ∧
    (l.push x y).x.read (l.push x y).w = x ∧ (l.push x y).y.read (l.push x y).w = y ∧
    (∀ k, k ≠ (l.push x y).w → (l.push x y).x.read k = l.x.read k ∧ (l.push x y).y.read k = l.y.read k) ∧
    (l.push x y).size = l.size ∧ (l.push x y).n = l.n ∧ (l.push x y).fb = l.fb ∧ (l.push x y).sized = l.sized :=
  ⟨rfl, Memory.read_write_same hx _ _, Memory.read_write_same hy _ _,
    fun _ h => ⟨Memory.read_write_other _ h _, Memory.read_write_other _ h _⟩, rfl, rfl, rfl, rfl⟩

/-- What `DLY.INIT` leaves in a line (R142). -/
theorem init_spec (l : DlyUnit) :
    l.init.n = l.size ∧ l.init.w = 0 ∧ l.init.sized = true ∧ l.init.size = l.size ∧ l.init.fb = l.fb ∧
    (∀ k, l.init.x.read k = if k < l.size then F32.zero else l.x.read k) ∧
    (∀ k, l.init.y.read k = if k < l.size then F32.zero else l.y.read k) :=
  ⟨rfl, rfl, rfl, rfl, rfl, fun _ => Memory.read_clearBelow _ _ _, fun _ => Memory.read_clearBelow _ _ _⟩

/-- A sized legal line stays legal when pushed. -/
theorem legal_push {cap : Nat} {l : DlyUnit} (h : l.legal cap) (hs : l.sized) (x y : Word) :
    (l.push x y).legal cap := by
  simp only [DlyUnit.legal, Bool.and_eq_true, decide_eq_true_eq, Bool.or_eq_true, Bool.not_eq_true'] at h ⊢
  obtain ⟨⟨⟨⟨⟨⟨⟨h1, h2, h3, h4⟩, h5⟩, h6⟩, h7⟩, h8⟩, h9⟩, h10⟩ := h
  have hn : 1 ≤ l.n := h5.resolve_left (by simp [hs])
  have hw : l.next < l.n := slot_lt (by omega) _
  have hc : decide (l.next < cap) = true := by simp; omega
  refine ⟨⟨⟨⟨⟨⟨⟨h1, h2, h3, .inl hw⟩, .inr hn⟩, h6⟩, Memory.wf_write h7 _ _⟩, Memory.wf_write h8 _ _⟩, ?_⟩, ?_⟩
  · exact Memory.keys_write (p := fun k => decide (k < cap)) h9 hc x
  · exact Memory.keys_write (p := fun k => decide (k < cap)) h10 hc y

/-- A legal line stays legal when initialised. -/
theorem legal_init {cap : Nat} {l : DlyUnit} (h : l.legal cap) : l.init.legal cap := by
  simp only [DlyUnit.legal, Bool.and_eq_true, decide_eq_true_eq, Bool.or_eq_true, Bool.not_eq_true'] at h ⊢
  obtain ⟨⟨⟨⟨⟨⟨⟨h1, h2, h3, h4⟩, h5⟩, h6⟩, h7⟩, h8⟩, h9⟩, h10⟩ := h
  exact ⟨⟨⟨⟨⟨⟨⟨h1, h2, h2, .inl h1⟩, .inr h1⟩, h6⟩, Memory.wf_clearBelow h7 _⟩, Memory.wf_clearBelow h8 _⟩,
    Memory.keys_clearBelow h9 _⟩, Memory.keys_clearBelow h10 _⟩

/-! ### LFO -/

/-- The safety net answers a legal phase, whatever it is given (R127, R31). -/
theorem lfoNet_within (p : Word) : F32.within F32.zero (lfoNet p) F32.phaseMax := by
  unfold lfoNet
  split
  · decide
  · rename_i h
    simp only [Bool.or_eq_true, not_or, Bool.not_eq_true] at h
    rw [F32.within, Bool.and_eq_true]
    exact ⟨F32.le_of_not_lt h.1.2 (by decide) (by simp [h.2]),
      F32.le_of_not_lt (by decide) h.1.2 (by simpa [F32.gt] using h.1.1)⟩

/-! ### Sections -/

/-- A step of a section changes the cells of its channel only (R40, R181). -/
theorem step_spec (d : Nat → Word) (b : Section) (ch : Channel) (x : Word) :
    (b.step d ch x).1 = postScale d b.coeffs (recurrence d b.coeffs (b.cells ch) x) x ∧
    (b.step d ch x).2.coeffs = b.coeffs ∧
    (b.step d ch x).2.cells ch = (b.cells ch).shift x (recurrence d b.coeffs (b.cells ch) x) ∧
    (∀ c, c ≠ ch → (b.step d ch x).2.cells c = b.cells c) := by
  cases ch <;> refine ⟨rfl, rfl, rfl, fun c hc => ?_⟩ <;> cases c <;> first | rfl | exact absurd rfl hc

/-- A cascade keeps the number of stages and every stage's frequency and coefficients (R203). -/
theorem cascade_spec (d : Nat → Word) (ch : Channel) (n : Nat) (stages : List Stage) (x : Word) :
    (cascade d ch n stages x).2.map (fun st => (st.freq, st.sec.coeffs)) =
      stages.map (fun st => (st.freq, st.sec.coeffs)) := by
  induction n generalizing d stages x with
  | zero => rfl
  | succ n ih =>
    cases stages with
    | nil => rfl
    | cons st rest =>
      simp only [cascade, List.map_cons, ih, (step_spec d st.sec ch x).2.1]

/-- A cascade keeps the number of stages. -/
theorem cascade_length (d : Nat → Word) (ch : Channel) (n : Nat) (stages : List Stage) (x : Word) :
    (cascade d ch n stages x).2.length = stages.length := by
  simpa using congrArg List.length (cascade_spec d ch n stages x)

/-- Recomputing a cascade keeps the number of stages. -/
theorem recompute_length (sel : CoefSel) (sr : Word) (c : ApcUnit) :
    (c.recompute sel sr).stages.length = c.stages.length := by
  simp [ApcUnit.recompute]
  omega

/-! ### Replacing one unit of a list -/

/-- If every unit has a property and the new unit has it, every unit has it afterwards. -/
theorem all_set {α : Type} {p : α → Bool} {xs : List α} (h : xs.all p) (u : Nat) {x : α} (hx : p x) :
    (xs.set u x).all p := by
  simp only [List.all_eq_true] at *
  intro y hy
  rcases List.mem_or_eq_of_mem_set hy with hy | rfl
  · exact h y hy
  · exact hx

/-- A unit that is there has the property every unit has. -/
theorem of_all_get {α : Type} {p : α → Bool} {xs : List α} (h : xs.all p) {u : Nat} {x : α} (hx : xs[u]? = some x) :
    p x := List.all_eq_true.1 h x (List.mem_of_getElem? hx)

/-! ### The port -/

/-- A write to `CMD` executes the word (R26, R101). -/
theorem memWrite_cmd (data : Word) (s : State) : memWrite 0 data s = execute data s := rfl

/-- A step with a transaction pending performs it (R100). -/
theorem step_cons {s : State} {t : Txn} {rest : List Txn} (h : s.host = t :: rest) :
    step s = transact t (s.take rest) := by
  simp [step, hostStep, h]

/-- A step with nothing pending holds the state (R273). -/
theorem step_nil {s : State} (h : s.host = []) : step s = .next s := by
  simp [step, hostStep, h]

end Sys2Proof.Machine
end

