-- ==== Sys2Proof/Laws/PerInstr.lean ====
section
/-! SUPPORT. The per-command family `EncodeFits`: the word a command is encoded to fits the mask and match of its row of the
opcode map (spec/30_encoding.md R82, R86, R87), for every operand. -/

namespace Sys2Proof

/-- The bits of an assembled word, one by one (R81). -/
theorem getLsbD_pack (op : BitVec 8) (rd ra rb : Reg) (ch : BitVec 1) (u : UnitIdx) {k : Nat} (hk : k < 32) :
    (pack op rd ra rb ch u).getLsbD k =
      if k < 8 then u.getLsbD k
      else if k < 11 then false
      else if k < 12 then ch.getLsbD (k - 11)
      else if k < 16 then rb.getLsbD (k - 12)
      else if k < 20 then ra.getLsbD (k - 16)
      else if k < 24 then rd.getLsbD (k - 20)
      else op.getLsbD (k - 24) := by
  simp only [pack, BitVec.getLsbD_append]
  interval_cases k <;> rfl

/-- The opcode field of an assembled word (R81). -/
theorem op_pack (op : BitVec 8) (rd ra rb : Reg) (ch : BitVec 1) (u : UnitIdx) :
    Word.op (pack op rd ra rb ch u) = op := by
  apply BitVec.eq_of_getLsbD_eq
  intro k hk
  rw [Word.op, BitVec.getLsbD_extractLsb', getLsbD_pack _ _ _ _ _ _ (by omega)]
  interval_cases k <;> rfl

namespace Laws.EncodeFits

/-- The encoding of a command fits its row: it has the row's opcode, and the row's match under the row's mask. -/
def Statement (i : Instr) : Prop := Word.op (encode i) = i.row.code ∧ encode i &&& i.row.mask = i.row.pattern

theorem nop : Statement (.nop) := by
  refine ⟨op_pack _ _ _ _ _ _, BitVec.eq_of_getLsbD_eq fun k hk => ?_⟩
  rw [BitVec.getLsbD_and, encode, getLsbD_pack _ _ _ _ _ _ hk]
  interval_cases k <;> simp [Instr.row, Op.mask, Op.pattern]

theorem lfoInit (u : UnitIdx) : Statement (.lfoInit u) := by
  refine ⟨op_pack _ _ _ _ _ _, BitVec.eq_of_getLsbD_eq fun k hk => ?_⟩
  rw [BitVec.getLsbD_and, encode, getLsbD_pack _ _ _ _ _ _ hk]
  interval_cases k <;> simp [Instr.row, Op.mask, Op.pattern]

theorem lfoInitp (ra : Reg) (u : UnitIdx) : Statement (.lfoInitp ra u) := by
  refine ⟨op_pack _ _ _ _ _ _, BitVec.eq_of_getLsbD_eq fun k hk => ?_⟩
  rw [BitVec.getLsbD_and, encode, getLsbD_pack _ _ _ _ _ _ hk]
  interval_cases k <;> simp [Instr.row, Op.mask, Op.pattern]

theorem lfoInitr (u : UnitIdx) : Statement (.lfoInitr u) := by
  refine ⟨op_pack _ _ _ _ _ _, BitVec.eq_of_getLsbD_eq fun k hk => ?_⟩
  rw [BitVec.getLsbD_and, encode, getLsbD_pack _ _ _ _ _ _ hk]
  interval_cases k <;> simp [Instr.row, Op.mask, Op.pattern]

theorem lfoNext (rd : Reg) (u : UnitIdx) : Statement (.lfoNext rd u) := by
  refine ⟨op_pack _ _ _ _ _ _, BitVec.eq_of_getLsbD_eq fun k hk => ?_⟩
  rw [BitVec.getLsbD_and, encode, getLsbD_pack _ _ _ _ _ _ hk]
  interval_cases k <;> simp [Instr.row, Op.mask, Op.pattern]

theorem lfoRange (rd ra rb : Reg) (u : UnitIdx) : Statement (.lfoRange rd ra rb u) := by
  refine ⟨op_pack _ _ _ _ _ _, BitVec.eq_of_getLsbD_eq fun k hk => ?_⟩
  rw [BitVec.getLsbD_and, encode, getLsbD_pack _ _ _ _ _ _ hk]
  interval_cases k <;> simp [Instr.row, Op.mask, Op.pattern]

theorem lfoAdv (u : UnitIdx) : Statement (.lfoAdv u) := by
  refine ⟨op_pack _ _ _ _ _ _, BitVec.eq_of_getLsbD_eq fun k hk => ?_⟩
  rw [BitVec.getLsbD_and, encode, getLsbD_pack _ _ _ _ _ _ hk]
  interval_cases k <;> simp [Instr.row, Op.mask, Op.pattern]

theorem dlyInit (u : UnitIdx) : Statement (.dlyInit u) := by
  refine ⟨op_pack _ _ _ _ _ _, BitVec.eq_of_getLsbD_eq fun k hk => ?_⟩
  rw [BitVec.getLsbD_and, encode, getLsbD_pack _ _ _ _ _ _ hk]
  interval_cases k <;> simp [Instr.row, Op.mask, Op.pattern]

theorem dlyProci (rd ra rb : Reg) (u : UnitIdx) : Statement (.dlyProci rd ra rb u) := by
  refine ⟨op_pack _ _ _ _ _ _, BitVec.eq_of_getLsbD_eq fun k hk => ?_⟩
  rw [BitVec.getLsbD_and, encode, getLsbD_pack _ _ _ _ _ _ hk]
  interval_cases k <;> simp [Instr.row, Op.mask, Op.pattern]

theorem dlyProcf (rd ra rb : Reg) (u : UnitIdx) : Statement (.dlyProcf rd ra rb u) := by
  refine ⟨op_pack _ _ _ _ _ _, BitVec.eq_of_getLsbD_eq fun k hk => ?_⟩
  rw [BitVec.getLsbD_and, encode, getLsbD_pack _ _ _ _ _ _ hk]
  interval_cases k <;> simp [Instr.row, Op.mask, Op.pattern]

theorem biqSet (u : UnitIdx) : Statement (.biqSet u) := by
  refine ⟨op_pack _ _ _ _ _ _, BitVec.eq_of_getLsbD_eq fun k hk => ?_⟩
  rw [BitVec.getLsbD_and, encode, getLsbD_pack _ _ _ _ _ _ hk]
  interval_cases k <;> simp [Instr.row, Op.mask, Op.pattern]

theorem biqProc (rd ra : Reg) (ch : Channel) (u : UnitIdx) : Statement (.biqProc rd ra ch u) := by
  refine ⟨op_pack _ _ _ _ _ _, BitVec.eq_of_getLsbD_eq fun k hk => ?_⟩
  rw [BitVec.getLsbD_and, encode, getLsbD_pack _ _ _ _ _ _ hk]
  interval_cases k <;> simp [Instr.row, Op.mask, Op.pattern]

theorem biqRst (u : UnitIdx) : Statement (.biqRst u) := by
  refine ⟨op_pack _ _ _ _ _ _, BitVec.eq_of_getLsbD_eq fun k hk => ?_⟩
  rw [BitVec.getLsbD_and, encode, getLsbD_pack _ _ _ _ _ _ hk]
  interval_cases k <;> simp [Instr.row, Op.mask, Op.pattern]

theorem apcSet (a : UnitIdx) : Statement (.apcSet a) := by
  refine ⟨op_pack _ _ _ _ _ _, BitVec.eq_of_getLsbD_eq fun k hk => ?_⟩
  rw [BitVec.getLsbD_and, encode, getLsbD_pack _ _ _ _ _ _ hk]
  interval_cases k <;> simp [Instr.row, Op.mask, Op.pattern]

theorem apcProc (rd ra : Reg) (ch : Channel) (a : UnitIdx) : Statement (.apcProc rd ra ch a) := by
  refine ⟨op_pack _ _ _ _ _ _, BitVec.eq_of_getLsbD_eq fun k hk => ?_⟩
  rw [BitVec.getLsbD_and, encode, getLsbD_pack _ _ _ _ _ _ hk]
  interval_cases k <;> simp [Instr.row, Op.mask, Op.pattern]

theorem apcRst (a : UnitIdx) : Statement (.apcRst a) := by
  refine ⟨op_pack _ _ _ _ _ _, BitVec.eq_of_getLsbD_eq fun k hk => ?_⟩
  rw [BitVec.getLsbD_and, encode, getLsbD_pack _ _ _ _ _ _ hk]
  interval_cases k <;> simp [Instr.row, Op.mask, Op.pattern]

theorem mixWd (rd ra rb : Reg) : Statement (.mixWd rd ra rb) := by
  refine ⟨op_pack _ _ _ _ _ _, BitVec.eq_of_getLsbD_eq fun k hk => ?_⟩
  rw [BitVec.getLsbD_and, encode, getLsbD_pack _ _ _ _ _ _ hk]
  interval_cases k <;> simp [Instr.row, Op.mask, Op.pattern]

theorem mixInt (rd ra rb : Reg) : Statement (.mixInt rd ra rb) := by
  refine ⟨op_pack _ _ _ _ _ _, BitVec.eq_of_getLsbD_eq fun k hk => ?_⟩
  rw [BitVec.getLsbD_and, encode, getLsbD_pack _ _ _ _ _ _ hk]
  interval_cases k <;> simp [Instr.row, Op.mask, Op.pattern]

theorem mixFb (rd ra rb : Reg) : Statement (.mixFb rd ra rb) := by
  refine ⟨op_pack _ _ _ _ _ _, BitVec.eq_of_getLsbD_eq fun k hk => ?_⟩
  rw [BitVec.getLsbD_and, encode, getLsbD_pack _ _ _ _ _ _ hk]
  interval_cases k <;> simp [Instr.row, Op.mask, Op.pattern]

theorem msL (rd ra rb : Reg) : Statement (.msL rd ra rb) := by
  refine ⟨op_pack _ _ _ _ _ _, BitVec.eq_of_getLsbD_eq fun k hk => ?_⟩
  rw [BitVec.getLsbD_and, encode, getLsbD_pack _ _ _ _ _ _ hk]
  interval_cases k <;> simp [Instr.row, Op.mask, Op.pattern]

theorem msR (rd ra rb : Reg) : Statement (.msR rd ra rb) := by
  refine ⟨op_pack _ _ _ _ _ _, BitVec.eq_of_getLsbD_eq fun k hk => ?_⟩
  rw [BitVec.getLsbD_and, encode, getLsbD_pack _ _ _ _ _ _ hk]
  interval_cases k <;> simp [Instr.row, Op.mask, Op.pattern]

end Laws.EncodeFits

end Sys2Proof
end

