-- ==== Sys2Proof/Laws/Response.lean ====
section
/-! SUPPORT. What holding a coefficient set to the testable properties of R187 and R206 answers, said once: always a set that
meets them, the set itself if it does, with its post-scale. -/

namespace Sys2Proof.Machine

/-- The properties do not look at the post-scale. -/
theorem properties_postScale (fc fs : Word) (k : Coeffs) (c0 d0 : Word) :
    passesThrough { k with c0, d0 } = passesThrough k ∧ meetsScenario { k with c0, d0 } = meetsScenario k ∧
    notches fc fs { k with c0, d0 } = notches fc fs k ∧ keepsMagnitude fc fs { k with c0, d0 } = keepsMagnitude fc fs k ∧
    altersPhase { k with c0, d0 } = altersPhase k := ⟨rfl, rfl, rfl, rfl, rfl⟩

/-! ### The stand-ins -/

/-- The identity passes its input through. -/
theorem identity_passesThrough (k : Coeffs) : passesThrough (feedForward F32.one F32.zero F32.zero k) :=
  show passesThrough (feedForward F32.one F32.zero F32.zero .zero) by decide +kernel

/-- The `LP2` row of T3.6 meets the scenario (T3.7). -/
theorem row_meetsScenario (k : Coeffs) :
    meetsScenario { k with a0 := 0x3B96DCC0, a1 := 0x3C16DCC0, a2 := 0x3B96DCC0, b0 := 0xBFE647FA, b1 := 0x3F5146DA } :=
  show meetsScenario ⟨0x3B96DCC0, 0x3C16DCC0, 0x3B96DCC0, 0xBFE647FA, 0x3F5146DA, 0, 0⟩ by decide +kernel

/-- Polynomials of equal magnitude agree, whatever the angle. -/
theorem magnitudesAgree_of_power {p q : Poly} {w : Cosine} (h : power p w = power q w) (h0 : 0 ≤ power q w) :
    magnitudesAgree p q w := by
  simp only [magnitudesAgree, h, Int.sub_self, decide_eq_true_eq]
  nlinarith [mul_nonneg (sq_nonneg (oneUnits * w.d)) h0]

/-- A delay by two samples keeps the magnitude and alters the phase. -/
theorem delay_isAllpass (fc fs : Word) (k : Coeffs) :
    keepsMagnitude fc fs (feedForward F32.zero F32.zero F32.one k) ∧
    altersPhase (feedForward F32.zero F32.zero F32.one k) := by
  have hf : forward (feedForward F32.zero F32.zero F32.one k) = ⟨0, 0, oneUnits⟩ :=
    show forward (feedForward F32.zero F32.zero F32.one .zero) = _ by decide
  have hb : feedback (feedForward F32.zero F32.zero F32.one k) = ⟨oneUnits, 0, 0⟩ :=
    show feedback (feedForward F32.zero F32.zero F32.one .zero) = _ by decide
  refine ⟨?_, show altersPhase (feedForward F32.zero F32.zero F32.one .zero) by decide⟩
  rw [keepsMagnitude, hf, hb, Bool.and_eq_true, List.all_eq_true]
  exact ⟨show finiteSet (feedForward F32.zero F32.zero F32.one .zero) by decide, fun w _ =>
    magnitudesAgree_of_power (by simp only [power]; ring) (by simp only [power]; nlinarith [sq_nonneg (oneUnits * w.d)])⟩

/-! ### A notch at every argument at which it is tested (R187) -/

/-- One step of the series of a cosine, from the inside out. -/
def seriesStep (x2 : Int) (k : Nat) (c : Int) : Int := fixOne - x2 * c / ((2 * k + 1) * (2 * k + 2) * fixOne)

/-- The inner terms of the series stay between 3/4 and 1. -/
theorem series_inner {x2 : Int} (h0 : 0 ≤ x2) (h1 : x2 ≤ 3 * fixOne) (ks : List Nat) (hk : ∀ k ∈ ks, 1 ≤ k) :
    3 * fixOne ≤ 4 * ks.foldr (seriesStep x2) fixOne ∧ ks.foldr (seriesStep x2) fixOne ≤ fixOne := by
  induction ks with
  | nil => exact ⟨by rw [List.foldr_nil]; decide, by rw [List.foldr_nil]⟩
  | cons k ks ih =>
    obtain ⟨l, u⟩ := ih (fun j hj => hk j (List.mem_cons_of_mem _ hj))
    have hk1 : (1 : Int) ≤ k := by exact_mod_cast hk k List.mem_cons_self
    rw [List.foldr_cons]
    set c := ks.foldr (seriesStep x2) fixOne
    have hD : (0 : Int) < fixOne := by decide
    have hc : 0 ≤ c := by omega
    have hden : 12 * fixOne ≤ (2 * (k : Int) + 1) * (2 * k + 2) * fixOne :=
      Int.mul_le_mul_of_nonneg_right (by nlinarith) hD.le
    have hnum : x2 * c ≤ 3 * fixOne * fixOne := mul_le_mul h1 u hc (by omega)
    have ht0 : 0 ≤ x2 * c / ((2 * (k : Int) + 1) * (2 * k + 2) * fixOne) :=
      Int.ediv_nonneg (mul_nonneg h0 hc) (by omega)
    have ht1 : x2 * c / ((2 * (k : Int) + 1) * (2 * k + 2) * fixOne) ≤ 2 ^ 58 := by
      apply Int.ediv_le_of_le_mul (by omega)
      have h58 : (2 : Int) ^ 58 * (12 * fixOne) ≤ 2 ^ 58 * ((2 * (k : Int) + 1) * (2 * k + 2) * fixOne) :=
        Int.mul_le_mul_of_nonneg_left hden (by positivity)
      have h59 : 3 * fixOne * fixOne = (2 : Int) ^ 58 * (12 * fixOne) := by decide
      omega
    have hf : fixOne = 4 * 2 ^ 58 := by decide
    unfold seriesStep
    omega

/-- From 1/100 to 6/25 of a turn the fixed-point cosine lies between −1/4 and 1 − 1/1024. -/
theorem cosTurn_bounds {a b : Int} (hb : 0 < b) (h1 : b ≤ 100 * a) (h2 : 100 * a ≤ 24 * b) :
    (cosTurn a b).d = fixOne ∧ -fixOne ≤ 4 * (cosTurn a b).n ∧ fixOne ≤ 1024 * (fixOne - (cosTurn a b).n) := by
  refine ⟨rfl, ?_⟩
  have hpi : (0 : Int) < fixPi := by decide
  set x := 2 * fixPi * a / b with hx
  have x1 : 72440194580771228 ≤ x := Int.le_ediv_of_mul_le hb (by simp only [fixPi]; omega)
  have x2 : x ≤ 1738564669938509483 := Int.ediv_le_of_le_mul hb (by simp only [fixPi]; omega)
  have y1 : 2 * fixOne ≤ 600 * (x * x / fixOne) := by
    have : 2 ^ 60 / 300 + 1 ≤ x * x / fixOne := Int.le_ediv_of_mul_le (by decide) (by
      have := mul_le_mul x1 x1 (by decide) (by omega); simp only [fixOne]; omega)
    simp only [fixOne] at *; omega
  have y2 : 2 * (x * x / fixOne) ≤ 5 * fixOne := by
    have : x * x / fixOne ≤ 5 * 2 ^ 59 := Int.ediv_le_of_le_mul (by decide) (by
      have := mul_le_mul x2 x2 (by omega) (by decide); simp only [fixOne]; omega)
    simp only [fixOne] at *; omega
  set y := x * x / fixOne with hy
  have hy0 : 0 ≤ y := by simp only [fixOne] at y1; omega
  have hn : (cosTurn a b).n =
      seriesStep y 0 ([1, 2, 3, 4, 5, 6, 7, 8, 9, 10, 11, 12, 13, 14, 15].foldr (seriesStep y) fixOne) := rfl
  obtain ⟨l, u⟩ := series_inner hy0 (by simp only [fixOne] at *; omega)
    [1, 2, 3, 4, 5, 6, 7, 8, 9, 10, 11, 12, 13, 14, 15] (by decide)
  rw [hn]
  set c := [1, 2, 3, 4, 5, 6, 7, 8, 9, 10, 11, 12, 13, 14, 15].foldr (seriesStep y) fixOne
  have hc : 0 ≤ c := by simp only [fixOne] at l; omega
  have t1 : y * c / ((2 * ((0 : Nat) : Int) + 1) * (2 * ((0 : Nat) : Int) + 2) * fixOne) ≤ 5 * 2 ^ 58 :=
    Int.ediv_le_of_le_mul (by decide) (by
      have := mul_le_mul (show y ≤ 5 * 2 ^ 59 by simp only [fixOne] at y2; omega) u hc (by decide)
      simp only [fixOne] at *; push_cast; omega)
  have t2 : 2 ^ 50 ≤ y * c / ((2 * ((0 : Nat) : Int) + 1) * (2 * ((0 : Nat) : Int) + 2) * fixOne) :=
    Int.le_ediv_of_mul_le (by decide) (by
      have := mul_le_mul (show (2 : Int) ^ 60 / 300 ≤ y by simp only [fixOne] at y1; omega)
        (show 3 * 2 ^ 58 ≤ c by simp only [fixOne] at l; omega) (by decide) hy0
      simp only [fixOne] at *; push_cast; omega)
  unfold seriesStep
  simp only [fixOne] at *
  omega

/-- The zero pair suppresses: with the error `E` of its middle coefficient, `10·|E| < |E − G|`. -/
theorem zeroPair_notches {fc q fs : Word} (h : notchArgs fc q fs) (k : Coeffs) :
    notches fc fs (zeroPair (cosTurn (F32.units fc) (F32.units fs)) k) := by
  simp only [notchArgs, ratioWithin, Bool.and_eq_true, decide_eq_true_eq] at h
  obtain ⟨⟨⟨_, _⟩, _, hb, h1, h2⟩, _⟩ := h
  obtain ⟨hd, hl, hu⟩ := cosTurn_bounds hb h1 h2
  set w := cosTurn (F32.units fc) (F32.units fs) with hw
  have hN : 2 * w.n.natAbs * 2 ^ 149 < 2 ^ 151 * w.d.natAbs := by
    rw [hd]; simp only [fixOne] at *; omega
  obtain ⟨hf, e1, e2⟩ := F32.round_error (decide (0 < w.n)) (by rw [hd]; decide) hN
  set r := F32.round (decide (0 < w.n)) (2 * w.n.natAbs * 2 ^ 149) w.d.natAbs with hr
  have hs : F32.sign r = decide (0 < w.n) := F32.sign_round _ _ _
  have hunits : |F32.units r * fixOne + 2 * oneUnits * w.n| ≤ 2 ^ 126 * fixOne := by
    have hdn : w.d.natAbs = 2 ^ 60 := by rw [hd]; rfl
    rw [hdn] at e1 e2
    rw [abs_le]
    unfold F32.units
    rw [hs]
    simp only [fixOne, oneUnits, decide_eq_true_eq]
    split <;> omega
  set E := F32.units r * fixOne + 2 * oneUnits * w.n with hE
  have hset : settles (zeroPair w k) := by
    have hz : F32.isFinite F32.zero = true := by decide
    have ho : F32.isFinite F32.one = true := by decide
    have hu0 : F32.units F32.zero = 0 := by decide
    simp only [settles, finiteSet, polesWithin, zeroPair, feedForward, hz, ho, hu0, ← hr, hf, Bool.and_self, Bool.true_and]
    decide
  have hone : F32.units F32.one = oneUnits := by decide
  have hzero : F32.units F32.zero = 0 := by decide
  have hfw : forward (zeroPair w k) = ⟨oneUnits, F32.units r, oneUnits⟩ := by
    simp only [forward, zeroPair, feedForward, hone, ← hr]
  have hfb : feedback (zeroPair w k) = ⟨oneUnits, 0, 0⟩ := by
    simp only [feedback, zeroPair, feedForward, hzero]
  rw [notches]
  simp only [hset, Bool.true_and, decide_eq_true_eq, ← hw, hfw, hfb]
  set G := 2 * oneUnits * (2 * w.n + fixOne) * (fixOne - w.n) with hG
  have hpw : power ⟨oneUnits, F32.units r, oneUnits⟩ w = E ^ 2 := by
    simp only [power, hd, hE]; ring
  have hpw2 : power ⟨oneUnits, F32.units r, oneUnits⟩ (doubled w) = (fixOne * E - G) ^ 2 := by
    simp only [power, doubled, hd, hE, hG]; ring
  have hb1 : power ⟨oneUnits, 0, 0⟩ w = oneUnits ^ 2 * fixOne ^ 2 := by simp only [power, hd]; ring
  have hb2 : power ⟨oneUnits, 0, 0⟩ (doubled w) = oneUnits ^ 2 * fixOne ^ 4 := by
    simp only [power, doubled, hd]; ring
  rw [hpw, hpw2, hb1, hb2]
  have hG1 : 11 * (2 ^ 126 * fixOne) * fixOne < G := by
    have g1 : 2 ^ 59 ≤ 2 * w.n + fixOne := by simp only [fixOne] at *; omega
    have g2 : 2 ^ 50 ≤ fixOne - w.n := by simp only [fixOne] at *; omega
    have g3 := mul_le_mul g1 g2 (by decide) (by omega)
    have g4 : G = 2 * oneUnits * ((2 * w.n + fixOne) * (fixOne - w.n)) := by rw [hG]; ring
    rw [g4]
    generalize (2 * w.n + fixOne) * (fixOne - w.n) = m at g3 ⊢
    simp only [fixOne, oneUnits] at *
    omega
  have hfp : (0 : Int) < fixOne := by decide
  obtain ⟨b1, b2⟩ := abs_le.1 hunits
  have hsq : (10 * (fixOne * E)) ^ 2 < (fixOne * E - G) ^ 2 := by
    rw [show (fixOne * E - G) ^ 2 = (G - fixOne * E) ^ 2 by ring]
    apply sq_lt_sq'
    all_goals
      have := mul_le_mul_of_nonneg_left b1 hfp.le
      have := mul_le_mul_of_nonneg_left b2 hfp.le
      generalize fixOne * E = F at *
      simp only [fixOne] at *
      omega
  have hp : (0 : Int) < oneUnits ^ 2 * fixOne ^ 2 := by decide
  calc 100 * E ^ 2 * (oneUnits ^ 2 * fixOne ^ 4) = (10 * (fixOne * E)) ^ 2 * (oneUnits ^ 2 * fixOne ^ 2) := by ring
    _ < _ := mul_lt_mul_of_pos_right hsq hp
/-! ### Holding a set to the properties -/

/-- The stand-in meets the properties, at all arguments. -/
theorem standIn_meets (t : BiquadType) (fc q fs : Word) (k : Coeffs) : meetsProperties t fc q fs (standIn t fc q fs k) := by
  have hlow : ∀ {u}, u ≠ .notch → u ≠ .ap2 → scenarioArgs u fc q fs = false →
      standIn u fc q fs k = feedForward F32.one F32.zero F32.zero k := fun h1 h2 h3 => by simp [standIn, h1, h2, h3]
  cases t with
  | lp1 => simp [meetsProperties, hlow (u := .lp1) nofun nofun rfl, identity_passesThrough k]
  | lp2 =>
    cases hs : scenarioArgs .lp2 fc q fs with
    | false => simp [meetsProperties, hlow (u := .lp2) nofun nofun hs, hs, identity_passesThrough k]
    | true =>
      have hfar : farAbove fc fs = false := by
        simp only [scenarioArgs, Bool.and_eq_true, beq_iff_eq] at hs
        rw [hs.1.1.2, hs.2]
        decide
      rw [meetsProperties, standIn, if_pos hs, row_meetsScenario k, hfar]
      simp
  | notch =>
    have : standIn .notch fc q fs k = zeroPair (cosTurn (F32.units fc) (F32.units fs)) k := rfl
    cases h : notchArgs fc q fs with
    | false => simp [meetsProperties, h]
    | true => simp [meetsProperties, this, zeroPair_notches h k]
  | ap2 =>
    have : standIn .ap2 fc q fs k = feedForward F32.zero F32.zero F32.one k := rfl
    simp [meetsProperties, this, delay_isAllpass fc fs k]
  | hp1 | hp2 | bp | ap1 | lsh | hsh | peak => rfl

/-- What is held meets the properties, at all arguments. -/
theorem holdToProperties_meets (t : BiquadType) (fc q fs : Word) (k : Coeffs) :
    meetsProperties t fc q fs (holdToProperties t fc q fs k) := by
  unfold holdToProperties
  split
  · assumption
  · exact standIn_meets t fc q fs k

/-- A set that meets the properties is not changed. -/
theorem holdToProperties_self {t : BiquadType} {fc q fs : Word} {k : Coeffs} (h : meetsProperties t fc q fs k) :
    holdToProperties t fc q fs k = k := by
  simp [holdToProperties, h]

/-- Holding a set to the properties keeps its post-scale (R166, R168). -/
theorem holdToProperties_postScale (t : BiquadType) (fc q fs : Word) (k : Coeffs) :
    (holdToProperties t fc q fs k).c0 = k.c0 ∧ (holdToProperties t fc q fs k).d0 = k.d0 := by
  unfold holdToProperties standIn
  repeat' split
  all_goals exact ⟨rfl, rfl⟩

end Sys2Proof.Machine
end

