-- ==== Sys2Proof/Machine/Assembler.lean ====
section
/-! DEFINITION. The assembly notation of spec/30_encoding.md R91: one line per transaction, destination first. -/

namespace Sys2Proof.Machine

/-- The mnemonic of a row (R86). -/
def rowMnemonic : Op → String
  | .nop => "NOP"
  | .lfoInit => "LFO.INIT"
  | .lfoInitp => "LFO.INITP"
  | .lfoInitr => "LFO.INITR"
  | .lfoNext => "LFO.NEXT"
  | .lfoRange => "LFO.RANGE"
  | .lfoAdv => "LFO.ADV"
  | .dlyInit => "DLY.INIT"
  | .dlyProci => "DLY.PROCI"
  | .dlyProcf => "DLY.PROCF"
  | .biqSet => "BIQ.SET"
  | .biqProc => "BIQ.PROC"
  | .biqRst => "BIQ.RST"
  | .apcSet => "APC.SET"
  | .apcProc => "APC.PROC"
  | .apcRst => "APC.RST"
  | .mixWd => "MIX.WD"
  | .mixInt => "MIX.INT"
  | .mixFb => "MIX.FB"
  | .msL => "MS.L"
  | .msR => "MS.R"

/-- `vN`. -/
def regText (r : Reg) : String := "v" ++ Nat.repr r.toNat

/-- `L` or `R`. -/
def channelText : Channel → String
  | .left => "L"
  | .right => "R"

/-- The operands of a command in the order of R91. -/
def operandTexts : Instr → List String
  | .nop => []
  | .lfoInit u | .lfoInitr u | .lfoAdv u | .dlyInit u | .biqSet u | .biqRst u | .apcSet u | .apcRst u =>
    [Nat.repr u.toNat]
  | .lfoInitp ra u => [regText ra, Nat.repr u.toNat]
  | .lfoNext rd u => [regText rd, Nat.repr u.toNat]
  | .lfoRange rd ra rb u | .dlyProci rd ra rb u | .dlyProcf rd ra rb u =>
    [regText rd, regText ra, regText rb, Nat.repr u.toNat]
  | .biqProc rd ra ch u | .apcProc rd ra ch u => [regText rd, regText ra, channelText ch, Nat.repr u.toNat]
  | .mixWd rd ra rb | .mixInt rd ra rb | .mixFb rd ra rb | .msL rd ra rb | .msR rd ra rb =>
    [regText rd, regText ra, regText rb]

/-- A command as one line of assembly (R91). -/
def commandText (i : Instr) : String :=
  match operandTexts i with
  | [] => rowMnemonic i.row
  | ops => rowMnemonic i.row ++ " " ++ ", ".intercalate ops

end Sys2Proof.Machine
end

