-- ==== Sys2Proof/Machine/HostSequences.lean ====
section
/-! DEFINITION. The host's side of the port: band1's calls and engines as transaction sequences (spec/40_system.md R106,
spec/70_reset_and_hazards.md R283, spec/46_host_sequences.md R240 to R252). They add no behaviour to BQX; each is a list
that may stand in `State.host`. Register and unit numbers are those of the spec's examples. -/

namespace Sys2Proof.Machine

/-- A command line of R91: `WR 0x0000, <command word>`. -/
def issue (i : Instr) : Txn := .wr (addrOf .cmd) (encode i)

/-- `WR` to a named register (R91). -/
def put (r : Region) (d : Word) : Txn := .wr (addrOf r) d

/-- `RD` of a named register (R91). -/
def get (r : Region) : Txn := .rd (addrOf r)

/-! ### Initialisation (R106, R283) -/

/-- How an LFO is constructed (R106): zero, explicit or random phase. -/
inductive LfoStart where
  | zero
  | explicit (ra : Reg)
  | random
deriving DecidableEq, Repr

/-- Size a delay line (R283 step 2). -/
def setUpLine (u : UnitIdx) (size fb : Word) : List Txn :=
  [put (.dly u.toNat .size) size, put (.dly u.toNat .fb) fb, issue (.dlyInit u)]

/-- Construct an LFO (R283 step 3). -/
def setUpLfo (u : UnitIdx) (rate : Word) (how : LfoStart) : List Txn :=
  [put (.lfo u.toNat .rate) rate,
   match how with
   | .zero => issue (.lfoInit u)
   | .explicit ra => issue (.lfoInitp ra u)
   | .random => issue (.lfoInitr u)]

/-- `setCoefficients(type, cutoff, Q, gainLinear)` (R106). -/
def setCoefficients (u : UnitIdx) (t fc q g : Word) : List Txn :=
  [put (.biq u.toNat .type) t, put (.biq u.toNat .cutoff) fc, put (.biq u.toNat .q) q,
   put (.biq u.toNat .gain) g, issue (.biqSet u)]

/-- Set up a biquad (R283 step 4). -/
def setUpBiquad (u : UnitIdx) (t fc q g : Word) : List Txn := setCoefficients u t fc q g ++ [issue (.biqRst u)]

/-- The parameter writes of a cascade and their recomputation (R250, R286). -/
def setStages (a : UnitIdx) (freqs : List Word) (q active : Word) : List Txn :=
  freqs.mapIdx (fun k f => put (.apc a.toNat (.freq k)) f)
    ++ [put (.apc a.toNat .q) q, put (.apc a.toNat .active) active, issue (.apcSet a)]

/-- Set up a cascade (R283 step 5). -/
def setUpCascade (a : UnitIdx) (freqs : List Word) (q active : Word) : List Txn :=
  setStages a freqs q active ++ [issue (.apcRst a)]

/-- `initialize(sampleRate)` (R106, R283): the rate first, then the units in use, then the feedback registers to `+0`,
then clear flags. -/
def initSequence (rate : Word) (units : List Txn) (feedback : List Reg) : List Txn :=
  put .sr rate :: units ++ feedback.map (fun i => put (.sample i) 0) ++ [put .status 0xF]

/-! ### Chorus (R242), left half of a frame with three voices -/

/-- The delay operand and the voice `j`, into `v[rd]`. -/
def chorusVoice (rd : Reg) (j : UnitIdx) : List Txn := [issue (.lfoRange 2 12 13 j), issue (.dlyProcf rd 1 2 j)]

/-- The left half of a chorus frame; `third` is 1/3 and `loop` is wet·feedback. -/
def chorusLeft (x wet dry loop third : Word) : List Txn :=
  [put (.sample 0) x, issue (.mixFb 1 0 8)] ++ chorusVoice 3 0 ++ chorusVoice 4 1 ++ chorusVoice 5 2
    ++ [put (.mixer .fb) 0x3F800000, issue (.mixFb 3 3 4), issue (.mixFb 3 3 5),
        put (.mixer .wet) third, put (.mixer .dry) 0, issue (.mixWd 8 0 3),
        put (.mixer .wet) wet, put (.mixer .dry) dry, put (.mixer .fb) loop,
        issue (.mixWd 6 0 8), get (.sample 6)]

/-! ### Flanger (R245) -/

/-- One channel of a flanger frame: feedback register `fb`, channel, delay line; `reads` is whether it reads its LFO. -/
def flangerHalf (x : Word) (fb : Reg) (ch : Channel) (u : UnitIdx) (reads : Bool) : List Txn :=
  [put (.sample 0) x, issue (.mixFb 1 0 fb)] ++ (if reads then [issue (.lfoRange 2 14 15 u)] else [])
    ++ [issue (.dlyProcf fb 1 2 u), issue (.mixWd 4 0 fb), issue (.biqProc 5 4 ch 0), get (.sample 5)]

/-- One flanger frame; both phases advance whatever the stereo flag. -/
def flangerFrame (xL xR : Word) (stereo : Bool) : List Txn :=
  flangerHalf xL 8 .left 0 true ++ flangerHalf xR 9 .right 1 stereo ++ [issue (.lfoAdv 0), issue (.lfoAdv 1)]

/-! ### Phaser (R247) -/

/-- The `BIQ.PROC` chain over units `0 .. n − 1`, the last of which writes `v[fb]`. -/
def phaserChain (n : Nat) (ch : Channel) (fb : Reg) : List Txn :=
  (List.range n).map (fun j => issue (.biqProc (if j + 1 = n then fb else 1) 1 ch (BitVec.ofNat 8 j)))

/-- One channel of a phaser frame. -/
def phaserHalf (x : Word) (n : Nat) (ch : Channel) (fb : Reg) : List Txn :=
  [put (.sample 0) x, issue (.mixFb 1 0 fb)] ++ phaserChain n ch fb ++ [issue (.mixInt 4 0 fb), get (.sample 4)]

/-- One phaser frame with the stage frequencies the host has computed; one `LFO.ADV`, after the right half (R249). -/
def phaserFrame (xL xR : Word) (freqs : List Word) : List Txn :=
  [issue (.lfoNext 2 0), get (.sample 2)]
    ++ (freqs.mapIdx (fun j f => [put (.biq j .cutoff) f, issue (.biqSet (BitVec.ofNat 8 j))])).flatten
    ++ phaserHalf xL freqs.length .left 8 ++ phaserHalf xR freqs.length .right 9 ++ [issue (.lfoAdv 0)]

/-! ### Disperser, plain filter, mid/side (R250 to R252) -/

/-- One disperser frame (R250). -/
def disperserFrame (xL xR : Word) : List Txn :=
  [put (.sample 0) xL, issue (.apcProc 1 0 .left 0), get (.sample 1),
   put (.sample 0) xR, issue (.apcProc 1 0 .right 0), get (.sample 1)]

/-- The per-block part of the filter engine: the reset only when the type differs (R251). -/
def filterBlock (t fc q g : Word) (typeChanged : Bool) : List Txn :=
  setCoefficients 0 t fc q g ++ (if typeChanged then [issue (.biqRst 0)] else [])

/-- One frame of the filter engine (R251). -/
def filterFrame (xL xR : Word) : List Txn :=
  [put (.sample 0) xL, issue (.biqProc 1 0 .left 0), get (.sample 1),
   put (.sample 0) xR, issue (.biqProc 1 0 .right 0), get (.sample 1)]

/-- The per-block part of the mid/side engine (R252). -/
def midSideBlock (mid side : Word) : List Txn := [put (.mixer .mid) mid, put (.mixer .side) side]

/-- One frame of the mid/side engine (R252). -/
def midSideFrame (l r : Word) : List Txn :=
  [put (.sample 0) l, put (.sample 1) r, issue (.msL 2 0 1), issue (.msR 3 0 1), get (.sample 2), get (.sample 3)]

end Sys2Proof.Machine
end

