-- ==== Sys2Proof/Tests/Slice0.lean ====
section
/-! SUPPORT. Tests: words written out from the spec's encoding, ill-formed terms, one-step tests with expected values of
spec/95_test_vectors.md, and a witness for the hypotheses of every statement that has some. -/

namespace Sys2Proof.Tests

open Sys2Proof.Machine

/-! ### Helpers -/

/-- A small legal instance: 2 LFOs, 2 lines of at most 8 words, 2 biquads, 1 cascade of 3 stages. -/
def tiny : Cfg where
  sizes := { nLfo := 2, nDly := 2, nBiq := 2, nApc := 1, apcNStage := 3 }
  params := { Cfg.default.params with dlyCap := 8 }

/-- Its reset state. -/
def s0 : State := State.resetOf tiny

/-- Whether an outcome is a next state with a property. -/
def after (r : Result) (p : State → Bool) : Bool :=
  match r with
  | .next s => p s
  | .fault _ => false
  | .refused _ => false

/-- Whether an outcome is a next state in which a register address holds a word and the flags are `st`. -/
def gives (r : Result) (addr : Addr) (w : Word) (st : BitVec 4) : Bool :=
  after r (fun s => s.readReg (region addr) == some w && s.status == st)

/-- `s0` with words in the sample registers `v[0]`, `v[1]`. -/
def withV (s : State) (a b : Word) : State := (s.writeV 0 a).writeV 1 b

/-- A sized line of 4 samples: `w = 3`, `X = [1, 2, 3, 4]`, `Y = [0, 0, 0.5, 1]`, `FB = 0.5`. -/
def line : DlyUnit where
  size := 4
  n := 4
  w := 3
  fb := 0x3F000000
  sized := true
  x := [(0, 0x3F800000), (1, 0x40000000), (2, 0x40400000), (3, 0x40800000)]
  y := [(2, 0x3F000000), (3, 0x3F800000)]

/-- `s0` with that line as line 0. -/
def s1 : State := { s0 with dly := [line, .reset] }

/-- The coefficient set of T3.1: dyadic, loaded by the host. -/
def t31 : Coeffs :=
  { a0 := 0x3F000000, a1 := 0x3E800000, a2 := 0x3E000000, b0 := 0xBF000000, b1 := 0x3E800000, c0 := 0x3F800000, d0 := 0 }

/-- A section with the set of T3.1 and the left cells after its second frame. -/
def sec31 : Section :=
  { coeffs := t31, left := { x1 := 0, x2 := 0x3F800000, y1 := 0x3F000000, y2 := 0x3F000000 }, right := .zero }

/-- `s0` with that section in biquad 0. -/
def s2 : State := { s0 with biq := [{ BiqUnit.reset with sec := sec31 }, .reset] }

/-- A stage of T4.1, `A0 = 0.5, A2 = 1, B1 = 0.5, C0 = 1`, with cleared cells. -/
def stage41 : Stage :=
  { freq := 0x43960000
    sec := { coeffs := { a0 := 0x3F000000, a1 := 0, a2 := 0x3F800000, b0 := 0, b1 := 0x3F000000, c0 := 0x3F800000, d0 := 0 }
             left := .zero, right := .zero } }

/-- `s0` with a cascade of three such stages, `n` of them active. -/
def s3 (n : Nat) : State := { s0 with apc := [{ active := n, q := 0x3F800000, stages := [stage41, stage41, stage41] }] }

/-! ### Decoding: words written out bit by bit from the format F and the opcode map (R81, R86) -/

theorem test_decode_nop : decode 0b00000000000000000000000000000000#32 = .ok .nop := by decide
theorem test_decode_lfo_init : decode 0b00010000000000000000000000000011#32 = .ok (.lfoInit 3) := by decide
theorem test_decode_lfo_initp : decode 0b00010001000000100000000000000001#32 = .ok (.lfoInitp 2 1) := by decide
theorem test_decode_lfo_initr : decode 0b00010010000000000000000000000001#32 = .ok (.lfoInitr 1) := by decide
theorem test_decode_lfo_next : decode 0b00010011010100000000000000000111#32 = .ok (.lfoNext 5 7) := by decide
theorem test_decode_lfo_range : decode 0b00010100001100010010000000001001#32 = .ok (.lfoRange 3 1 2 9) := by decide
theorem test_decode_lfo_adv : decode 0b00010101000000000000000000001111#32 = .ok (.lfoAdv 15) := by decide
theorem test_decode_dly_init : decode 0b00100000000000000000000000000001#32 = .ok (.dlyInit 1) := by decide
theorem test_decode_dly_proci : decode 0b00100001001000000001000000000100#32 = .ok (.dlyProci 2 0 1 4) := by decide
theorem test_decode_dly_procf : decode 0b00100010100000010010000000000000#32 = .ok (.dlyProcf 8 1 2 0) := by decide
theorem test_decode_biq_set : decode 0b00110000000000000000000000000010#32 = .ok (.biqSet 2) := by decide
theorem test_decode_biq_proc : decode 0b00110001000100000000100000000010#32 = .ok (.biqProc 1 0 .right 2) := by decide
theorem test_decode_biq_rst : decode 0b00110010000000000000000010000000#32 = .ok (.biqRst 128) := by decide
theorem test_decode_apc_set : decode 0b01000000000000000000000000000011#32 = .ok (.apcSet 3) := by decide
theorem test_decode_apc_proc : decode 0b01000001000101010000000000000000#32 = .ok (.apcProc 1 5 .left 0) := by decide
theorem test_decode_apc_rst : decode 0b01000010000000000000000000000001#32 = .ok (.apcRst 1) := by decide
theorem test_decode_mix_wd : decode 0b01010000001000000001000000000000#32 = .ok (.mixWd 2 0 1) := by decide
theorem test_decode_mix_int : decode 0b01010001111111101101000000000000#32 = .ok (.mixInt 15 14 13) := by decide
theorem test_decode_mix_fb : decode 0b01010010001100000100000000000000#32 = .ok (.mixFb 3 0 4) := by decide
theorem test_decode_ms_l : decode 0b01010011001000000001000000000000#32 = .ok (.msL 2 0 1) := by decide
theorem test_decode_ms_r : decode 0b01010100001100000001000000000000#32 = .ok (.msR 3 0 1) := by decide

/-- R88, T1.12, T5.11, T6.1a, T6.2: refused words, by name. -/
theorem test_decode_refuses :
    decode 0x00000100 = .reject .reservedBitsSet ∧ decode 0x10100000 = .reject .reservedBitsSet ∧
    decode 0x31000400 = .reject .reservedBitsSet ∧ decode 0x31001000 = .reject .reservedBitsSet ∧
    decode 0x22000800 = .reject .reservedBitsSet ∧ decode 0x50201001 = .reject .reservedBitsSet ∧
    decode 0x99000000 = .reject .unlistedOpcode ∧ decode 0x16000000 = .reject .unlistedOpcode ∧
    decode 0x43000000 = .reject .unlistedOpcode := by decide

/-- The table's numbering of bits is that of the word (R80); a longer word than 32 bits is no command. -/
theorem test_decode_table_word :
    decodeTableWord 32 0x31100802 = some (.biqProc 1 0 .right 2) ∧ decodeTableWord 32 0x99000000 = none ∧
    decodeTableWord 40 0 = none := by decide

/-- No two rows of the opcode map match one word: their opcodes differ (R86). -/
theorem test_opcodes_differ : List.Pairwise (fun a b : Op => a.code ≠ b.code) Op.all := by decide

/-! ### WellFormed smoke: for each unit check a term it refuses, and its neighbour that it accepts (R84) -/

theorem test_wf_lfo :
    (Instr.lfoInit 2).wellFormed tiny.sizes = false ∧ (Instr.lfoInitp 0 2).wellFormed tiny.sizes = false ∧
    (Instr.lfoInitr 2).wellFormed tiny.sizes = false ∧ (Instr.lfoNext 0 2).wellFormed tiny.sizes = false ∧
    (Instr.lfoRange 0 0 0 2).wellFormed tiny.sizes = false ∧ (Instr.lfoAdv 2).wellFormed tiny.sizes = false ∧
    (Instr.lfoAdv 1).wellFormed tiny.sizes = true := by decide
theorem test_wf_dly :
    (Instr.dlyInit 2).wellFormed tiny.sizes = false ∧ (Instr.dlyProci 0 0 0 2).wellFormed tiny.sizes = false ∧
    (Instr.dlyProcf 0 0 0 2).wellFormed tiny.sizes = false ∧ (Instr.dlyInit 1).wellFormed tiny.sizes = true := by decide
theorem test_wf_biq :
    (Instr.biqSet 2).wellFormed tiny.sizes = false ∧ (Instr.biqProc 0 0 .left 2).wellFormed tiny.sizes = false ∧
    (Instr.biqRst 2).wellFormed tiny.sizes = false ∧ (Instr.biqSet 1).wellFormed tiny.sizes = true := by decide
theorem test_wf_apc :
    (Instr.apcSet 1).wellFormed tiny.sizes = false ∧ (Instr.apcProc 0 0 .left 1).wellFormed tiny.sizes = false ∧
    (Instr.apcRst 1).wellFormed tiny.sizes = false ∧ (Instr.apcSet 0).wellFormed tiny.sizes = true := by decide

/-- T1.11, T4.6, with the default counts: an ill-formed command sets `ILLCMD` and nothing else. -/
theorem test_illegal_unit :
    step (State.reset.withFetchWord 32 0x10000010) = .next ((State.reset.take []).raise .illcmd) ∧
    step (State.reset.withFetchWord 32 0x41100001) = .next ((State.reset.take []).raise .illcmd) := by
  exact ⟨rfl, rfl⟩

/-! ### One step of each command, with values of spec/95_test_vectors.md -/

/-- T6.1. -/
theorem test_nop : exec .nop s2 = .next s2 := rfl

/-- T1.1: `LFO[1].phase = 1.0`, then `LFO.INIT 1`; the rate stays. -/
theorem test_lfo_init :
    after (exec (.lfoInit 1) { s0 with lfo := [.reset, { phase := 0x3F800000, rate := 0x40000000 }] })
      (fun s => s.lfo == [.reset, { phase := 0, rate := 0x40000000 }] && s.status == 0) = true := by decide

/-- T1.2, T1.2a: a phase in range is kept, 7.0 stores `PHASE_MAX` with `CLAMP`. -/
theorem test_lfo_initp :
    gives (exec (.lfoInitp 0 1) (withV s0 0x3FC90FDB 0)) 0x0104 0x3FC90FDB 0 = true ∧
    gives (exec (.lfoInitp 0 1) (withV s0 0x40E00000 0)) 0x0104 0x40C90FDA 2 = true := by decide

/-- T1.2b, T1.2c, T1.2d: −1.0 and a NaN store `+0` with `CLAMP`, `−0` is kept. -/
theorem test_lfo_initp_low :
    gives (exec (.lfoInitp 0 1) (withV s0 0xBF800000 0)) 0x0104 0 2 = true ∧
    gives (exec (.lfoInitp 0 1) (withV s0 0x7FC00000 0)) 0x0104 0 2 = true ∧
    gives (exec (.lfoInitp 0 1) (withV s0 0x80000000 0)) 0x0104 0x80000000 0 = true := by decide

/-- T1.13: `rng_n` counts the draws, the phase is `Rng(SEED, rng_n)`. -/
theorem test_lfo_initr :
    exec (.lfoInitr 1) { s0 with seed := 5, rngN := 1 } =
      .next { s0 with seed := 5, rngN := 2, lfo := [.reset, { phase := F32.rng 5 1, rate := 0 }] } := rfl

/-- T1.7: `sin(+0) = +0`. -/
theorem test_lfo_next : gives (exec (.lfoNext 1 0) (withV s0 0 0x40E00000)) 0x0011 0 0 = true := by decide

/-- T1.8, T1.8a: phase `+0`, bounds 2.0 and 6.0 in either order give 4.0. -/
theorem test_lfo_range :
    gives (exec (.lfoRange 3 0 1 0) (withV s0 0x40000000 0x40C00000)) 0x0013 0x40800000 0 = true ∧
    gives (exec (.lfoRange 3 1 0 0) (withV s0 0x40000000 0x40C00000)) 0x0013 0x40800000 0 = true := by decide

/-- T1.3: `SR = 32768`, rate 4096: the seventh, eighth and ninth phases. -/
theorem test_lfo_adv :
    gives (exec (.lfoAdv 0) { s0 with sr := 0x47000000, lfo := [{ phase := 0x40AFEDDF, rate := 0x45800000 }] })
      0x0100 0x40C90FDA 0 = true ∧
    gives (exec (.lfoAdv 0) { s0 with sr := 0x47000000, lfo := [{ phase := 0x40C90FDA, rate := 0x45800000 }] })
      0x0100 0x3F490FD0 0 = true := by decide

/-- T1.4: a rate above `SR/2` is clamped with `CLAMP`, and `π ⊕ π` wraps to `+0`. -/
theorem test_lfo_adv_clamps :
    gives (exec (.lfoAdv 0) { s0 with sr := 0x47000000, lfo := [{ phase := 0x40490FDB, rate := 0x469C4000 }] })
      0x0100 0 2 = true := by decide

/-- T2.10: `DLY.INIT` clears a used line and keeps `FB`. -/
theorem test_dly_init :
    after (exec (.dlyInit 0) s1) (fun s => s.dly.headD .reset == { line with w := 0, x := [], y := [] }) = true := by
  decide

/-- Delay 1.0 reads `X[(w − 1) mod 4] ⊕ 0.5 ⊗ Y[2] = 3 + 0.25`, then writes slot 0 (R145 by hand). -/
theorem test_dly_proci :
    after (exec (.dlyProci 2 0 1 0) (withV s1 0x40A00000 0x3F800000)) (fun s =>
      s.readV 2 == 0x40500000 && s.dly.headD .reset == { line with
        w := 0
        x := [(0, 0x40A00000), (1, 0x40000000), (2, 0x40400000), (3, 0x40800000)]
        y := [(0, 0x40500000), (2, 0x3F000000), (3, 0x3F800000)] } && s.status == 0) = true := by decide +kernel

/-- T6.11: an unsized line answers `+0` with `UNINIT` alone. -/
theorem test_dly_unsized : gives (exec (.dlyProcf 2 0 1 1) (withV s1 0 0x42C60000)) 0x0012 0 1 = true := by decide

/-- Delay 1.5 blends `X[w − 2]` and `X[w − 1]` after the advance: `0.5·3 + 0.5·4 = 3.5` (R147, as T2.4); delay 5.0 is
clamped to 3 and reads `X[1] = 2` (as T2.6). -/
theorem test_dly_procf :
    gives (exec (.dlyProcf 2 0 1 0) (withV s1 0x40A00000 0x3FC00000)) 0x0012 0x40600000 0 = true ∧
    gives (exec (.dlyProcf 2 0 1 0) (withV s1 0x40A00000 0x40A00000)) 0x0012 0x40000000 2 = true := by decide

/-- Known values of the trigonometric functions, for T3.6 (`SR = 44100`, `CUTOFF = 1000`); `tanBw` is the correctly
rounded tangent at the argument `π ⊗ bw ⊘ SR` of `PEAK`. -/
def trig36 (tanK : Word) : Trig where
  sin := fun a => if a = 0x3E11E531 then 0x3E1166F5 else 0
  cos := fun a => if a = 0x3E11E531 then 0x3F7D67F4 else 0
  tan := fun _ => tanK

/-- A row of T3.6. -/
def row36 (tanK : Word) (t : BiquadType) (q g : Word) : Coeffs :=
  coefRef (trig36 tanK) (fun _ => 0x7FC00000) t 0x447A0000 q g 0x472C4400

/-- T3.6, the rows of the topologies without gain. -/
theorem test_coef_rows :
    row36 0x3D922480 .lp1 0x3F34FDF4 0 = ⟨0x3D8868A0, 0x3D8868A0, 0, 0xBF5DE5D8, 0, 0x3F800000, 0⟩ ∧
    row36 0x3D922480 .lp2 0x3F34FDF4 0 = ⟨0x3B96DCC0, 0x3C16DCC0, 0x3B96DCC0, 0xBFE647FA, 0x3F5146DA, 0x3F800000, 0⟩ ∧
    row36 0x3D922480 .hp1 0x3F34FDF4 0 = ⟨0x3F6EF2EC, 0xBF6EF2EC, 0, 0xBF5DE5D8, 0, 0x3F800000, 0⟩ ∧
    row36 0x3D922480 .hp2 0x3F34FDF4 0 = ⟨0x3F6775B4, 0xBFE775B4, 0x3F6775B4, 0xBFE647FA, 0x3F5146DA, 0x3F800000, 0⟩ ∧
    row36 0x3D922480 .bp 0x3F34FDF4 0 = ⟨0x3DBAE497, 0, 0xBDBAE497, 0xBFE647F9, 0x3F5146DA, 0x3F800000, 0⟩ ∧
    row36 0x3D922480 .notch 0x3F34FDF4 0 = ⟨0x3F68A36C, 0xBFE647F9, 0x3F68A36C, 0xBFE647F9, 0x3F5146DA, 0x3F800000, 0⟩ ∧
    row36 0x3D922480 .ap1 0x3F34FDF4 0 = ⟨0xBF5DE5D9, 0x3F800000, 0, 0xBF5DE5D9, 0, 0x3F800000, 0⟩ ∧
    row36 0x3D922480 .ap2 0x3F800000 0 = ⟨0x3F5DE5D9, 0xBFEC871B, 0x3F800000, 0xBFEC871B, 0x3F5DE5D9, 0x3F800000, 0⟩ := by
  decide +kernel

/-- T3.6, the rows of shelves and peak, boost and cut. -/
theorem test_coef_gain_rows :
    row36 0x3D922480 .lsh 0x3F34FDF4 0x40000000 = ⟨0x3DB1ED88, 0x3DB1ED88, 0, 0xBF53849E, 0, 0x3F800000, 0x3F800000⟩ ∧
    row36 0x3D922480 .lsh 0x3F34FDF4 0x3F000000 = ⟨0x3E23B492, 0x3E23B492, 0, 0xBF2E25B7, 0, 0xBF000000, 0x3F800000⟩ ∧
    row36 0x3D922480 .hsh 0x3F34FDF4 0x40000000 = ⟨0x3F72FEC2, 0xBF72FEC2, 0, 0xBF65FD83, 0, 0x3F800000, 0x3F800000⟩ ∧
    row36 0x3D922480 .hsh 0x3F34FDF4 0x3F000000 = ⟨0x3F7953FE, 0xBF7953FE, 0, 0xBF72A7FD, 0, 0xBF000000, 0x3F800000⟩ ∧
    row36 0x3DCF0F3A .peak 0x3F34FDF4 0x40000000 = ⟨0x3DBC0C1C, 0, 0xBDBC0C1C, 0xBFE62369, 0x3F50FCF9, 0x3F800000, 0x3F800000⟩ ∧
    row36 0x3DCF0F3A .peak 0x3F34FDF4 0x3F000000 = ⟨0x3E2C3B9C, 0, 0xBE2C3B9C, 0xBFD2C8BE, 0x3F29E232, 0xBF000000, 0x3F800000⟩ := by
  decide +kernel

/-- T3.8: the pass-through set of `LP2` at 20000 Hz of 44100 Hz passes, one of half its gain does not. -/
theorem test_passes_through :
    farAbove 0x469C4000 0x472C4400 = true ∧
    passesThrough ⟨0x3F502F67, 0x3FD02F67, 0x3F502F67, 0x3FCBAE6A, 0x3F2960C7, 0x3F800000, 0⟩ = true ∧
    passesThrough ⟨0x3ED02F67, 0x3F502F67, 0x3ED02F67, 0x3FCBAE6A, 0x3F2960C7, 0x3F800000, 0⟩ = false := by decide +kernel

/-- T3.7, T3.9: the `LP2` row of T3.6 meets the scenario, its `HP2` row does not; its `NOTCH` row notches at 1000 Hz, and
does not at 1100 Hz. -/
theorem test_scenario_and_notch :
    meetsScenario ⟨0x3B96DCC0, 0x3C16DCC0, 0x3B96DCC0, 0xBFE647FA, 0x3F5146DA, 0x3F800000, 0⟩ = true ∧
    meetsScenario ⟨0x3F6775B4, 0xBFE775B4, 0x3F6775B4, 0xBFE647FA, 0x3F5146DA, 0x3F800000, 0⟩ = false ∧
    notches 0x447A0000 0x472C4400 ⟨0x3F68A36C, 0xBFE647F9, 0x3F68A36C, 0xBFE647F9, 0x3F5146DA, 0x3F800000, 0⟩ = true ∧
    notches 0x44898000 0x472C4400 ⟨0x3F68A36C, 0xBFE647F9, 0x3F68A36C, 0xBFE647F9, 0x3F5146DA, 0x3F800000, 0⟩ = false := by
  decide +kernel

/-- T3.10: the `AP2` row of T3.6 keeps the magnitude and alters the phase, also with `a0` one unit in the last place off (a
magnitude of 1 up to rounding); its `LP2` row does not keep it. -/
theorem test_is_allpass :
    keepsMagnitude 0x447A0000 0x472C4400 ⟨0x3F5DE5D9, 0xBFEC871B, 0x3F800000, 0xBFEC871B, 0x3F5DE5D9, 0x3F800000, 0⟩ = true ∧
    altersPhase ⟨0x3F5DE5D9, 0xBFEC871B, 0x3F800000, 0xBFEC871B, 0x3F5DE5D9, 0x3F800000, 0⟩ = true ∧
    keepsMagnitude 0x447A0000 0x472C4400 ⟨0x3F5DE5DA, 0xBFEC871B, 0x3F800000, 0xBFEC871B, 0x3F5DE5D9, 0x3F800000, 0⟩ = true ∧
    keepsMagnitude 0x447A0000 0x472C4400 ⟨0x3B96DCC0, 0x3C16DCC0, 0x3B96DCC0, 0xBFE647FA, 0x3F5146DA, 0x3F800000, 0⟩ = false := by
  decide +kernel

/-- R8, R187: an `LP2` set with `b1 = 1` (the reference's `1 ⊖ 0` over `1 ⊕ 0` for `Q = +∞`) is not touched for that `Q`, though
for `Q = 0.707` it is no pass-through. -/
theorem test_extreme_q_is_free :
    meetsProperties .lp2 0x469C4000 0x7F800000 0x472C4400 ⟨0x3F75149F, 0x3FF5149F, 0x3F75149F, 0x3FEA293F, 0x3F800000, 0x3F800000, 0⟩
      = true ∧
    meetsProperties .lp2 0x469C4000 0x3F34FDF4 0x472C4400 ⟨0x3F75149F, 0x3FF5149F, 0x3F75149F, 0x3FEA293F, 0x3F800000, 0x3F800000, 0⟩
      = false := by decide +kernel

/-- R102, R32: the length, the cursor, the feedback gain and the sized flag of a line in use, and of one that is not sized. -/
theorem test_read_line :
    (List.range 5).map (fun j => s1.readReg (region (BitVec.ofNat 16 (0x3000 + j)))) =
      [some 4, some 4, some 3, some 0x3F000000, some 1] ∧
    s1.readReg (region 0x3008) = some 1 ∧ s1.readReg (region 0x300C) = some 0 ∧ (s3 2).readReg (region 0x4000) = some 2 := by
  decide +kernel

/-- T5.8: with both gains 1 the outputs are `L = 1.0` and `R = 0.5`. -/
theorem test_ms_recomposes :
    gives (exec (.msL 2 0 1) (withV { s0 with msMid := 0x3F800000, msSide := 0x3F800000 } 0x3F800000 0x3F000000))
      0x0012 0x3F800000 0 = true ∧
    gives (exec (.msR 3 0 1) (withV { s0 with msMid := 0x3F800000, msSide := 0x3F800000 } 0x3F800000 0x3F000000))
      0x0013 0x3F000000 0 = true := by decide

/-- The cosines of a sixth, a quarter and half a turn are 1/2, 0 and −1 within 4 units of the fixed point. -/
theorem test_cos_turn :
    ((cosTurn 1 6).n - 2 ^ 59).natAbs ≤ 4 ∧ (cosTurn 1 4).n.natAbs ≤ 4 ∧ ((cosTurn 1 2).n + 2 ^ 60).natAbs ≤ 4 := by
  decide +kernel

/-- T3.6, T3.11: `BIQ.SET` with `AP2` and `Q = 0.707` sets `CLAMP` and keeps the register; with `LP2` it does not. -/
theorem test_biq_set :
    gives (exec (.biqSet 0) { s0 with biq := [{ BiqUnit.reset with type := .ap2, q := 0x3F34FDF4 }] })
      0x1002 0x3F34FDF4 2 = true ∧
    gives (exec (.biqSet 0) { s0 with biq := [{ BiqUnit.reset with type := .lp2, q := 0x3F34FDF4 }] })
      0x1009 0x3F800000 0 = true := by decide +kernel

/-- T3.1, frame 2: 0.25, and the cells after it; the right cells stay. -/
theorem test_biq_proc :
    after (exec (.biqProc 1 0 .left 0) s2) (fun s =>
      s.readV 1 == 0x3E800000 && (s.biq.headD .reset).sec == { sec31 with
        left := { x1 := 0, x2 := 0, y1 := 0x3E800000, y2 := 0x3F000000 } } && s.status == 0) = true := by decide +kernel

/-- T3.2, frame 0: `C0 = 0.5`, `D0 = 1.0` and input 1 give 1.25, on the right channel with cleared cells. -/
theorem test_biq_proc_post_scale :
    gives (exec (.biqProc 1 0 .right 0) (withV { s2 with biq := [{ BiqUnit.reset with
      sec := { sec31 with coeffs := { t31 with c0 := 0x3F000000, d0 := 0x3F800000 } } }] } 0x3F800000 0))
      0x0011 0x3FA00000 0 = true := by decide

/-- R183: the eight cells and nothing else. -/
theorem test_biq_rst :
    exec (.biqRst 0) s2 = .next { s2 with biq := [{ BiqUnit.reset with sec := { sec31 with left := .zero } }, .reset] } :=
  rfl

/-- R201: with `ACTIVE = 2`, stages 0 and 1 get `c0 = 1` and keep their cells, stage 2 keeps its coefficients. -/
theorem test_apc_set :
    after (exec (.apcSet 0) (s3 2)) (fun s => match s.apc with
      | [c] => c.stages.map (fun st => (st.freq, st.sec.coeffs.c0, st.sec.left)) ==
            [(0x43960000, 0x3F800000, Cells.zero), (0x43960000, 0x3F800000, Cells.zero),
             (0x43960000, 0x3F800000, Cells.zero)]
          && c.stages.drop 2 == [stage41]
      | _ => false) = true := by decide +kernel

/-- T4.1, T4.2, frame 0: two active stages give 0.25, one gives 0.5; the third stage's cells stay. -/
theorem test_apc_proc :
    gives (exec (.apcProc 1 0 .left 0) (withV (s3 2) 0x3F800000 0)) 0x0011 0x3E800000 0 = true ∧
    gives (exec (.apcProc 1 0 .left 0) (withV (s3 1) 0x3F800000 0)) 0x0011 0x3F000000 0 = true ∧
    gives (exec (.apcProc 1 0 .left 0) (withV (s3 2) 0x3F800000 0)) 0x5010 0 0 = true ∧
    gives (exec (.apcProc 1 0 .left 0) (withV (s3 2) 0x3F800000 0)) 0x5008 0x3F000000 0 = true := by decide +kernel

/-- R205: every stage, active or not. -/
theorem test_apc_rst :
    exec (.apcRst 0) { s0 with apc := [{ active := 1, q := 0x3F800000, stages := [stage41, { stage41 with
      sec := { stage41.sec with right := { x1 := 1, x2 := 2, y1 := 3, y2 := 4 } } }] }] } =
      .next { s0 with apc := [{ active := 1, q := 0x3F800000, stages := [stage41, stage41] }] } := rfl

/-- T5.1, T5.2: renormalised above 1, not at 1. -/
theorem test_mix_wd :
    gives (exec (.mixWd 2 0 1) (withV { s0 with mixWet := 0x3F800000, mixDry := 0x3F800000 } 0x3F000000 0x3E800000))
      0x0012 0x3EC00000 0 = true ∧
    gives (exec (.mixWd 2 0 1) (withV { s0 with mixWet := 0x3F000000, mixDry := 0x3F000000 } 0x3F800000 0xBF800000))
      0x0012 0 0 = true := by decide

/-- T5.4a: the reciprocal is rounded before it multiplies. -/
theorem test_mix_wd_reciprocal :
    gives (exec (.mixWd 2 0 1) (withV { s0 with mixWet := 0x3F333333, mixDry := 0x3F333333 } 0x3E99999A 0x3F666666))
      0x0012 0x3F19999A 0 = true := by decide

/-- T5.5, T5.5b. -/
theorem test_mix_int :
    gives (exec (.mixInt 2 0 1) (withV { s0 with mixInt := 0x3F800000 } 0x3F800000 0x3F000000)) 0x0012 0x3F400000 0 =
      true ∧
    gives (exec (.mixInt 2 0 1) (withV { s0 with mixInt := 0x3F000000 } 0x3F800000 0xBF800000)) 0x0012 0x3F000000 0 =
      true := by decide

/-- T5.5d. -/
theorem test_mix_fb :
    gives (exec (.mixFb 3 0 1) (withV { s0 with mixFb := 0x3F000000 } 0x3F800000 0x3F000000)) 0x0013 0x3FA00000 0 =
      true := by decide

/-- T5.8b, and T5.9, where the round trip is not exact. -/
theorem test_ms_l :
    gives (exec (.msL 2 0 1) (withV { s0 with msMid := 0x40000000, msSide := 0x3F000000 } 0x3F800000 0x3F000000))
      0x0012 0x3FD00000 0 = true ∧
    gives (exec (.msL 2 0 1) (withV { s0 with msMid := 0x3F800000, msSide := 0x3F800000 } 0x3DCCCCCD 0x3E4CCCCD))
      0x0012 0x3DCCCCCE 0 = true := by decide

/-- T5.8b, T5.7. -/
theorem test_ms_r :
    gives (exec (.msR 3 0 1) (withV { s0 with msMid := 0x40000000, msSide := 0x3F000000 } 0x3F800000 0x3F000000))
      0x0013 0x3FB00000 0 = true ∧
    gives (exec (.msR 3 0 1) (withV { s0 with msMid := 0, msSide := 0x3F800000 } 0x3F800000 0x3F000000))
      0x0013 0xBE800000 0 = true := by decide

/-! ### The port -/

/-- T3.12, T4.5, T2.9, T2.9a, T5.5c, T6.4: clamps on write. -/
theorem test_clamp_on_write :
    gives (transact (.wr 0x1001 0x41200000) s0) 0x1001 0x41A00000 2 = true ∧
    gives (transact (.wr 0x1002 0x7F800000) s0) 0x1002 0x7F800000 0 = true ∧
    gives (transact (.wr 0x1000 11) s0) 0x1000 0 2 = true ∧
    gives (transact (.wr 0x1000 10) s0) 0x1000 10 0 = true ∧
    gives (transact (.wr 0x4000 0) s0) 0x4000 1 2 = true ∧ gives (transact (.wr 0x4000 500) s0) 0x4000 3 2 = true ∧
    gives (transact (.wr 0x4001 0x3F34FDF4) s0) 0x4001 0x3F800000 2 = true ∧
    gives (transact (.wr 0x4100 0x469C4000) s0) 0x4100 0x466A6000 2 = true ∧
    gives (transact (.wr 0x3000 0) s0) 0x3000 1 2 = true ∧
    gives (transact (.wr 0x3003 0x40000000) s0) 0x3003 0x3F800000 2 = true ∧
    gives (transact (.wr 0x000A 0x40000000) s0) 0x000A 0x3F800000 2 = true ∧
    gives (transact (.wr 0x0002 0x447A0000) s0) 0x0002 0x45FA0000 2 = true := by decide

/-- T6.3, T6.9, T6.10, T2.9b, and `F[3]` of three stages: bad accesses; T6.3a: reading `CMD` is none. -/
theorem test_bad_accesses :
    transact (.wr 0x0004 1) s0 = .next (s0.raise .illaddr) ∧
    transact (.rd 0x1040) s0 = .next { s0.raise .illaddr with reply := some 0 } ∧
    transact (.wr 0x100B 0) s0 = .next (s0.raise .illaddr) ∧
    transact (.wr 0x3001 5) s0 = .next (s0.raise .illaddr) ∧
    transact (.wr 0x4103 0x43960000) s0 = .next (s0.raise .illaddr) ∧
    transact (.rd 0x0000) s0 = .next { s0 with reply := some 0 } := ⟨rfl, rfl, rfl, rfl, rfl, rfl⟩

/-- T6.6, T6.6a: write-1-to-clear, bits 31:4 ignored. -/
theorem test_status_w1c :
    transact (.wr 0x0001 0x00000005) { s0 with status := 0xF } = .next { s0 with status := 0xA } ∧
    transact (.wr 0x0001 0xFFFFFFF0) { s0 with status := 0xA } = .next { s0 with status := 0xA } := ⟨rfl, rfl⟩

/-- T2.8a, T6.8: a write to `SR` unsizes every line, one to `SEED` zeroes the draw counter. -/
theorem test_sr_and_seed :
    transact (.wr 0x0002 0x472C4400) s1 =
      .next { s1 with sr := 0x472C4400, dly := [{ line with sized := false }, .reset] } ∧
    transact (.wr 0x0003 9) { s0 with rngN := 3 } = .next { s0 with seed := 9 } := by
  exact ⟨rfl, rfl⟩

/-- T6.7: a NaN written by the host is stored bit for bit. -/
theorem test_nan_stored :
    after (transact (.wr 0x0015 0x7FC00001) s0) (fun s => after (transact (.rd 0x0015) s)
      (fun t => t.reply == some 0x7FC00001)) = true := by decide

/-- R91: command lines. -/
theorem test_command_text :
    commandText (.biqProc 1 0 .right 2) = "BIQ.PROC v1, v0, R, 2" ∧ commandText .nop = "NOP" := by decide +kernel

/-- P2: the flanger's left half is the spec's list of words, its input first and its output last. -/
theorem test_flanger_half :
    flangerHalf 0x3F800000 8 .left 0 true =
      [.wr 0x0010 0x3F800000, .wr 0 0x52108000, .wr 0 0x142EF000, .wr 0 0x22812000, .wr 0 0x50408000, .wr 0 0x31540000,
       .rd 0x0015] := by decide

/-- R91: the assembler's shorthand for a command is a write of its word to `CMD`. -/
theorem test_with_fetch_word :
    (State.reset.withFetchWord 32 0x15000000).host = [.wr 0x0000 0x15000000] ∧
    step (State.reset.withFetchWord 32 0x15000000) = exec (.lfoAdv 0) (State.reset.take []) := ⟨rfl, rfl⟩

/-! ### Witnesses: states and operands that meet the hypotheses of each statement, at the boundaries of its clauses -/

theorem witness_DecodeAcceptsOnlyEncodings :
    decode 0x31100802 = .ok (.biqProc 1 0 .right 2) ∧ decode 0xFF000000 = .reject .unlistedOpcode := by decide

/-- A row's word that passes the unit check, one that fails it, and a word of no row. -/
theorem witness_CommandWordsAreThoseOfTheOpcodeMap :
    (0x15000001#32 &&& Op.lfoAdv.mask = Op.lfoAdv.pattern ∧ (Op.lfoAdv.build 0x15000001).wellFormed s0.sizes = true) ∧
    (0x15000002#32 &&& Op.lfoAdv.mask = Op.lfoAdv.pattern ∧ (Op.lfoAdv.build 0x15000002).wellFormed s0.sizes = false) ∧
    (Op.all.all fun o => 0x99000000#32 &&& o.mask != o.pattern) = true := by decide

/-- A command pending, nothing pending, a read pending; a word that is no command; the first address that is not `CMD`. -/
theorem witness_StepRunsTheCommandWritten :
    (s0.withFetchWord 32 0x15000000).host = .wr 0x0000 0x15000000 :: [] ∧ decode 0x15000000 = .ok (.lfoAdv 0) ∧
    s0.host = [] ∧ ({ s0 with host := [.rd 0x1001] } : State).host = .rd 0x1001 :: [] ∧
    (∀ i, decode 0x99000000 ≠ .ok i) ∧ (0x0001 : Addr) ≠ 0x0000 :=
  have h : decode 0x99000000 = .reject .unlistedOpcode := by decide
  ⟨by decide, by decide, by decide, by decide, fun _ hi => (by rw [h] at hi; cases hi), by decide⟩

theorem witness_NopChangesNothing : (1#24 : BitVec 24) ≠ 0 ∧ (0x800000#24 : BitVec 24) ≠ 0 := by decide

/-- The last LFO there is, and the first that is not; also for the other LFO commands. -/
theorem witness_LfoInitZeroesThePhase :
    s0.lfo[(1 : UnitIdx).toNat]? = some .reset ∧ s0.lfo.length ≤ (2 : UnitIdx).toNat := by decide

/-- A NaN, the smallest negative number, the first word above `PHASE_MAX`, and two words that are kept. -/
theorem witness_LfoInitpClampsThePhase :
    s0.lfo[(1 : UnitIdx).toNat]? = some .reset ∧ s0.lfo.length ≤ (2 : UnitIdx).toNat ∧
    F32.isNaN ((withV s0 0x7FC00000 0).readV 0) = true ∧ F32.lt ((withV s0 0x80000001 0).readV 0) 0 = true ∧
    F32.gt ((withV s0 0x40C90FDB 0).readV 0) 0x40C90FDA = true ∧
    F32.gt ((withV s0 0x40C90FDA 0).readV 0) 0x40C90FDA = false ∧
    F32.lt ((withV s0 0x80000000 0).readV 0) 0 = false ∧ region 0x0104 = .lfo (1 : UnitIdx).toNat .phase := by decide +kernel

theorem witness_LfoInitrDrawsThePhase :
    s0.lfo[(1 : UnitIdx).toNat]? = some .reset ∧ s0.lfo.length ≤ (2 : UnitIdx).toNat := by decide

theorem witness_LfoNextWritesTheSine :
    s0.lfo[(1 : UnitIdx).toNat]? = some .reset ∧ s0.lfo.length ≤ (2 : UnitIdx).toNat ∧
    F32.isFinite LfoUnit.reset.phase = true ∧ LfoUnit.reset.phase = 0 := by decide

theorem witness_LfoRangeRemapsTheSine :
    s0.lfo[(1 : UnitIdx).toNat]? = some .reset ∧ s0.lfo.length ≤ (2 : UnitIdx).toNat := by decide

/-- Bounds 2.0, and the smallest negative bound. -/
theorem witness_LfoRangeOfEqualBoundsIsTheBound :
    s0.lfo[(0 : UnitIdx).toNat]? = some .reset ∧ F32.isFinite LfoUnit.reset.phase = true ∧
    F32.isFinite ((withV s0 0x40000000 0x40000000).readV 0) = true ∧
    (withV s0 0x40000000 0x40000000).readV 0 ≠ 0x80000000 ∧
    (withV s0 0x40000000 0x40000000).readV 1 = (withV s0 0x40000000 0x40000000).readV 0 ∧
    F32.isFinite 0x80000001 = true := by decide

theorem witness_LfoAdvAdvancesThePhase :
    s0.lfo[(1 : UnitIdx).toNat]? = some .reset ∧ s0.lfo.length ≤ (2 : UnitIdx).toNat := by decide

/-- The reset LFO at the lowest sample rate, and a phase of `PHASE_MAX`. -/
theorem witness_LfoAdvAtRateZeroChangesNothing :
    s0.lfo[(0 : UnitIdx).toNat]? = some .reset ∧ LfoUnit.reset.rate = 0x00000000 ∧ LfoUnit.reset.legal = true ∧
    LfoUnit.reset.phase ≠ 0x80000000 ∧ F32.lt 0 s0.sr = true ∧ F32.isFinite s0.sr = true ∧
    ({ phase := 0x40C90FDA, rate := 0 } : LfoUnit).legal = true := by decide

theorem witness_DlyInitSizesAndClearsTheLine :
    s1.dly[(0 : UnitIdx).toNat]? = some line ∧ s1.dly.length ≤ (2 : UnitIdx).toNat ∧ (3 : Nat) < line.size ∧
    line.size ≤ 4 := by decide

theorem witness_UnsizedLineAnswersSilence :
    s1.dly[(1 : UnitIdx).toNat]? = some .reset ∧ DlyUnit.reset.sized = false := by decide

theorem witness_DlyProciReadsThenWrites :
    s1.dly[(0 : UnitIdx).toNat]? = some line ∧ s1.dly.length ≤ (2 : UnitIdx).toNat ∧ line.sized = true ∧
    line.x.wf = true ∧ line.y.wf = true := by decide

/-- Delay requests with `fd = 0` and with `fd ≠ 0`. -/
theorem witness_DlyProcfWritesThenInterpolates :
    s1.dly[(0 : UnitIdx).toNat]? = some line ∧ s1.dly.length ≤ (2 : UnitIdx).toNat ∧ line.sized = true ∧
    line.x.wf = true ∧ line.y.wf = true ∧ F32.eq (delayFrac 0x7FC00000 4 0x40400000) 0 = true ∧
    F32.eq (delayFrac 0x7FC00000 4 0x3FC00000) 0 = false := by decide

/-- The lengths 1 and 2^23; at the latter the largest delay is `2^23 − 1`. -/
theorem witness_DelayOperandIsInRangeAndSplitExactly :
    (1 ≤ 1 ∧ 1 ≤ 2 ^ 23) ∧ (1 ≤ 2 ^ 23 ∧ 2 ^ 23 ≤ 2 ^ 23) ∧ delayWhole (2 ^ 23) 0x7F800000 = 2 ^ 23 - 1 ∧
    delayWhole 1 0x7FC00000 = 0 := by decide

/-- Delays 0 (the sample just written, 5.0, or `+0`) and `N − 1 = 3` (the sample 2.0). -/
theorem witness_IntegerDelayIsNotSmeared :
    s1.dly[(0 : UnitIdx).toNat]? = some line ∧ line.sized = true ∧ line.legal s1.params.dlyCap = true ∧
    s1.params.dlyCap ≤ 2 ^ 23 ∧ F32.units (delayOf line.n 0) = delayWhole line.n 0 * 2 ^ 149 ∧
    F32.units (delayOf line.n 0x40400000) = delayWhole line.n 0x40400000 * 2 ^ 149 ∧
    (line.x.write 0 0x40A00000).read 0 = 0x40A00000 ∧ F32.isFinite 0x40A00000 = true ∧
    F32.isZero 0x40A00000 = false ∧ F32.isFinite ((line.x.write 0 0x40A00000).read 1) = true ∧
    (line.x.write 0 0).read 0 = 0 ∧ F32.isFinite 0 = true ∧ F32.isZero 0 = true ∧
    F32.isFinite ((line.x.write 0 0).read 1) = true := by decide

/-- A biquad that is there, one that is not; an `AP2` whose `Q` is clamped. -/
theorem witness_BiqSetRecomputesTheCoefficients :
    s0.biq[(1 : UnitIdx).toNat]? = some .reset ∧ s0.biq.length ≤ (2 : UnitIdx).toNat ∧
    F32.clamp 0x3F000000 0x3F800000 0x447A0000 ≠ 0x3F000000 := by decide

theorem witness_PostScaleOfEveryCoef :
    (BiquadType.ap2 ≠ .lsh ∧ BiquadType.ap2 ≠ .hsh ∧ BiquadType.ap2 ≠ .peak) ∧
    (BiquadType.peak = .lsh ∨ BiquadType.peak = .hsh ∨ BiquadType.peak = .peak) := by decide

theorem witness_BiqProcRunsTheRecurrence :
    s2.biq[(0 : UnitIdx).toNat]? = some { BiqUnit.reset with sec := sec31 } ∧ s2.biq.length ≤ (2 : UnitIdx).toNat := by
  decide

theorem witness_BiqRstClearsTheCells :
    s2.biq[(0 : UnitIdx).toNat]? = some { BiqUnit.reset with sec := sec31 } ∧ s2.biq.length ≤ (2 : UnitIdx).toNat := by
  decide

/-- The reset biquad; the largest finite input, and the infinite one. -/
theorem witness_UnsetBiquadReturnsZero :
    s0.biq[(0 : UnitIdx).toNat]? = some .reset ∧ BiqUnit.reset.sec.coeffs = .zero ∧
    F32.isFinite (BiqUnit.reset.sec.cells .left).x1 = true ∧ F32.isFinite (BiqUnit.reset.sec.cells .left).x2 = true ∧
    F32.isFinite (BiqUnit.reset.sec.cells .left).y1 = true ∧ F32.isFinite (BiqUnit.reset.sec.cells .left).y2 = true ∧
    F32.isFinite ((withV s0 0x7F7FFFFF 0).readV 0) = true ∧ F32.isFinite ((withV s0 0x7F800000 0).readV 0) = false := by
  decide

theorem witness_ChannelsAreIndependent :
    s2.biq[(0 : UnitIdx).toNat]? = some { BiqUnit.reset with sec := sec31 } ∧ Channel.left ≠ Channel.right := by decide

/-- The last active stage and the first inactive one. -/
theorem witness_ApcSetRecomputesTheActiveStages :
    (s3 2).apc[(0 : UnitIdx).toNat]? = some { active := 2, q := 0x3F800000, stages := [stage41, stage41, stage41] } ∧
    (s3 2).apc.length ≤ (1 : UnitIdx).toNat ∧ [stage41, stage41, stage41][1]? = some stage41 ∧
    [stage41, stage41, stage41][2]? = some stage41 := by decide

theorem witness_ApcProcChainsTheActiveStages :
    (s3 2).apc[(0 : UnitIdx).toNat]? = some { active := 2, q := 0x3F800000, stages := [stage41, stage41, stage41] } ∧
    2 ≤ [stage41, stage41, stage41].length ∧ [stage41, stage41, stage41][2]? = some stage41 ∧
    (s3 2).apc.length ≤ (1 : UnitIdx).toNat ∧ region 0x4000 = .apc (0 : UnitIdx).toNat .active ∧
    after (transact (.wr 0x4000 1) (s3 2)) (fun _ => true) = true := by decide +kernel

theorem witness_ApcRstClearsEveryStage :
    (s3 2).apc[(0 : UnitIdx).toNat]? = some { active := 2, q := 0x3F800000, stages := [stage41, stage41, stage41] } ∧
    (s3 2).apc.length ≤ (1 : UnitIdx).toNat ∧ [stage41, stage41, stage41][2]? = some stage41 := by decide

/-- Nonzero low bits; wet and dry gains whose sum is just above 1, and exactly 1. -/
theorem witness_MixWdRenormalisesAboveOne :
    (1#12 : BitVec 12) ≠ 0 ∧ F32.gt (F32.add 0x7FC00000 0x3F000001 0x3F000001) 0x3F800000 = true ∧
    F32.gt (F32.add 0x7FC00000 0x3F000000 0x3F000000) 0x3F800000 = false := by decide

theorem witness_MixIntBlendsByIntensity : (0x800#12 : BitVec 12) ≠ 0 := by decide

theorem witness_MixFbAddsTheFeedback : (0x400#12 : BitVec 12) ≠ 0 := by decide

theorem witness_MidSideOutputs : (0x001#12 : BitVec 12) ≠ 0 := by decide

/-- The `mid` and `side` of two samples. -/
def midSide (l r : Word) : Word × Word :=
  (F32.div 0x7FC00000 (F32.add 0x7FC00000 l r) F32.two, F32.div 0x7FC00000 (F32.sub 0x7FC00000 l r) F32.two)

/-- `L = 1.0`, `R = 0.5` (T5.6, T5.7): `mid = 0.75`, `side = 0.25`; `L = R`, where `side` is a zero; `L = −R`, where `mid` is
one; `L = 0`, which the gains (1, 1) recompose from `mid = 0.5` and `side = −0.5`; with the gains of each clause. -/
theorem witness_MidSideRoundTrip :
    (withV s0 0x3F800000 0x3F000000).readV 0 = 0x3F800000 ∧ (withV s0 0x3F800000 0x3F000000).readV 1 = 0x3F000000 ∧
    midSide 0x3F800000 0x3F000000 = (0x3F400000, 0x3E800000) ∧ midSide 0x3F800000 0x3F800000 = (0x3F800000, 0) ∧
    midSide 0x3F800000 0xBF800000 = (0, 0x3F800000) ∧ F32.isFinite 0x3F400000 = true ∧ F32.isFinite 0x3E800000 = true ∧
    F32.isFinite 0x3F800000 = true ∧ F32.isFinite 0 = true ∧ F32.isZero 0x3F400000 = false ∧
    F32.isZero 0x3E800000 = false ∧ F32.isZero 0x3F800000 = false ∧ F32.isNaN 0x7FC00000 = true ∧
    ({ withV s0 0x3F800000 0x3F000000 with msMid := 0x3F800000 }).msSide = 0 ∧
    ({ withV s0 0x3F800000 0x3F000000 with msSide := 0x3F800000 }).msMid = 0 ∧
    ({ s0 with msMid := 0x3F800000, msSide := 0x3F800000 }).msSide = 0x3F800000 ∧
    2 * F32.units 0x3F400000 = F32.units 0x3F800000 + F32.units 0x3F000000 ∧
    2 * F32.units 0x3E800000 = F32.units 0x3F800000 - F32.units 0x3F000000 ∧
    midSide 0 0x3F800000 = (0x3F000000, 0xBF000000) ∧
    2 * F32.units 0x3F000000 = F32.units 0 + F32.units 0x3F800000 ∧
    2 * F32.units 0xBF000000 = F32.units 0 - F32.units 0x3F800000 := by decide

/-- The last unit of each region, the addresses where regions and reserved ranges meet, and units that do not exist. -/
theorem witness_AddressMapIsTheTableOfRegions :
    region 0x001F = .sample 15 ∧ region 0x0020 = .reserved ∧ region 0x00FF = .reserved ∧
    region 0x04FD = .lfo 255 .rate ∧ region 0x04FF = .reserved ∧ region 0x0500 = .reserved ∧
    region 0x0FFF = .reserved ∧ region 0x1000 = .biq 0 .type ∧ region 0x2FF7 = .biq 255 (.cell .right .y2) ∧
    region 0x2FFF = .reserved ∧ region 0x37FC = .dly 255 .sized ∧ region 0x3800 = .reserved ∧
    region 0x4001 = .apc 0 .q ∧ region 0x4002 = .reserved ∧ region 0x41FF = .apc 0 (.freq 255) ∧
    region 0x4200 = .reserved ∧ region 0x4FFE = .apc 0 (.coef 255 .d0) ∧ region 0x57FF = .apc 0 (.cell 255 .right .y2) ∧
    region 0x5800 = .reserved ∧ region 0xBFFF = .reserved ∧ region 0xC000 = .reserved ∧
    s0.lfo.length ≤ 2 ∧ s0.dly.length ≤ 2 ∧ s0.biq.length ≤ 2 ∧ s0.apc.length ≤ 1 := by decide +kernel

theorem witness_ReadsHaveNoSideEffects :
    s0.readReg (region 0x1001) = some 0x41A00000 ∧ s0.readReg (region 0x1040) = none ∧ s0.lfo[1]? = some .reset ∧
    s1.dly[0]? = some line ∧ line.sized = true ∧ s1.dly[1]? = some .reset ∧ DlyUnit.reset.sized = false ∧
    s0.biq[1]? = some .reset ∧
    (s3 2).apc[0]? = some { active := 2, q := 0x3F800000, stages := [stage41, stage41, stage41] } ∧
    [stage41, stage41, stage41][2]? = some stage41 := by decide

/-- A reserved address, a unit and a stage that do not exist, and the three read-only registers. -/
theorem witness_BadAccessesOnlySetIlladdr :
    s0.readReg (region 0x0004) = none ∧ s0.readReg (region 0x0108) = none ∧ s0.readReg (region 0x4103) = none ∧
    region 0x3001 = .dly 0 .n ∧ region 0x3002 = .dly 0 .w ∧ region 0x3004 = .dly 0 .sized ∧
    s0.apc[0]? = some (.reset tiny) ∧ (ApcUnit.reset tiny).stages.length ≤ 3 := by decide +kernel

theorem witness_PlainRegistersReadBackWhatWasWritten :
    plainRegister (region 0x001F) = true ∧ (s0.readReg (region 0x001F)).isSome = true ∧
    plainRegister (region 0x1024) = true ∧ (s0.readReg (region 0x1024)).isSome = true ∧
    plainRegister (region 0x5017) = true ∧ (s0.readReg (region 0x5017)).isSome = true ∧
    Region.sample 0 ≠ region 0x001F := by decide

/-- One address of each clamping register, with the unit it names; reserved and legal `TYPE` values. -/
theorem witness_ClampingRegistersStoreTheClampedValue :
    region 0x0002 = .sr ∧ region 0x000A = .mixer .int ∧ region 0x0104 = .lfo 1 .phase ∧ s0.lfo[1]? = some .reset ∧
    region 0x3008 = .dly 1 .size ∧ region 0x300B = .dly 1 .fb ∧ s0.dly[1]? = some .reset ∧
    region 0x1020 = .biq 1 .type ∧ region 0x1021 = .biq 1 .cutoff ∧ region 0x1022 = .biq 1 .q ∧
    s0.biq[1]? = some .reset ∧ (10 < (11#32).toNat ∧ (10#32).toNat ≤ 10) ∧ region 0x4000 = .apc 0 .active ∧
    region 0x4001 = .apc 0 .q ∧ region 0x4102 = .apc 0 (.freq 2) ∧ s0.apc[0]? = some (.reset tiny) ∧
    (ApcUnit.reset tiny).stages[2]? = some { freq := 0x43960000, sec := .zero } := by decide +kernel

/-- A member of every list the reset statement quantifies over. -/
theorem witness_ResetValues :
    LfoUnit.reset ∈ s0.lfo ∧ DlyUnit.reset ∈ s0.dly ∧ BiqUnit.reset ∈ s0.biq ∧ ApcUnit.reset tiny ∈ s0.apc ∧
    ({ freq := 0x43960000, sec := .zero } : Stage) ∈ (ApcUnit.reset tiny).stages := by decide

theorem witness_ResetIsLegal : legalCfg Cfg.default = true ∧ legalCfg tiny = true := by decide

/-- A legal state with a command pending, whose step answers a next state. -/
theorem witness_EveryStepKeepsTheStateLegal :
    (s1.withFetchWord 32 0x21201000).legal = true ∧
    after (step (s1.withFetchWord 32 0x21201000)) (fun t => t.legal) = true := by decide +kernel

theorem witness_EveryTransactionKeepsThePhaseInvariant :
    s0.lfo.all LfoUnit.legal = true ∧ after (transact (.wr 0x0104 0x40E00000) s0) (fun _ => true) = true := by decide

theorem witness_ParametersAndCountsAreFixed :
    after (step (s0.withFetchWord 32 0x20000001)) (fun _ => true) = true := by decide

theorem witness_FlagsNeverChangeData : (Txn.rd 0x0000 ≠ .rd 0x0001) ∧ (Txn.wr 0x0001 15 ≠ .rd 0x0001) := by decide

theorem witness_OnlyAStatusWriteClearsFlags :
    (∀ m, Txn.rd 0x0001 ≠ .wr 0x0001 m) ∧
    after (transact (.rd 0x0001) { s0 with status := 0xF }) (fun t => t.status == 0xF) = true :=
  ⟨nofun, by decide⟩

theorem witness_OneTransactionRaisesAtMostOneFlag :
    (s0.withFetchWord 32 0x21201000).status = 0 ∧
    after (step (s0.withFetchWord 32 0x21201000)) (fun t => t.status == 1) = true := by decide

/-- `MIX.FB v3, v0, v1` names `v[3]` alone; `LFO.ADV 1` the unit 1 alone. -/
theorem witness_ACommandChangesOnlyItsTargets :
    after (exec (.mixFb 3 0 1) s0) (fun _ => true) = true ∧ destOf (.mixFb 3 0 1) ≠ some 2 ∧
    after (exec (.lfoAdv 1) s0) (fun _ => true) = true ∧ targetOf (.lfoAdv 1) ≠ some (.lfo, 0) ∧
    (∀ u, Instr.mixFb 3 0 1 ≠ .lfoInitr u) := by
  refine ⟨by decide, by decide, by decide, by decide, nofun⟩

theorem witness_LineLengthChangesOnlyInDlyInit :
    after (transact (.wr 0x0002 0x472C4400) s1) (fun _ => true) = true ∧
    (∀ u, Txn.wr 0x0002 0x472C4400 ≠ .wr 0x0000 (encode (.dlyInit u))) := by
  exact ⟨by decide, fun _ h => by injection h with h; exact absurd h (by decide)⟩

/-- Two states that differ in a word above `N = 4` of a sized line and in a word of an unsized one. -/
theorem witness_UnreachableHistoryIsUnobservable :
    let s' : State := { s0 with dly := [{ line with x := line.x ++ [(4, 1)] }, { DlyUnit.reset with y := [(0, 1)] }] }
    s1.legal = true ∧ s'.legal = true ∧ s1 ≠ s' ∧ s1.sameVisible s' ∧
    after (transact (.wr 0x0000 0x22201000) s1) (fun _ => true) = true := by
  refine ⟨by decide +kernel, by decide +kernel, by decide +kernel, ⟨rfl, ?_⟩, by decide +kernel⟩
  refine .cons ⟨rfl, rfl, rfl, rfl, rfl, fun _ k hk => ?_⟩ (.cons ⟨rfl, rfl, rfl, rfl, rfl, nofun⟩ .nil)
  have : ∀ k, k < 4 → line.x.read k = Memory.read (line.x ++ [(4, 1)]) k ∧ line.y.read k = line.y.read k := by decide
  exact this k hk

/-- A third of a unit; a tie (`n / d` half way between the units 2 and 3); the largest finite sizes and the first that overflows. -/
theorem witness_RoundingIsToNearestTiesToEven :
    0 < 3 ∧ F32.round false 1 3 = 0 ∧ F32.round true 5 2 = 0x80000002 ∧
    F32.isFinite (F32.round false ((2 ^ 25 - 1) * 2 ^ 252 - 1) 1) = true ∧
    F32.round false ((2 ^ 25 - 1) * 2 ^ 252) 1 = 0x7F800000 := by decide +kernel

/-- Finite operands for each clause: nonzero and zero sums and differences, both zeros negative, a zero divisor. -/
theorem witness_OperationsRoundTheExactResultOnce :
    F32.isFinite 0x3F800000 = true ∧ F32.isFinite 0x80000000 = true ∧
    F32.units 0x3F800000 + F32.units 0x80000000 ≠ 0 ∧ F32.units 0x80000000 + F32.units 0x80000000 = 0 ∧
    F32.units 0x3F800000 + F32.units 0xBF800000 = 0 ∧ F32.units 0x3F800000 - F32.units 0x80000000 ≠ 0 ∧
    F32.units 0x3F800000 ≠ 0 ∧ F32.units 0x80000000 = 0 := by decide

theorem witness_ComparisonsAreThoseOfTheValues :
    F32.isFinite 0x00000000 = true ∧ F32.isFinite 0x80000000 = true ∧ F32.isNaN 0x7FC00000 = true ∧
    F32.isNaN 0x7F800001 = true ∧ F32.isFinite 0x7F7FFFFF = true ∧ F32.isFinite 0xFF7FFFFF = true := by decide

theorem witness_SmallIntegersAreExact :
    (2 ^ 24 : Int).natAbs ≤ 2 ^ 24 ∧ (-(2 ^ 24) : Int).natAbs ≤ 2 ^ 24 ∧ F32.ofInt (2 ^ 24) = 0x4B800000 := by decide

/-- A NaN; equal values, with unlike zeros; a value by a zero; two infinities; an infinity and a finite value. -/
theorem witness_SpecialOperandsFollowIeee :
    F32.isNaN 0x7FC00000 = true ∧ F32.isFinite 0x80000000 = true ∧ F32.isFinite 0x00000000 = true ∧
    F32.units 0x80000000 = F32.units 0x00000000 ∧ F32.isFinite 0x00000001 = true ∧ F32.units 0x00000001 ≠ 0 ∧
    F32.units 0x80000000 = 0 ∧ F32.isInf 0x7F800000 = true ∧ F32.isInf 0xFF800000 = true := by decide

/-- A cutoff at exactly 4/5 (3200 of 8000 Hz) and 24/25 (3840 Hz) of Nyquist; `Q` 0.5, 100 and 1000; a notch at exactly 1/100
(80 Hz) and 6/25 (1920 Hz) of the rate; an allpass at exactly 1/1000 of the rate (20 of 20000 Hz), with the bandwidths of
`Q = 1` and `Q = 1000`; a set that meets its properties, and the trigonometric values of T3.6. -/
theorem witness_EveryOtherCoefMeetsTheTestableProperties :
    (F32.isFinite 0x45480000 = true ∧ F32.isFinite 0x45FA0000 = true ∧ 0 < F32.units 0x45480000 ∧
      2 * F32.units 0x45FA0000 = 5 * F32.units 0x45480000 ∧ 25 * F32.units 0x45480000 ≤ 12 * F32.units 0x45FA0000) ∧
    (2 * F32.units 0x45FA0000 ≤ 5 * F32.units 0x45700000 ∧ 25 * F32.units 0x45700000 = 12 * F32.units 0x45FA0000) ∧
    (2 ^ 149 = 2 * F32.units 0x3F000000 ∧ F32.units 0x447A0000 = 1000 * 2 ^ 149 ∧ F32.units 0x42C80000 = 100 * 2 ^ 149) ∧
    (F32.units 0x45FA0000 = 100 * F32.units 0x42A00000 ∧ 25 * F32.units 0x42A00000 ≤ 6 * F32.units 0x45FA0000) ∧
    25 * F32.units 0x44F00000 = 6 * F32.units 0x45FA0000 ∧
    (F32.units 0x469C4000 = 1000 * F32.units 0x41A00000 ∧ 2 * F32.units 0x41A00000 < F32.units 0x469C4000 ∧
      F32.div 0x7FC00000 0x41A00000 0x3F800000 = 0x41A00000 ∧
      F32.div 0x7FC00000 0x41A00000 0x447A0000 = 0x3CA3D70A ∧ F32.isFinite 0x3CA3D70A = true ∧
      F32.units 0x41A00000 ≤ 1001 * F32.units 0x3CA3D70A ∧ F32.units 0x3CA3D70A ≤ F32.units 0x41A00000) ∧
    meetsProperties .bp 0 0 0 .zero = true ∧
    (trig36 0x3D922480).sin 0x3E11E531 = 0x3E1166F5 ∧ (trig36 0x3D922480).cos 0x3E11E531 = 0x3F7D67F4 ∧
    (trig36 0x3D922480).tan 0x3D91E531 = 0x3D922480 := by decide +kernel

/-- A finite stable set; the identity, for which `H = 1` solves the equation, and the solution that is 0 throughout; the angle
`π / 3`, whose cosine is `1 / 2`, with equal magnitudes, which agree; the radius 1. -/
theorem witness_PropertiesSpeakOfTheFrequencyResponse :
    finiteSet t31 = true ∧ settles t31 = true ∧
    (∀ z : ℂ, (1 : ℂ) * ((oneUnits : Int) + (0 : Int) * z + (0 : Int) * z ^ 2) =
      (oneUnits : Int) + (0 : Int) * z + (0 : Int) * z ^ 2) ∧
    forward (feedForward F32.one F32.zero F32.zero .zero) = ⟨oneUnits, 0, 0⟩ ∧
    feedback (feedForward F32.one F32.zero F32.zero .zero) = ⟨oneUnits, 0, 0⟩ ∧
    (∀ m : ℕ, (feedback t31).p0 * (0 : ℕ → ℂ) (m + 2) =
      -((feedback t31).p1 * (0 : ℕ → ℂ) (m + 1)) - (feedback t31).p2 * (0 : ℕ → ℂ) m) ∧
    (⟨1, 2⟩ : Cosine).d ≠ 0 ∧ Real.cos (Real.pi / 3) = ((1 : Int) : ℝ) / ((2 : Int) : ℝ) ∧ (0 : Int) < 1 ∧
    |‖(1 : ℂ)‖ - ‖(1 : ℂ)‖| ≤ (oneUnits : ℝ) / 2 ^ 18 ∧ magnitudesAgree ⟨1, 0, 0⟩ ⟨1, 0, 0⟩ ⟨1, 2⟩ = true :=
  ⟨by decide, by decide, fun z => by ring, by decide, by decide, fun m => by simp, by decide,
    by rw [Real.cos_pi_div_three]; norm_num, by decide, by norm_num [oneUnits], by decide⟩

end Sys2Proof.Tests
end

section
/-! PROOFS. The register state: the reset values (R47) and the independence of a biquad's two channels (R40). -/

namespace Sys2Proof.Machine

/-! ### Registers that read `+0` -/

/-- Every coefficient of the zero set is `+0`. -/
@[simp] theorem coeffsZero_get (r : CoefReg) : Coeffs.zero.get r = 0 := by
  cases r <;> rfl

/-- Every cell of the zero history is `+0`. -/
@[simp] theorem cellsZero_get (r : CellReg) : Cells.zero.get r = 0 := by
  cases r <;> rfl

/-- Both channels of the zero section hold the zero history. -/
@[simp] theorem sectionZero_cells (ch : Channel) : Section.zero.cells ch = .zero := by
  cases ch <;> rfl

/-- Every sample register is `+0` after reset. -/
@[simp] theorem resetOf_readV (c : Cfg) (i : Reg) : (State.resetOf c).readV i = 0 := by
  simp [State.readV, State.resetOf]

/-! ### The two channels of a section -/

@[simp] theorem setCells_coeffs (b : Section) (ch : Channel) (h : Cells) : (b.setCells ch h).coeffs = b.coeffs := by
  cases ch <;> rfl

@[simp] theorem setCells_cells_same (b : Section) (ch : Channel) (h : Cells) : (b.setCells ch h).cells ch = h := by
  cases ch <;> rfl

/-- Replacing one channel's cells leaves the other channel's alone. -/
theorem setCells_cells_other (b : Section) {ch c : Channel} (hc : c ≠ ch) (h : Cells) :
    (b.setCells ch h).cells c = b.cells c := by
  cases ch <;> cases c
  · exact absurd rfl hc
  · rfl
  · rfl
  · exact absurd rfl hc

/-- A step on a channel sees the coefficients and that channel's cells only (R40): two sections that agree on them give the
same output and the same new cells. -/
theorem step_congr (d : Nat → Word) {b b' : Section} {ch : Channel} (x : Word) (hk : b'.coeffs = b.coeffs)
    (hc : b'.cells ch = b.cells ch) :
    (b'.step d ch x).1 = (b.step d ch x).1 ∧ (b'.step d ch x).2.cells ch = (b.step d ch x).2.cells ch := by
  obtain ⟨hout, -, hcells, -⟩ := step_spec d b ch x
  obtain ⟨hout', -, hcells', -⟩ := step_spec d b' ch x
  exact ⟨by rw [hout', hout, hk, hc], by rw [hcells', hcells, hk, hc]⟩

/-! ### `BIQ.PROC` on a unit that exists -/

/-- The drawn NaNs do not depend on the biquads. -/
@[simp] theorem setBiq_nan (s : State) (u : Nat) (b : BiqUnit) : (s.setBiq u b).nan = s.nan := rfl

/-- A biquad that exists reads as what it was replaced by. -/
theorem setBiq_get_same {s : State} {u : Nat} {b : BiqUnit} (h : s.biq[u]? = some b) (b' : BiqUnit) :
    (s.setBiq u b').biq[u]? = some b' := by
  obtain ⟨hu, -⟩ := List.getElem?_eq_some_iff.1 h
  simp [hu]

/-- `BIQ.PROC` steps the section of its unit and writes the output to its destination (R181). -/
theorem exec_biqProc_of_unit {s : State} {u : UnitIdx} {b : BiqUnit} (h : s.biq[u.toNat]? = some b) (rd ra : Reg)
    (ch : Channel) :
    exec (.biqProc rd ra ch u) s =
      .next ((s.setBiq u.toNat { b with sec := (b.sec.step s.nan ch (s.readV ra)).2 }).writeV rd
        (b.sec.step s.nan ch (s.readV ra)).1) := by
  simp only [exec, execBiqProc, h]

/-- What `BIQ.PROC` leaves behind, seen from its destination and its unit. -/
theorem exec_biqProc_reads {s : State} {u : UnitIdx} {b : BiqUnit} (h : s.biq[u.toNat]? = some b) (rd ra : Reg)
    (ch : Channel) :
    ∃ t, exec (.biqProc rd ra ch u) s = .next t ∧ t.readV rd = (b.sec.step s.nan ch (s.readV ra)).1 ∧
      t.biq[u.toNat]? = some { b with sec := (b.sec.step s.nan ch (s.readV ra)).2 } :=
  ⟨_, exec_biqProc_of_unit h rd ra ch, readV_writeV_same .., setBiq_get_same h _⟩

/-! ### The statements -/

/-- Settles O43: every list of units is a replicated reset unit, whose registers are read off. -/
theorem resetValues : Obligations.ResetValues := by
  intro c
  refine ⟨resetOf_readV c, rfl, rfl, rfl, rfl, rfl, rfl, rfl, rfl, rfl, rfl, List.length_replicate, fun l hl => ?_,
    List.length_replicate, fun l hl => ?_, List.length_replicate, fun b hb => ?_, List.length_replicate, fun a ha => ?_⟩
  · cases List.eq_of_mem_replicate hl
    exact ⟨rfl, rfl⟩
  · cases List.eq_of_mem_replicate hl
    exact ⟨rfl, rfl, rfl, rfl, rfl⟩
  · cases List.eq_of_mem_replicate hb
    exact ⟨rfl, rfl, rfl, rfl, coeffsZero_get, by simp [BiqUnit.reset]⟩
  · cases List.eq_of_mem_replicate ha
    refine ⟨rfl, rfl, List.length_replicate, fun st hst => ?_⟩
    cases List.eq_of_mem_replicate hst
    exact ⟨rfl, coeffsZero_get, by simp⟩

/-- Settles O28: replacing the other channel's cells changes neither the coefficients nor the cells the step sees, and the
step writes its own channel's cells only. -/
theorem channelsAreIndependent : Obligations.ChannelsAreIndependent := by
  intro rd ra u s b ch other h hb hne
  obtain ⟨t, ht, hout, hunit⟩ := exec_biqProc_reads hb rd ra ch
  obtain ⟨t', ht', hout', hunit'⟩ :=
    exec_biqProc_reads (setBiq_get_same hb { b with sec := b.sec.setCells other h }) rd ra ch
  rw [setBiq_nan, setBiq_readV] at hout' hunit'
  obtain ⟨-, hcoeffs, -, hother⟩ := step_spec s.nan b.sec ch (s.readV ra)
  obtain ⟨-, hcoeffs', -, hother'⟩ := step_spec s.nan (b.sec.setCells other h) ch (s.readV ra)
  have hk : (b.sec.setCells other h).coeffs = b.sec.coeffs := setCells_coeffs ..
  obtain ⟨hsame, hcells⟩ := step_congr s.nan (s.readV ra) hk (setCells_cells_other b.sec hne h)
  refine ⟨t, t', ht, ht', hout.trans (hout'.trans hsame).symm, _, _, hunit, hunit', hcells.symm, ?_, ?_, ?_⟩
  · exact hcoeffs.trans (hcoeffs'.trans hk).symm
  · exact hother other hne.symm
  · exact (hother' other hne.symm).trans (setCells_cells_same ..)

end Sys2Proof.Machine
end

section
/-! PROOFS. The register space: the address map (R61) and what a read answers (R65, R102, R103). -/

namespace Sys2Proof.Machine

/-! ### The registers of a region, by unit and offset (R61) -/

/-- Offset `j` of LFO `u` names the register at `j` of the LFO table (R30). -/
theorem region_lfo {u j : Nat} (hu : u < 256) (hj : j < 4) :
    region (BitVec.ofNat 16 (0x0100 + 4 * u + j)) = ((lfoRegOf j).map (.lfo u)).getD .reserved := by
  have hoff : (0x0100 + 4 * u + j - 0x0100) % 4 = j := by omega
  have hunit : (0x0100 + 4 * u + j - 0x0100) / 4 = u := by omega
  simp (disch := omega) only [region, BitVec.toNat_ofNat, Nat.mod_eq_of_lt, if_neg, if_pos, hoff, hunit]

/-- Offset `j` of biquad `u` names the register at `j` of the biquad table (R38). -/
theorem region_biq {u j : Nat} (hu : u < 256) (hj : j < 32) :
    region (BitVec.ofNat 16 (0x1000 + 32 * u + j)) = ((biqRegOf j).map (.biq u)).getD .reserved := by
  have hoff : (0x1000 + 32 * u + j - 0x1000) % 32 = j := by omega
  have hunit : (0x1000 + 32 * u + j - 0x1000) / 32 = u := by omega
  simp (disch := omega) only [region, BitVec.toNat_ofNat, Nat.mod_eq_of_lt, if_neg, if_pos, hoff, hunit]

/-- Offset `j` of delay line `u` names the register at `j` of the delay line table (R32). -/
theorem region_dly {u j : Nat} (hu : u < 256) (hj : j < 8) :
    region (BitVec.ofNat 16 (0x3000 + 8 * u + j)) = ((dlyRegOf j).map (.dly u)).getD .reserved := by
  have hoff : (0x3000 + 8 * u + j - 0x3000) % 8 = j := by omega
  have hunit : (0x3000 + 8 * u + j - 0x3000) / 8 = u := by omega
  simp (disch := omega) only [region, BitVec.toNat_ofNat, Nat.mod_eq_of_lt, if_neg, if_pos, hoff, hunit]

/-- Offset `j` of cascade `a` names the register at `j` of the cascade table (R42). -/
theorem region_apc {a j : Nat} (ha : a < 4) (hj : j < 0x2000) :
    region (BitVec.ofNat 16 (0x4000 + 0x2000 * a + j)) = ((apcRegOf j).map (.apc a)).getD .reserved := by
  have hoff : (0x4000 + 0x2000 * a + j - 0x4000) % 0x2000 = j := by omega
  have hunit : (0x4000 + 0x2000 * a + j - 0x4000) / 0x2000 = a := by omega
  simp (disch := omega) only [region, BitVec.toNat_ofNat, Nat.mod_eq_of_lt, if_neg, if_pos, hoff, hunit]

/-- The sample registers stand at `0x0010 + i` (R20). -/
theorem region_sample (i : Reg) : region (BitVec.ofNat 16 (0x0010 + i.toNat)) = .sample i := by
  have hi : i.toNat < 16 := i.isLt
  simp (disch := omega) only [region, BitVec.toNat_ofNat, Nat.mod_eq_of_lt, if_neg, if_pos, Nat.add_sub_cancel_left,
    BitVec.ofNat_toNat, BitVec.setWidth_eq]

/-- The addresses between the regions and above the last one are reserved (R61). -/
theorem region_gap {n : Nat}
    (h : (0x0004 ≤ n ∧ n < 0x0008) ∨ (0x000E ≤ n ∧ n < 0x0010) ∨ (0x0020 ≤ n ∧ n < 0x0100) ∨
      (0x0500 ≤ n ∧ n < 0x1000) ∨ (0x3800 ≤ n ∧ n < 0x4000) ∨ (0xC000 ≤ n ∧ n < 0x10000)) :
    region (BitVec.ofNat 16 n) = .reserved := by
  by_cases hmix : 0x000E ≤ n ∧ n < 0x0010
  · obtain ⟨hlo, hhi⟩ := hmix
    interval_cases n <;> rfl
  · simp (disch := omega) only [region, BitVec.toNat_ofNat, Nat.mod_eq_of_lt, if_neg]

/-! ### The blocks of a cascade (R42) -/

/-- `F[k]` stands at `0x0100 + k`. -/
theorem apcRegOf_freq {k : Nat} (hk : k < 256) : apcRegOf (0x0100 + k) = some (.freq k) := by
  simp (disch := omega) only [apcRegOf, if_neg, if_pos, Nat.add_sub_cancel_left]

/-- The coefficients of stage `k` stand from `0x0800 + 8·k`. -/
theorem apcRegOf_coef {k j : Nat} (hk : k < 256) (hj : j < 8) :
    apcRegOf (0x0800 + 8 * k + j) = (coefRegOf j).map (.coef k) := by
  have hoff : (0x0800 + 8 * k + j - 0x0800) % 8 = j := by omega
  have hstage : (0x0800 + 8 * k + j - 0x0800) / 8 = k := by omega
  simp (disch := omega) only [apcRegOf, if_neg, if_pos, hoff, hstage]

/-- The cells of stage `k` stand from `0x1000 + 8·k`. -/
theorem apcRegOf_cell {k j : Nat} (hk : k < 256) (hj : j < 8) :
    apcRegOf (0x1000 + 8 * k + j) = (cellRegOf j).map (fun c => .cell k c.1 c.2) := by
  have hoff : (0x1000 + 8 * k + j - 0x1000) % 8 = j := by omega
  have hstage : (0x1000 + 8 * k + j - 0x1000) / 8 = k := by omega
  simp (disch := omega) only [apcRegOf, if_neg, if_pos, hoff, hstage]

/-- The offsets of a cascade outside its blocks name no register. -/
theorem apcRegOf_gap {o : Nat} (h : (2 ≤ o ∧ o < 0x0100) ∨ (0x0200 ≤ o ∧ o < 0x0800) ∨ 0x1800 ≤ o) :
    apcRegOf o = none := by
  simp (disch := omega) only [apcRegOf, if_neg]

/-- `F[k]` of cascade `a` by its address. -/
theorem region_apc_freq {a k : Nat} (ha : a < 4) (hk : k < 256) :
    region (BitVec.ofNat 16 (0x4000 + 0x2000 * a + 0x0100 + k)) = .apc a (.freq k) := by
  rw [Nat.add_assoc, region_apc ha (by omega), apcRegOf_freq hk]
  rfl

/-- The coefficient block of stage `k` of cascade `a`, by address. -/
theorem region_apc_coef {a k j : Nat} (ha : a < 4) (hk : k < 256) (hj : j < 8) :
    region (BitVec.ofNat 16 (0x4000 + 0x2000 * a + 0x0800 + 8 * k + j)) =
      (((coefRegOf j).map (ApcReg.coef k)).map (.apc a)).getD .reserved := by
  rw [← apcRegOf_coef hk hj, ← region_apc ha (by omega)]
  simp only [Nat.add_assoc]

/-- The history block of stage `k` of cascade `a`, by address. -/
theorem region_apc_cell {a k j : Nat} (ha : a < 4) (hk : k < 256) (hj : j < 8) :
    region (BitVec.ofNat 16 (0x4000 + 0x2000 * a + 0x1000 + 8 * k + j)) =
      (((cellRegOf j).map (fun c => ApcReg.cell k c.1 c.2)).map (.apc a)).getD .reserved := by
  rw [← apcRegOf_cell hk hj, ← region_apc ha (by omega)]
  simp only [Nat.add_assoc]

/-- The offsets of a cascade outside its blocks are reserved. -/
theorem region_apc_gap {a o : Nat} (ha : a < 4) (ho : o < 0x2000)
    (h : (2 ≤ o ∧ o < 0x0100) ∨ (0x0200 ≤ o ∧ o < 0x0800) ∨ 0x1800 ≤ o) :
    region (BitVec.ofNat 16 (0x4000 + 0x2000 * a + o)) = .reserved := by
  rw [region_apc ha ho, apcRegOf_gap h]
  rfl

/-! ### What a read of a register answers (R102, R103) -/

section Reads
variable {s : State} {u a k : Nat}

/-- An LFO register of a unit that exists reads as the unit holds it. -/
theorem readReg_lfo {l : LfoUnit} (h : s.lfo[u]? = some l) (r : LfoReg) : s.readReg (.lfo u r) = some (l.get r) := by
  simp only [State.readReg, h, Option.map_some]

/-- A delay line register of a unit that exists reads as the unit holds it. -/
theorem readReg_dly {l : DlyUnit} (h : s.dly[u]? = some l) (r : DlyReg) : s.readReg (.dly u r) = some (l.get r) := by
  simp only [State.readReg, h, Option.map_some]

/-- A biquad register of a unit that exists reads as the unit holds it. -/
theorem readReg_biq {b : BiqUnit} (h : s.biq[u]? = some b) (r : BiqReg) : s.readReg (.biq u r) = some (b.get r) := by
  simp only [State.readReg, h, Option.map_some]

/-- A cascade register of a unit that exists reads as the unit answers it. -/
theorem readReg_apc {c : ApcUnit} (h : s.apc[a]? = some c) (r : ApcReg) : s.readReg (.apc a r) = c.get r := by
  simp only [State.readReg, h, Option.bind_some]

/-- No register of an LFO that does not exist reads. -/
theorem readReg_lfo_missing (h : s.lfo.length ≤ u) (r : LfoReg) : s.readReg (.lfo u r) = none := by
  simp only [State.readReg, List.getElem?_eq_none h, Option.map_none]

/-- No register of a delay line that does not exist reads. -/
theorem readReg_dly_missing (h : s.dly.length ≤ u) (r : DlyReg) : s.readReg (.dly u r) = none := by
  simp only [State.readReg, List.getElem?_eq_none h, Option.map_none]

/-- No register of a biquad that does not exist reads. -/
theorem readReg_biq_missing (h : s.biq.length ≤ u) (r : BiqReg) : s.readReg (.biq u r) = none := by
  simp only [State.readReg, List.getElem?_eq_none h, Option.map_none]

/-- No register of a cascade that does not exist reads. -/
theorem readReg_apc_missing (h : s.apc.length ≤ a) (r : ApcReg) : s.readReg (.apc a r) = none := by
  simp only [State.readReg, List.getElem?_eq_none h, Option.bind_none]

/-- A coefficient of a stage that exists reads as the stage holds it. -/
theorem apcGet_coef {c : ApcUnit} {st : Stage} (h : c.stages[k]? = some st) (r : CoefReg) :
    c.get (.coef k r) = some (st.sec.coeffs.get r) := by
  simp only [ApcUnit.get, h, Option.map_some]

/-- A cell of a stage that exists reads as the stage holds it. -/
theorem apcGet_cell {c : ApcUnit} {st : Stage} (h : c.stages[k]? = some st) (ch : Channel) (r : CellReg) :
    c.get (.cell k ch r) = some ((st.sec.cells ch).get r) := by
  simp only [ApcUnit.get, h, Option.map_some]

/-- The frequency of a stage that exists reads as the stage holds it. -/
theorem apcGet_freq {c : ApcUnit} {st : Stage} (h : c.stages[k]? = some st) : c.get (.freq k) = some st.freq := by
  simp only [ApcUnit.get, h, Option.map_some]

/-- Reads that answer a section's coefficients and cells by name are the reads of that section. -/
theorem sectionReads_of_get {b : Section} {coef : CoefReg → Option Word} {cell : Channel → CellReg → Option Word}
    (hcoef : ∀ r, coef r = some (b.coeffs.get r)) (hcell : ∀ ch r, cell ch r = some ((b.cells ch).get r)) :
    sectionReads b coef cell :=
  ⟨hcoef .a0, hcoef .a1, hcoef .a2, hcoef .b0, hcoef .b1, hcoef .c0, hcoef .d0, hcell .left .x1, hcell .left .x2,
    hcell .left .y1, hcell .left .y2, hcell .right .x1, hcell .right .x2, hcell .right .y1, hcell .right .y2⟩

/-- `STATUS` reads as its four bits under 28 zero bits (R25). -/
theorem readReg_status (s : State) : s.readReg .status = some (0#28 ++ s.status) := by
  rw [State.readReg, BitVec.setWidth_eq_append (by omega), BitVec.cast_eq]

/-! ### The read transaction (R65) -/

variable {addr : Addr}

/-- A read of a register replies its word and changes nothing else. -/
theorem transact_rd_of_some {w : Word} (h : s.readReg (region addr) = some w) :
    transact (.rd addr) s = .next { s with reply := some w } := by
  simp only [transact, memRead, h]

/-- A read of a bad address replies 0 and sets `ILLADDR`. -/
theorem transact_rd_of_none (h : s.readReg (region addr) = none) :
    transact (.rd addr) s = .next { s.raise .illaddr with reply := some 0 } := by
  simp only [transact, memRead, h]

end Reads

/-! ### The statements -/

/-- Settles O37: the unit and the offset of an address decide its register, so each table is read off offset by offset. -/
theorem addressMapIsTheTableOfRegions : Obligations.AddressMapIsTheTableOfRegions := by
  refine ⟨rfl, rfl, rfl, rfl, rfl, rfl, rfl, rfl, rfl, rfl, region_sample, fun u j hu hj => ?lfo, fun u j hu hj => ?biq,
    fun u j hu hj => ?dly, fun a ha => ⟨region_apc (j := 0) ha (by omega), region_apc (j := 1) ha (by omega)⟩,
    fun a k => region_apc_freq, fun a k j ha hk hj => ?coef, fun a k j ha hk hj => ?cell, fun a o => region_apc_gap,
    fun n => region_gap, fun s => ⟨rfl, fun _ r h => readReg_lfo_missing h r, fun _ r h => readReg_dly_missing h r,
      fun _ r h => readReg_biq_missing h r, fun _ r h => readReg_apc_missing h r⟩⟩
  case lfo =>
    rw [region_lfo hu hj]
    interval_cases j <;> rfl
  case biq =>
    rw [region_biq hu hj]
    interval_cases j <;> rfl
  case dly =>
    rw [region_dly hu hj]
    interval_cases j <;> rfl
  case coef =>
    rw [region_apc_coef ha hk hj]
    interval_cases j <;> rfl
  case cell =>
    rw [region_apc_cell ha hk hj]
    interval_cases j <;> rfl

/-- Settles O38: the read transaction is decided by `readReg`, whose word is read off register by register. -/
theorem readsHaveNoSideEffects : Obligations.ReadsHaveNoSideEffects := by
  refine ⟨fun addr s => ⟨fun w => transact_rd_of_some, transact_rd_of_none⟩, fun s => ⟨transact_rd_of_some rfl,
    transact_rd_of_some (readReg_status s), transact_rd_of_some rfl, transact_rd_of_some rfl, transact_rd_of_some rfl,
    transact_rd_of_some rfl, transact_rd_of_some rfl, transact_rd_of_some rfl, transact_rd_of_some rfl,
    transact_rd_of_some rfl, fun i => rfl, fun u l hl => ?lfo, fun u l hl => ?dly, fun u b hb => ?biq,
    fun a c hc => ?apc⟩⟩
  case lfo => exact ⟨readReg_lfo hl .phase, readReg_lfo hl .rate⟩
  case dly =>
    exact ⟨readReg_dly hl .size, readReg_dly hl .n, readReg_dly hl .w, readReg_dly hl .fb, readReg_dly hl .sized⟩
  case biq =>
    refine ⟨?type, readReg_biq hb .cutoff, readReg_biq hb .q, readReg_biq hb .gain,
      sectionReads_of_get (fun r => readReg_biq hb (.coef r)) (fun ch r => readReg_biq hb (.cell ch r))⟩
    rw [readReg_biq hb, BiqUnit.get]
    cases b.type <;> rfl
  case apc =>
    exact ⟨readReg_apc hc .active, readReg_apc hc .q, fun k st hst => ⟨(readReg_apc hc _).trans (apcGet_freq hst),
      sectionReads_of_get (fun r => (readReg_apc hc _).trans (apcGet_coef hst r))
        (fun ch r => (readReg_apc hc _).trans (apcGet_cell hst ch r))⟩⟩

end Sys2Proof.Machine
end

section
/-! PROOFS. The command words: which words the decoder reads as which row's command (R86), and what executing a word that
is no command, or whose unit does not exist, answers (R84, R88). -/

namespace Sys2Proof

/-! ### The rows of the opcode map (R86) -/

/-- Every row's mask keeps the whole opcode field. -/
theorem op_mask (o : Op) : Word.op o.mask = 0xFF := by cases o <;> decide

/-- Every row's match has the row's opcode. -/
theorem op_pattern (o : Op) : Word.op o.pattern = o.code := by cases o <;> decide

/-- The row of an opcode is found by it, because the opcodes differ. -/
theorem ofCode_code (o : Op) : Op.ofCode o.code = some o := by cases o <;> decide

section
variable {w : Word} {o : Op}

/-- A word that matches a row has the row's opcode. -/
theorem op_eq_code_of_match (h : w &&& o.mask = o.pattern) : Word.op w = o.code := by
  calc Word.op w
    _ = Word.op w &&& Word.op o.mask := by rw [op_mask]; exact BitVec.and_allOnes.symm
    _ = Word.op (w &&& o.mask) := BitVec.extractLsb'_and.symm
    _ = o.code := by rw [h, op_pattern]

/-- No two rows match one word. -/
theorem row_unique {o' : Op} (h : w &&& o.mask = o.pattern) (h' : w &&& o'.mask = o'.pattern) : o = o' := by
  have hcode : o.code = o'.code := (op_eq_code_of_match h).symm.trans (op_eq_code_of_match h')
  exact Option.some.inj (by rw [← ofCode_code o, ← ofCode_code o', hcode])

/-! ### The decoder -/

/-- A word that matches a row is the row's command. -/
theorem decode_of_match (h : w &&& o.mask = o.pattern) : decode w = .ok (o.build w) := by
  simp only [decode, op_eq_code_of_match h, ofCode_code, if_pos h]

/-- A word that matches no row is refused. -/
theorem decode_of_no_match (h : ∀ o : Op, w &&& o.mask ≠ o.pattern) : ∃ e, decode w = .reject e := by
  unfold decode
  split
  · exact ⟨_, rfl⟩
  · rw [if_neg (h _)]
    exact ⟨_, rfl⟩

end

end Sys2Proof

namespace Sys2Proof.Machine

/-! ### Executing a word (R88, R107) -/

section
variable {w : Word} {s : State}

/-- A word that decodes to a command executes it. -/
theorem execute_of_ok {i : Instr} (h : decode w = .ok i) : execute w s = exec i s := by
  simp only [execute, h]

/-- A word that the decoder refuses is an illegal command. -/
theorem execute_of_reject {e : DecodeError} (h : decode w = .reject e) : execute w s = illegalCommand s := by
  simp only [execute, h]

/-- A command that fails the unit check is an illegal command: the list of its family has no such unit (R84, R88). -/
theorem exec_of_not_wellFormed {i : Instr} (h : i.wellFormed s.sizes = false) : exec i s = illegalCommand s := by
  cases i with
  | nop | mixWd | mixInt | mixFb | msL | msR => exact Bool.noConfusion h
  | lfoInit u | lfoInitp _ u | lfoInitr u | lfoNext _ u | lfoRange _ _ _ u | lfoAdv u =>
    have hmissing : s.lfo[u.toNat]? = none := List.getElem?_eq_none (not_lt.1 (of_decide_eq_false h))
    simp only [exec, execLfoInit, execLfoInitp, execLfoInitr, execLfoNext, execLfoRange, execLfoAdv, hmissing]
  | dlyInit u | dlyProci _ _ _ u | dlyProcf _ _ _ u =>
    have hmissing : s.dly[u.toNat]? = none := List.getElem?_eq_none (not_lt.1 (of_decide_eq_false h))
    simp only [exec, execDlyInit, execDlyProci, execDlyProcf, hmissing]
  | biqSet u | biqProc _ _ _ u | biqRst u =>
    have hmissing : s.biq[u.toNat]? = none := List.getElem?_eq_none (not_lt.1 (of_decide_eq_false h))
    simp only [exec, execBiqSet, execBiqProc, execBiqRst, hmissing]
  | apcSet a | apcProc _ _ _ a | apcRst a =>
    have hmissing : s.apc[a.toNat]? = none := List.getElem?_eq_none (not_lt.1 (of_decide_eq_false h))
    simp only [exec, execApcSet, execApcProc, execApcRst, hmissing]

end

/-! ### The statement -/

/-- Settles O3: a matching row has the word's opcode, so the decoder finds it and no other; a word that is refused, or
whose command fails the unit check, is an illegal command. -/
theorem commandWordsAreThoseOfTheOpcodeMap : Obligations.CommandWordsAreThoseOfTheOpcodeMap := by
  refine ⟨rfl, fun s w => ⟨fun o hmatch _ => execute_of_ok (decode_of_match hmatch), fun hill => ?illegal,
    fun o o' => row_unique⟩⟩
  case illegal =>
    by_cases hrow : ∃ o : Op, w &&& o.mask = o.pattern
    · obtain ⟨o, hmatch⟩ := hrow
      exact (execute_of_ok (decode_of_match hmatch)).trans (exec_of_not_wellFormed (hill o hmatch))
    · obtain ⟨e, he⟩ := decode_of_no_match (not_exists.1 hrow)
      exact execute_of_reject he

end Sys2Proof.Machine
end

section
/-! PROOFS. The system command `NOP` (R105). -/

namespace Sys2Proof

/-- A word assembled from an opcode and 24 further bits has that opcode (R81). -/
theorem op_append (c : BitVec 8) (x : BitVec 24) : Word.op (c ++ x) = c :=
  BitVec.extractLsb'_append_eq_left

/-- The only row with opcode 0 is `NOP` (R86). -/
theorem eq_nop_of_code {o : Op} (h : o.code = 0#8) : o = .nop :=
  Option.some.inj (by rw [← ofCode_code o, h]; rfl)

/-- A word of opcode 0 with a nonzero bit in bits 23:0 is in no row: the only candidate, `NOP`, fixes all 32 bits. -/
theorem no_match_of_opcode_zero {x : BitVec 24} (hx : x ≠ 0) (o : Op) : (0x00#8 ++ x) &&& o.mask ≠ o.pattern := by
  intro hmatch
  have hcode : o.code = 0#8 := by rw [← op_eq_code_of_match hmatch, op_append]
  obtain rfl := eq_nop_of_code hcode
  have hword : 0x00#8 ++ x = 0x00#8 ++ 0#24 := BitVec.and_allOnes.symm.trans hmatch
  exact hx ((BitVec.append_right_inj _).1 hword)

end Sys2Proof

namespace Sys2Proof.Machine

/-- Settles O7: a word of opcode 0 that is not all zero is in no row of the opcode map, so the decoder refuses it. -/
theorem nopChangesNothing : Obligations.NopChangesNothing := by
  refine ⟨rfl, fun s => rfl, fun x s hx => ?illegal⟩
  case illegal =>
    obtain ⟨e, he⟩ := decode_of_no_match (no_match_of_opcode_zero hx)
    exact execute_of_reject he

end Sys2Proof.Machine
end

section
/-! PROOFS. Register writes: what a write to a bad address (R103) and to a clamping register (R104) answers. -/

namespace Sys2Proof.Machine

section Writes
variable {s : State} {addr : Addr} {d : Word} {u a k : Nat}

/-! ### The write transaction (R101) -/

/-- A write to any register but `CMD` stores what the register's own rule says. -/
theorem transact_wr_of_region {r : Region} (hr : region addr = r) (hcmd : r ≠ .cmd) :
    transact (.wr addr d) s = .next (s.writeReg d r) := by
  subst hr
  exact if_neg hcmd

/-- A write to an LFO that exists. -/
theorem transact_wr_lfo {l : LfoUnit} {r : LfoReg} (hr : region addr = .lfo u r) (hl : s.lfo[u]? = some l) :
    transact (.wr addr d) s = .next (s.writeLfo u l d r) := by
  rw [transact_wr_of_region hr nofun]
  simp only [State.writeReg, hl]

/-- A write to a delay line that exists. -/
theorem transact_wr_dly {l : DlyUnit} {r : DlyReg} (hr : region addr = .dly u r) (hl : s.dly[u]? = some l) :
    transact (.wr addr d) s = .next (s.writeDly u l d r) := by
  rw [transact_wr_of_region hr nofun]
  simp only [State.writeReg, hl]

/-- A write to a biquad that exists. -/
theorem transact_wr_biq {b : BiqUnit} {r : BiqReg} (hr : region addr = .biq u r) (hb : s.biq[u]? = some b) :
    transact (.wr addr d) s = .next (s.writeBiq u b d r) := by
  rw [transact_wr_of_region hr nofun]
  simp only [State.writeReg, hb]

/-- A write to a cascade that exists. -/
theorem transact_wr_apc {c : ApcUnit} {r : ApcReg} (hr : region addr = .apc a r) (hc : s.apc[a]? = some c) :
    transact (.wr addr d) s = .next (s.writeApc a c d r) := by
  rw [transact_wr_of_region hr nofun]
  simp only [State.writeReg, hc]

/-! ### Bad accesses (R103) -/

/-- No register of a stage that does not exist reads. -/
theorem apcGet_stage_missing {c : ApcUnit} (h : c.stages.length ≤ k) :
    c.get (.freq k) = none ∧ (∀ r, c.get (.coef k r) = none) ∧ ∀ ch r, c.get (.cell k ch r) = none := by
  simp only [ApcUnit.get, List.getElem?_eq_none h, Option.map_none, implies_true, and_self]

/-- A cascade register that reads nothing stores nothing: its stage does not exist. -/
theorem writeApc_of_get_none {c : ApcUnit} {r : ApcReg} (h : c.get r = none) :
    s.writeApc a c d r = s.raise .illaddr := by
  cases r with
  | active | q => exact absurd h (Option.some_ne_none _)
  | freq k =>
    have hmissing : c.stages[k]? = none := Option.map_eq_none_iff.1 h
    simp only [State.writeApc, State.writeFreq, hmissing]
  | coef k _ | cell k _ _ =>
    have hmissing : c.stages[k]? = none := Option.map_eq_none_iff.1 h
    simp only [State.writeApc, State.writeStage, hmissing]

/-- A register that reads nothing stores nothing: it is reserved, or its unit or stage does not exist. -/
theorem writeReg_of_readReg_none {r : Region} (h : s.readReg r = none) : s.writeReg d r = s.raise .illaddr := by
  cases r with
  | cmd | status | sr | seed | mixer | sample => exact absurd h (Option.some_ne_none _)
  | lfo u _ | dly u _ | biq u _ =>
    have hmissing := Option.map_eq_none_iff.1 h
    simp only [State.writeReg, hmissing]
  | apc a r =>
    cases hc : s.apc[a]? with
    | none => simp only [State.writeReg, hc]
    | some c =>
      rw [readReg_apc hc] at h
      simp only [State.writeReg, hc, writeApc_of_get_none h]
  | reserved => rfl

/-- A write to an address that reads nothing sets `ILLADDR` alone. -/
theorem transact_wr_of_none (h : s.readReg (region addr) = none) :
    transact (.wr addr d) s = .next (s.raise .illaddr) := by
  have hcmd : region addr ≠ .cmd := fun hr => absurd (hr ▸ h) (Option.some_ne_none _)
  rw [transact_wr_of_region rfl hcmd, writeReg_of_readReg_none h]

/-- `N`, `W` and `SIZED` are read-only, whether or not the delay line exists. -/
theorem transact_wr_readOnly {r : DlyReg} (hr : region addr = .dly u r) (hro : r = .n ∨ r = .w ∨ r = .sized) :
    transact (.wr addr d) s = .next (s.raise .illaddr) := by
  cases hl : s.dly[u]? with
  | none => exact transact_wr_of_none (by rw [hr, State.readReg, hl, Option.map_none])
  | some l =>
    rw [transact_wr_dly hr hl]
    obtain rfl | rfl | rfl := hro <;> rfl

/-! ### Clamping registers (R104) -/

/-- A raise under a condition touches `STATUS` alone. -/
theorem next_raiseIf_clamp (s : State) (c : Bool) :
    (.next (s.raiseIf c .clamp) : Result) = .next { s with status := if c then s.status ||| 2#4 else s.status } := by
  cases c <;> rfl

/-- Every number up to 10 is that of a topology (R39). -/
theorem typeOfNumber_of_le {n : Nat} (h : n ≤ 10) : ∃ t, typeOfNumber n = some t ∧ typeNumber t = n := by
  interval_cases n <;> exact ⟨_, rfl, rfl⟩

/-- The numbers above 10 are reserved (R39). -/
theorem typeOfNumber_of_gt {n : Nat} (h : 10 < n) : typeOfNumber n = none := by
  obtain ⟨m, rfl⟩ := Nat.exists_eq_add_of_le' h
  rfl

/-- A legal `TYPE` is stored (R38). -/
theorem writeBiq_type_of_some {b : BiqUnit} {t : BiquadType} (h : typeOfNumber d.toNat = some t) :
    s.writeBiq u b d .type = s.setBiq u { b with type := t } := by
  simp only [State.writeBiq, h]

/-- A reserved `TYPE` is ignored with `CLAMP` (R38). -/
theorem writeBiq_type_of_none {b : BiqUnit} (h : typeOfNumber d.toNat = none) :
    s.writeBiq u b d .type = s.raise .clamp := by
  simp only [State.writeBiq, h]

/-- `F[k]` of a stage that exists stores the clamped word (R42). -/
theorem writeApc_freq {c : ApcUnit} {st : Stage} (h : c.stages[k]? = some st) :
    s.writeApc a c d (.freq k) =
      (s.setApc a { c with
        stages := c.stages.set k { st with freq := F32.clamp d s.params.apcFmin 0x466A6000 } }).raiseIf
          (F32.clamped d s.params.apcFmin 0x466A6000) .clamp := by
  simp only [State.writeApc, State.writeFreq, h]

end Writes

/-! ### The statements -/

/-- Settles O39: an address that reads nothing stores nothing, and neither does a read-only register. -/
theorem badAccessesOnlySetIlladdr : Obligations.BadAccessesOnlySetIlladdr := by
  refine ⟨fun addr d s hbad => ?write, fun addr s => transact_rd_of_none, fun s a k c hc hk => ?stage⟩
  case write =>
    obtain hnone | ⟨u, hr | hr | hr⟩ := hbad
    · exact transact_wr_of_none hnone
    · exact transact_wr_readOnly hr (.inl rfl)
    · exact transact_wr_readOnly hr (.inr (.inl rfl))
    · exact transact_wr_readOnly hr (.inr (.inr rfl))
  case stage => simpa only [readReg_apc hc] using apcGet_stage_missing hk

/-- Settles O41: each clamping register stores its clamped value and raises `CLAMP` under the condition that this is not
the word written; `TYPE` alone ignores the word instead. -/
theorem clampingRegistersStoreTheClampedValue : Obligations.ClampingRegistersStoreTheClampedValue := by
  intro addr d s flag
  refine ⟨fun hr => ?sr, fun hr => ?mixInt, fun u l hr hl => ?phase, fun u l hr hl => ?size, fun u l hr hl => ?fb,
    fun u b hr hb => ⟨fun hd => ?reserved, fun hd => ?type⟩, fun u b hr hb => ?cutoff, fun u b hr hb => ?biqQ,
    fun a c hr hc => ?active, fun a c hr hc => ?apcQ, fun a c k st hr hc hst => ?freq⟩
  case sr => exact (transact_wr_of_region hr nofun).trans (next_raiseIf_clamp ..)
  case mixInt => exact (transact_wr_of_region hr nofun).trans (next_raiseIf_clamp ..)
  case phase => exact (transact_wr_lfo hr hl).trans (next_raiseIf_clamp ..)
  case size => exact (transact_wr_dly hr hl).trans (next_raiseIf_clamp ..)
  case fb => exact (transact_wr_dly hr hl).trans (next_raiseIf_clamp ..)
  case reserved =>
    rw [transact_wr_biq hr hb, writeBiq_type_of_none (typeOfNumber_of_gt hd)]
    rfl
  case type =>
    obtain ⟨t, hsome, hnumber⟩ := typeOfNumber_of_le hd
    refine ⟨t, hnumber, ?_⟩
    rw [transact_wr_biq hr hb, writeBiq_type_of_some hsome]
    rfl
  case cutoff => exact (transact_wr_biq hr hb).trans (next_raiseIf_clamp ..)
  case biqQ => exact (transact_wr_biq hr hb).trans (next_raiseIf_clamp ..)
  case active => exact (transact_wr_apc hr hc).trans (next_raiseIf_clamp ..)
  case apcQ => exact (transact_wr_apc hr hc).trans (next_raiseIf_clamp ..)
  case freq =>
    rw [transact_wr_apc hr hc, writeApc_freq hst]
    exact next_raiseIf_clamp ..

end Sys2Proof.Machine
end

section
/-! PROOFS. The LFO commands (R121 to R127): what each answers on a unit that exists and on one that does not. -/

namespace Sys2Proof

/-! ### Assembled words with unused fields (R82, R87): adjacent zero fields are one -/

section
variable (op : BitVec 8) (rd ra rb : Reg) (u : UnitIdx)

/-- Bits 11:8 of a command that names no channel. -/
theorem pack_no_channel : pack op rd ra rb 0 u = op ++ rd ++ ra ++ rb ++ 0#4 ++ u :=
  congrArg (· ++ u) BitVec.append_assoc

/-- Bits 15:8 of a command that names neither `rb` nor a channel. -/
theorem pack_no_rb : pack op rd ra 0 0 u = op ++ rd ++ ra ++ 0#8 ++ u :=
  (pack_no_channel op rd ra 0 u).trans (congrArg (· ++ u) BitVec.append_assoc)

/-- Bits 19:8 of a command that names `rd` and its unit only. -/
theorem pack_rd_unit : pack op rd 0 0 0 u = op ++ rd ++ 0#12 ++ u :=
  (pack_no_rb op rd 0 u).trans (congrArg (· ++ u) BitVec.append_assoc)

/-- Bits 23:8 of a command that names its unit only. -/
theorem pack_unit : pack op 0 0 0 0 u = op ++ 0#16 ++ u :=
  (pack_rd_unit op 0 u).trans (congrArg (· ++ u) BitVec.append_assoc)

end

end Sys2Proof

namespace Sys2Proof.Machine.F32

/-! ### Clamping (R15): the word that is stored, and whether it is another one -/

section
variable {a lo hi : Word}

/-- No value is below itself. -/
theorem lt_irrefl (a : Word) : lt a a = false :=
  Bool.eq_false_iff.2 fun h => absurd (lt_iff.1 h).2.2 (Int.lt_irrefl _)

/-- A NaN or a value below the range becomes its lower end. -/
theorem clamp_of_low (h : isNaN a = true ∨ lt a lo = true) : clamp a lo hi = lo :=
  if_pos (Bool.or_eq_true _ _ ▸ h)

/-- A value above the range becomes its upper end. -/
theorem clamp_of_high (hlow : ¬(isNaN a = true ∨ lt a lo = true)) (h : gt a hi = true) :
    clamp a lo hi = hi :=
  (if_neg (Bool.or_eq_true _ _ ▸ hlow)).trans (if_pos h)

/-- Any other value stays. -/
theorem clamp_of_inside (hlow : ¬(isNaN a = true ∨ lt a lo = true)) (h : ¬gt a hi = true) :
    clamp a lo hi = a :=
  (if_neg (Bool.or_eq_true _ _ ▸ hlow)).trans (if_neg h)

/-- The lower end of a range is no value below it and no NaN, so a clamp to it changes the word. -/
theorem clamped_of_low (hlo : isNaN lo = false) (h : isNaN a = true ∨ lt a lo = true) :
    clamped a lo hi = true := by
  have hne : lo ≠ a := by
    rintro rfl
    exact h.elim (Bool.eq_false_iff.1 hlo) (Bool.eq_false_iff.1 (lt_irrefl _))
  rw [clamped, clamp_of_low h, bne_iff_ne]
  exact hne

/-- The upper end of a range is not above it, so a clamp to it changes the word. -/
theorem clamped_of_high (hlow : ¬(isNaN a = true ∨ lt a lo = true)) (h : gt a hi = true) :
    clamped a lo hi = true := by
  have hne : hi ≠ a := by
    rintro rfl
    exact absurd h (Bool.eq_false_iff.1 (lt_irrefl _))
  rw [clamped, clamp_of_high hlow h, bne_iff_ne]
  exact hne

/-- A value that stays is not clamped. -/
theorem clamped_of_inside (hlow : ¬(isNaN a = true ∨ lt a lo = true)) (h : ¬gt a hi = true) :
    clamped a lo hi = false := by
  rw [clamped, clamp_of_inside hlow h, bne_self_eq_false]

end

end Sys2Proof.Machine.F32

namespace Sys2Proof.Machine

/-! ### The commands by unit: an LFO that is missing, and one that exists -/

section
variable {s : State} {u : UnitIdx} {l : LfoUnit}

/-- A command whose only unit check is on LFO `u` is illegal where there is no such LFO (R84, R88). -/
theorem exec_of_missing_lfo {i : Instr} (hi : i.wellFormed s.sizes = decide (u.toNat < s.sizes.nLfo))
    (h : s.lfo.length ≤ u.toNat) : exec i s = .next { s with status := s.status ||| 4#4 } :=
  exec_of_not_wellFormed (hi.trans (decide_eq_false (Nat.not_lt.2 h)))

variable (hl : s.lfo[u.toNat]? = some l)
include hl

/-- R121: the phase becomes `+0`, the rate stays. -/
theorem exec_lfoInit_of_unit :
    exec (.lfoInit u) s = .next (s.setLfo u.toNat { l with phase := F32.zero }) := by
  simp only [exec, execLfoInit, hl]

/-- R122: the effect of a write of `v[ra]` to the register `PHASE` (R104). -/
theorem exec_lfoInitp_of_unit (ra : Reg) :
    exec (.lfoInitp ra u) s = .next (s.writeLfo u.toNat l (s.readV ra) .phase) := by
  simp only [exec, execLfoInitp, State.writeLfo, hl]

/-- R123: the phase becomes the value drawn, and the draw is counted. -/
theorem exec_lfoInitr_of_unit :
    exec (.lfoInitr u) s =
      .next ((s.setLfo u.toNat { l with phase := F32.rng s.seed s.rngN }).setRngN (s.rngN + 1)) := by
  simp only [exec, execLfoInitr, hl]

/-- R124: the sine of the phase goes to the destination. -/
theorem exec_lfoNext_of_unit (rd : Reg) : exec (.lfoNext rd u) s = .next (s.writeV rd (F32.sin l.phase)) := by
  simp only [exec, execLfoNext, hl]

/-- R125: the remapped sine of the phase goes to the destination. -/
theorem exec_lfoRange_of_unit (rd ra rb : Reg) :
    exec (.lfoRange rd ra rb u) s = .next (s.writeV rd (lfoRemap s.nan l.phase (s.readV ra) (s.readV rb))) := by
  simp only [exec, execLfoRange, hl]

/-- R127: the phase advances, with `CLAMP` exactly when the rate is clamped. -/
theorem exec_lfoAdv_of_unit :
    exec (.lfoAdv u) s =
      .next ((s.setLfo u.toNat { l with phase := lfoAdvance s.nan s.sr l }).raiseIf
        (lfoRateClamped s.nan s.sr l.rate) .clamp) := by
  simp only [exec, execLfoAdv, hl]

end

/-- A write of `PHASE` stores the clamped word, with `CLAMP` exactly when that is another one: a NaN or a negative value
becomes `+0`, a value above `PHASE_MAX` becomes `PHASE_MAX` (R30, R122). -/
theorem next_writeLfo_phase (s : State) (u : Nat) (l : LfoUnit) (d : Word) :
    (.next (s.writeLfo u l d .phase) : Result) =
      if F32.isNaN d = true ∨ F32.lt d F32.zero = true then
        .next { s with lfo := s.lfo.set u { l with phase := F32.zero }, status := s.status ||| 2#4 }
      else if F32.gt d F32.phaseMax = true then
        .next { s with lfo := s.lfo.set u { l with phase := F32.phaseMax }, status := s.status ||| 2#4 }
      else .next { s with lfo := s.lfo.set u { l with phase := d } } := by
  split_ifs with hlow hhigh
  · rw [State.writeLfo, F32.clamp_of_low hlow, F32.clamped_of_low (by decide) hlow]
    rfl
  · rw [State.writeLfo, F32.clamp_of_high hlow hhigh, F32.clamped_of_high hlow hhigh]
    rfl
  · rw [State.writeLfo, F32.clamp_of_inside hlow hhigh, F32.clamped_of_inside hlow hhigh]
    rfl

/-- The safety net of R127, its three conditions as propositions. -/
theorem lfoNet_eq (p : Word) :
    lfoNet p = if F32.gt p F32.phaseMax = true ∨ F32.isNaN p = true ∨ F32.lt p F32.zero = true then F32.zero else p := by
  simp only [lfoNet, Bool.or_eq_true, or_assoc]

/-- `LFO.ADV` clamps the rate exactly when the clamped rate is another word (R127). -/
theorem lfoRateClamped_iff {d : Nat → Word} {sr rate : Word} :
    lfoRateClamped d sr rate = true ↔ lfoRate d sr rate ≠ rate := bne_iff_ne

/-! ### The statements -/

/-- Settles O8: the unit exists and its phase is replaced by `+0`, or the command fails the unit check. -/
theorem lfoInitZeroesThePhase : Obligations.LfoInitZeroesThePhase :=
  fun u _ => ⟨pack_unit _ u, exec_of_missing_lfo rfl, fun _ hl => exec_lfoInit_of_unit hl⟩

/-- Settles O9: `LFO.INITP` writes the register `PHASE` with `v[ra]`, which clamps in three cases. -/
theorem lfoInitpClampsThePhase : Obligations.LfoInitpClampsThePhase := by
  intro ra u s
  refine ⟨pack_no_rb _ 0 ra u, exec_of_missing_lfo rfl, fun l hl => ⟨?cases, fun addr hr => ?write⟩⟩
  case cases => exact (exec_lfoInitp_of_unit hl ra).trans (next_writeLfo_phase ..)
  case write => exact (transact_wr_lfo hr hl).trans (exec_lfoInitp_of_unit hl ra).symm

/-- Settles O10: the phase is the drawn value, and every draw lies in the range. -/
theorem lfoInitrDrawsThePhase : Obligations.LfoInitrDrawsThePhase := by
  intro u s
  refine ⟨pack_unit _ u, exec_of_missing_lfo rfl, fun l hl => exec_lfoInitr_of_unit hl, fun seed n => ?range⟩
  case range => exact Bool.and_eq_true_iff.1 (F32.rng_within seed n)

/-- Settles O11: the destination alone is written, with a sine, whose range and value at `+0` are those of every sine. -/
theorem lfoNextWritesTheSine : Obligations.LfoNextWritesTheSine := by
  intro rd u s
  refine ⟨pack_rd_unit _ rd u, exec_of_missing_lfo rfl,
    fun l hl => ⟨exec_lfoNext_of_unit hl rd, fun hfinite => ?range, fun hzero => ?zero⟩⟩
  case range => exact Bool.and_eq_true_iff.1 (F32.sin_within hfinite)
  case zero => exact (congrArg F32.sin hzero).trans F32.sin_zero

/-- Settles O12: the NaNs are those the state draws for this transaction. -/
theorem lfoRangeRemapsTheSine : Obligations.LfoRangeRemapsTheSine :=
  fun rd ra rb u s => ⟨pack_no_channel _ rd ra rb u, exec_of_missing_lfo rfl,
    fun _ hl => ⟨s.nan, isNaN_nan s, exec_lfoRange_of_unit hl rd ra rb⟩⟩

/-- Settles O14: the NaNs are those the state draws for this transaction; the increment and the conditional subtraction are
`lfoInc` and `lfoWrap`, whose result goes through the safety net. -/
theorem lfoAdvAdvancesThePhase : Obligations.LfoAdvAdvancesThePhase := by
  intro u s
  refine ⟨pack_unit _ u, exec_of_missing_lfo rfl, fun l hl => ⟨s.nan, isNaN_nan s, ?_⟩⟩
  intro r inc p p'
  rw [exec_lfoAdv_of_unit hl, next_raiseIf_clamp, lfoAdvance, lfoNet_eq]
  simp only [lfoRateClamped_iff]
  rfl

end Sys2Proof.Machine
end

section
/-! PROOFS. The delay line commands (R142 to R148): what each answers on a line that is missing, not sized and sized. -/

namespace Sys2Proof.Machine

/-! ### The circular cursor (R67, R141) -/

/-- The circular index after a natural one is the remainder of its successor. -/
theorem slot_succ (n i : Nat) : slot n ((i : Int) + 1) = (i + 1) % n := by
  rw [slot, ← Int.natCast_succ, ← Int.natCast_emod, Int.toNat_natCast]

/-- `push_spec` with the advanced cursor as a remainder of natural numbers (R141, R145, R148). -/
theorem push_spec_mod {l : DlyUnit} (hx : l.x.wf) (hy : l.y.wf) (x y : Word) :
    (l.push x y).w = (l.w + 1) % l.n ∧
    (l.push x y).x.read (l.push x y).w = x ∧ (l.push x y).y.read (l.push x y).w = y ∧
    (∀ k, k ≠ (l.push x y).w → (l.push x y).x.read k = l.x.read k ∧ (l.push x y).y.read k = l.y.read k) ∧
    (l.push x y).size = l.size ∧ (l.push x y).n = l.n ∧ (l.push x y).fb = l.fb ∧ (l.push x y).sized = l.sized :=
  slot_succ l.n l.w ▸ push_spec hx hy x y

/-! ### The output of the fractional mode (R147) -/

/-- The fractional mode blends two taps of the input history as the push leaves it, whatever output the push stores: the
read follows the write. -/
theorem procf_eq_blend_push (d : Nat → Word) (l : DlyUnit) (x req y : Word) :
    l.procf d x req =
      blend d (fracWeight d (delayFrac (d 0) l.n req))
        ((l.push x y).x.read (l.tapFrac (delayWhole l.n req) (delayFrac (d 0) l.n req)))
        ((l.push x y).x.read ((l.tapFrac (delayWhole l.n req) (delayFrac (d 0) l.n req) + 1) % l.n)) := by
  rw [← slot_succ]
  rfl

/-! ### The next state of a process command (R143, R144) -/

/-- The delay operand is clamped exactly when the clamped delay is another word (R143). -/
theorem delayClamped_iff {n : Nat} {req : Word} : delayClamped n req = true ↔ delayOf n req ≠ req := bne_iff_ne

/-- A process command on a sized line changes the destination, the line and, under R143's condition, `CLAMP`. -/
theorem next_sizedLine (rd : Reg) (u : Nat) (l : DlyUnit) (x req y : Word) (s : State) :
    (.next (sizedLine rd u l x req y s) : Result) = .next { s with
      v := s.v.set rd.toNat y rd.isLt
      dly := s.dly.set u (l.push x y)
      status := if delayOf l.n req ≠ req then s.status ||| 2#4 else s.status } := by
  rw [sizedLine, next_raiseIf_clamp]
  simp only [delayClamped_iff]
  rfl

/-! ### The commands by unit: a line that is missing, one that exists, one that is not sized, one that is -/

section
variable {s : State} {u : UnitIdx} {l : DlyUnit}

/-- A command whose only unit check is on delay line `u` is illegal where there is no such line (R84, R88). -/
theorem exec_of_missing_dly {i : Instr} (hi : i.wellFormed s.sizes = decide (u.toNat < s.sizes.nDly))
    (h : s.dly.length ≤ u.toNat) : exec i s = .next { s with status := s.status ||| 4#4 } :=
  exec_of_not_wellFormed (hi.trans (decide_eq_false (Nat.not_lt.2 h)))

variable (hl : s.dly[u.toNat]? = some l)
include hl

/-- R142: the line is initialised and nothing else changes. -/
theorem exec_dlyInit_of_unit : exec (.dlyInit u) s = .next (s.setDly u.toNat l.init) := by
  simp only [exec, execDlyInit, hl]

/-- R144 for the integer mode. -/
theorem exec_dlyProci_of_unsized (hs : l.sized = false) (rd ra rb : Reg) :
    exec (.dlyProci rd ra rb u) s = .next (unsizedLine rd s) := by
  simp only [exec, execDlyProci, hl, hs, Bool.false_eq_true, if_false]

/-- R144 for the fractional mode. -/
theorem exec_dlyProcf_of_unsized (hs : l.sized = false) (rd ra rb : Reg) :
    exec (.dlyProcf rd ra rb u) s = .next (unsizedLine rd s) := by
  simp only [exec, execDlyProcf, hl, hs, Bool.false_eq_true, if_false]

/-- R145: the output of the integer mode is that of the line before the push. -/
theorem exec_dlyProci_of_sized (hs : l.sized = true) (rd ra rb : Reg) :
    exec (.dlyProci rd ra rb u) s =
      .next (sizedLine rd u.toNat l (s.readV ra) (s.readV rb) (l.proci s.nan (s.readV rb)) s) := by
  simp only [exec, execDlyProci, hl, hs, if_true]

/-- R147: the output of the fractional mode depends on the sample pushed too. -/
theorem exec_dlyProcf_of_sized (hs : l.sized = true) (rd ra rb : Reg) :
    exec (.dlyProcf rd ra rb u) s =
      .next (sizedLine rd u.toNat l (s.readV ra) (s.readV rb) (l.procf s.nan (s.readV ra) (s.readV rb)) s) := by
  simp only [exec, execDlyProcf, hl, hs, if_true]

end

/-! ### The statements -/

/-- Settles O18: the line is pushed with the output it gave before the push; the NaNs are those the state draws for this
transaction. -/
theorem dlyProciReadsThenWrites : Obligations.DlyProciReadsThenWrites := by
  intro rd ra rb u s
  refine ⟨pack_no_channel _ rd ra rb u, exec_of_missing_dly rfl, fun l hl hs hx hy => ?sized⟩
  case sized =>
    refine ⟨s.nan, l.push (s.readV ra) (l.proci s.nan (s.readV rb)), isNaN_nan s, ?next, push_spec_mod hx hy _ _⟩
    case next => exact (exec_dlyProci_of_sized hl hs rd ra rb).trans (next_sizedLine ..)

/-- Settles O19: the line is pushed with the blend of two taps of its own new input history; the NaNs are those the
state draws for this transaction. -/
theorem dlyProcfWritesThenInterpolates : Obligations.DlyProcfWritesThenInterpolates := by
  intro rd ra rb u s
  refine ⟨pack_no_channel _ rd ra rb u, exec_of_missing_dly rfl, fun l hl hs hx hy => ?sized⟩
  case sized =>
    refine ⟨s.nan, l.push (s.readV ra) (l.procf s.nan (s.readV ra) (s.readV rb)), isNaN_nan s, ?_⟩
    intro d di fd i0 frac y
    have hblend : l.procf s.nan (s.readV ra) (s.readV rb) = y := procf_eq_blend_push ..
    rw [← hblend]
    exact ⟨(exec_dlyProcf_of_sized hl hs rd ra rb).trans (next_sizedLine ..), push_spec_mod hx hy _ _⟩

/-- Settles O16: the line is replaced by its initialised form, whose histories read `+0` below the new length only. -/
theorem dlyInitSizesAndClearsTheLine : Obligations.DlyInitSizesAndClearsTheLine := by
  intro u s
  refine ⟨pack_unit _ u, exec_of_missing_dly rfl, fun l hl => ?init⟩
  case init =>
    obtain ⟨hn, hw, hsized, hsize, hfb, hx, hy⟩ := init_spec l
    refine ⟨l.init, exec_dlyInit_of_unit hl, hn, hw, hsized, hsize, hfb, fun k hk => ?below, fun k hk => ?above⟩
    case below => exact ⟨(hx k).trans (if_pos hk), (hy k).trans (if_pos hk)⟩
    case above => exact ⟨(hx k).trans (if_neg hk.not_gt), (hy k).trans (if_neg hk.not_gt)⟩

/-- Settles O17: both process commands answer `unsizedLine`, which writes the destination and raises `UNINIT`. -/
theorem unsizedLineAnswersSilence : Obligations.UnsizedLineAnswersSilence :=
  fun rd ra rb _ _ _ hl hs => ⟨exec_dlyProci_of_unsized hl hs rd ra rb, exec_dlyProcf_of_unsized hl hs rd ra rb⟩

end Sys2Proof.Machine
end

section
/-! PROOFS. The biquad: the post-scale of every `Coef` (R166, R168) and the biquad commands (R161, R181, R183). -/

namespace Sys2Proof.Machine

/-! ### The gain and the post-scale of a `Coef` (R166, R168) -/

section
variable {t : BiquadType} (fc q g fs : Word)

/-- Shelves and peak are the topologies that use the gain. -/
theorem usesGain_iff : usesGain t = true ↔ t = .lsh ∨ t = .hsh ∨ t = .peak := by
  cases t <;> decide

/-- The post-scale of the reference formulas, topology by topology. -/
theorem coefRef_postScale (tr : Trig) (e : Nat → Word) :
    (coefRef tr e t fc q g fs).c0 = (if usesGain t then gainC0 e g else F32.one) ∧
    (coefRef tr e t fc q g fs).d0 = (if usesGain t then F32.one else F32.zero) := by
  cases t <;> exact ⟨rfl, rfl⟩

/-- The post-scale of every `Coef`: the free ones keep theirs when they are held to the testable properties. -/
theorem coef_postScale (sel : CoefSel) :
    (coef sel t fc q g fs).c0 = (if usesGain t then gainC0 (coefNan t fc q g fs) g else F32.one) ∧
    (coef sel t fc q g fs).d0 = (if usesGain t then F32.one else F32.zero) := by
  cases sel with
  | reference => exact coefRef_postScale fc q g fs trig _
  | other n => exact holdToProperties_postScale t fc _ fs _

section
variable (h : usesGain t = false) (g' : Word)
include h

/-- The NaNs inside a `Coef` whose topology does not use the gain do not depend on it. -/
theorem coefNan_of_no_gain : coefNan t fc q g' fs = coefNan t fc q g fs := by
  funext site
  simp only [coefNan, h, Bool.false_eq_true, if_false]

/-- The reference formulas of the eight topologies without gain do not contain it. -/
theorem coefRef_of_no_gain (tr : Trig) (e : Nat → Word) : coefRef tr e t fc q g' fs = coefRef tr e t fc q g fs := by
  cases t with
  | lsh | hsh | peak => exact Bool.noConfusion h
  | lp1 | lp2 | hp1 | hp2 | bp | notch | ap1 | ap2 => rfl

/-- The free coefficients of the eight topologies without gain do not depend on it. -/
theorem coefFree_of_no_gain (e : Nat → Word) (n : Nat) : coefFree e n t fc q g' fs = coefFree e n t fc q g fs := by
  simp only [coefFree, h, Bool.false_eq_true, if_false]

/-- R168: every `Coef` ignores the gain for the eight topologies without it. -/
theorem coef_of_no_gain (sel : CoefSel) : coef sel t fc q g' fs = coef sel t fc q g fs := by
  cases sel with
  | reference => simp only [coef, coefNan_of_no_gain fc q g fs h g', coefRef_of_no_gain fc q g fs h g']
  | other n => simp only [coef, coefOther, coefNan_of_no_gain fc q g fs h g', coefFree_of_no_gain fc q g fs h g']

end

end

/-! ### The clamp of `BIQ.SET` (R162) -/

/-- `BIQ.SET` clamps exactly when the quality factor it uses is another word than the register's. -/
theorem clampsQ_iff {b : BiqUnit} : b.clampsQ = true ↔ b.usedQ ≠ b.q := by
  by_cases ht : b.type = .ap2 <;> simp [BiqUnit.clampsQ, BiqUnit.usedQ, F32.clamped, ht]

/-! ### The commands by unit: a biquad that is missing, and one that exists -/

section
variable {s : State} {u : UnitIdx} {b : BiqUnit}

/-- A command whose only unit check is on biquad `u` is illegal where there is no such biquad (R84, R88). -/
theorem exec_of_missing_biq {i : Instr} (hi : i.wellFormed s.sizes = decide (u.toNat < s.sizes.nBiq))
    (h : s.biq.length ≤ u.toNat) : exec i s = .next { s with status := s.status ||| 4#4 } :=
  exec_of_not_wellFormed (hi.trans (decide_eq_false (Nat.not_lt.2 h)))

variable (hb : s.biq[u.toNat]? = some b)
include hb

/-- R161: the coefficients are recomputed, with `CLAMP` exactly when the quality factor is clamped. -/
theorem exec_biqSet_of_unit :
    exec (.biqSet u) s = .next ((s.setBiq u.toNat (b.recompute s.params.coef s.sr)).raiseIf b.clampsQ .clamp) := by
  simp only [exec, execBiqSet, hb]

/-- R183: the cells are cleared. -/
theorem exec_biqRst_of_unit :
    exec (.biqRst u) s = .next (s.setBiq u.toNat { b with sec := b.sec.clearCells }) := by
  simp only [exec, execBiqRst, hb]

end

/-! ### The statements -/

/-- Settles O23: the post-scale and what depends on the gain are decided by `usesGain` alone, for the reference `Coef` and
for every other. -/
theorem postScaleOfEveryCoef : Obligations.PostScaleOfEveryCoef := by
  intro sel t fc q g fs
  obtain ⟨hc0, hd0⟩ := coef_postScale (t := t) fc q g fs sel
  refine ⟨fun hlsh hhsh hpeak => ?noGain, fun hgain => ?gain⟩
  case noGain =>
    have h : usesGain t = false :=
      Bool.eq_false_iff.2 fun h => (usesGain_iff.1 h).elim hlsh (·.elim hhsh hpeak)
    rw [h] at hc0 hd0
    exact ⟨hc0, hd0, fun g' => coef_of_no_gain fc q g fs h g' sel⟩
  case gain =>
    rw [usesGain_iff.2 hgain] at hc0 hd0
    exact ⟨⟨coefNan t fc q g fs 39, F32.isNaN_nanOf _, hc0⟩, hd0⟩

/-- Settles O22: `CLAMP` is raised exactly when the quality factor used is another word than the register's. -/
theorem biqSetRecomputesTheCoefficients : Obligations.BiqSetRecomputesTheCoefficients := by
  intro u s
  refine ⟨pack_unit _ u, exec_of_missing_biq rfl, fun b hb => ?unit⟩
  case unit =>
    rw [exec_biqSet_of_unit hb, next_raiseIf_clamp]
    simp only [clampsQ_iff]
    rfl

/-- Settles O25: the NaNs are those the state draws for this transaction; the section's step is the recurrence and the
post-scale, and it replaces the cells of its channel. -/
theorem biqProcRunsTheRecurrence : Obligations.BiqProcRunsTheRecurrence := by
  intro rd ra ch u s
  refine ⟨rfl, exec_of_missing_biq rfl, fun b hb => ⟨s.nan, isNaN_nan s, ?unit⟩⟩
  case unit =>
    cases ch with
    | left => exact exec_biqProc_of_unit hb rd ra .left
    | right => exact exec_biqProc_of_unit hb rd ra .right

/-- Settles O26: the unit exists and both its histories are cleared, or the command fails the unit check. -/
theorem biqRstClearsTheCells : Obligations.BiqRstClearsTheCells :=
  fun u _ => ⟨pack_unit _ u, exec_of_missing_biq rfl, fun _ hb => exec_biqRst_of_unit hb⟩

end Sys2Proof.Machine
end

section
/-! PROOFS. The allpass cascade commands (R201 to R205): which stages `APC.SET` recomputes, the chain of `APC.PROC`, and what
each command answers on a cascade that exists and on one that does not. -/

namespace Sys2Proof.Machine

/-! ### The coefficients of a recomputed cascade (R201) -/

/-- The stages below `ACTIVE` are recomputed, the others keep the coefficients they had. -/
theorem recompute_stages_get (sel : CoefSel) (sr : Word) {c : ApcUnit} {k : Nat} {st : Stage}
    (h : c.stages[k]? = some st) :
    (c.recompute sel sr).stages[k]? = some (if k < c.active then st.recompute sel c.q sr else st) := by
  obtain ⟨hk, -⟩ := List.getElem?_eq_some_iff.1 h
  rw [ApcUnit.recompute]
  split_ifs with hactive
  · rw [List.getElem?_append_left (by simp [hk, hactive]), List.getElem?_map, List.getElem?_take_of_lt hactive, h,
      Option.map_some]
  · have hlength : ((c.stages.take c.active).map (Stage.recompute sel c.q sr)).length = c.active := by
      simp only [List.length_map, List.length_take]
      omega
    rw [List.getElem?_append_right (by omega), hlength, List.getElem?_drop, Nat.add_sub_cancel' (by omega), h]

/-! ### The chain of `APC.PROC` (R203, R204) -/

/-- The draws of the operation sites of stage `k`: twelve a stage, in order (R182). By this definition stage `k` of the chain
after the first stage draws as stage `k + 1` of the whole chain does. -/
def stageDraws (d : Nat → Word) (k j : Nat) : Word := d (j + 12 * k)

section
variable (d : Nat → Word) (ch : Channel) {n k : Nat} {stages : List Stage} {st : Stage} (x : Word)

/-- The stages at and above the count are not invoked (R204). -/
theorem cascade_get_inactive (hk : n ≤ k) : (cascade d ch n stages x).2[k]? = stages[k]? := by
  induction n generalizing d k stages x with
  | zero => rfl
  | succ n ih =>
    obtain ⟨k, rfl⟩ := Nat.exists_eq_add_of_le' (Nat.one_le_of_lt hk)
    cases stages with
    | nil => rfl
    | cons _ rest => exact ih _ _ (Nat.le_of_succ_le_succ hk)

/-- The signal after stage `k` is that stage's output on the signal after the stages before it. -/
theorem cascade_output_succ (h : stages[k]? = some st) :
    (cascade d ch (k + 1) stages x).1 = (st.sec.step (stageDraws d k) ch (cascade d ch k stages x).1).1 := by
  induction k generalizing d stages x with
  | zero =>
    cases stages with
    | nil => cases h
    | cons _ rest =>
      cases h
      rfl
  | succ k ih =>
    cases stages with
    | nil => cases h
    | cons _ rest => exact ih _ _ h

/-- A stage below the count is left as its step on the signal after the stages before it leaves it. -/
theorem cascade_get_active (h : stages[k]? = some st) (hk : k < n) :
    (cascade d ch n stages x).2[k]? =
      some { st with sec := (st.sec.step (stageDraws d k) ch (cascade d ch k stages x).1).2 } := by
  induction n generalizing d k stages x with
  | zero => exact absurd hk (Nat.not_lt_zero k)
  | succ n ih =>
    cases stages with
    | nil => cases h
    | cons _ rest =>
      cases k with
      | zero =>
        cases h
        rfl
      | succ k => exact ih _ _ h (Nat.lt_of_succ_lt_succ hk)

end

/-! ### The commands by unit: a cascade that is missing, and one that exists -/

/-- A cascade that exists reads as what it was replaced by. -/
theorem setApc_get_same {s : State} {a : Nat} {c : ApcUnit} (h : s.apc[a]? = some c) (c' : ApcUnit) :
    (s.setApc a c').apc[a]? = some c' := by
  obtain ⟨ha, -⟩ := List.getElem?_eq_some_iff.1 h
  simp [ha]

section
variable {s : State} {a : UnitIdx} {c : ApcUnit}

/-- A command whose only unit check is on cascade `a` is illegal where there is no such cascade (R84, R88). -/
theorem exec_of_missing_apc {i : Instr} (hi : i.wellFormed s.sizes = decide (a.toNat < s.sizes.nApc))
    (h : s.apc.length ≤ a.toNat) : exec i s = .next { s with status := s.status ||| 4#4 } :=
  exec_of_not_wellFormed (hi.trans (decide_eq_false (Nat.not_lt.2 h)))

variable (hc : s.apc[a.toNat]? = some c)
include hc

/-- R201: the coefficients of the active stages are recomputed. -/
theorem exec_apcSet_of_unit : exec (.apcSet a) s = .next (s.setApc a.toNat (c.recompute s.params.coef s.sr)) := by
  simp only [exec, execApcSet, hc]

/-- R203: the chain runs over the active stages, and its last output goes to the destination. -/
theorem exec_apcProc_of_unit (rd ra : Reg) (ch : Channel) :
    exec (.apcProc rd ra ch a) s =
      .next ((s.setApc a.toNat { c with stages := (cascade s.nan ch c.active c.stages (s.readV ra)).2 }).writeV rd
        (cascade s.nan ch c.active c.stages (s.readV ra)).1) := by
  simp only [exec, execApcProc, hc]

/-- R205: the cells of every stage are cleared. -/
theorem exec_apcRst_of_unit : exec (.apcRst a) s = .next (s.setApc a.toNat c.clear) := by
  simp only [exec, execApcRst, hc]

/-- R204: a write of `ACTIVE` stores a count and leaves every stage of the cascade as it was. -/
theorem transact_wr_active {addr : Addr} (d : Word) (hr : region addr = .apc a.toNat .active) :
    ∃ t, transact (.wr addr d) s = .next t ∧
      t.apc[a.toNat]? = some { c with active := clampCount d c.stages.length } :=
  ⟨_, transact_wr_apc hr hc, by rw [State.writeApc, raiseIf_apc, setApc_get_same hc]⟩

end

/-! ### The statements -/

/-- Settles O30: the signal after `k` stages is the output of the chain over the first `k`; the NaNs are those the state draws
for this transaction, twelve sites a stage. -/
theorem apcProcChainsTheActiveStages : Obligations.ApcProcChainsTheActiveStages := by
  intro rd ra ch a s
  refine ⟨rfl, exec_of_missing_apc rfl, fun c hc _ => ?unit, fun c hc addr d t hr ht => ?active⟩
  case unit =>
    exact ⟨stageDraws s.nan, fun k => (cascade s.nan ch k c.stages (s.readV ra)).1,
      (cascade s.nan ch c.active c.stages (s.readV ra)).2, fun _ _ => isNaN_nan s _, rfl, cascade_length ..,
      fun _ _ hst hk => (cascade_get_inactive _ _ _ hk).trans hst,
      fun _ _ hst hk => ⟨cascade_output_succ _ _ _ hst, cascade_get_active _ _ _ hst hk⟩,
      exec_apcProc_of_unit hc rd ra ch⟩
  case active =>
    obtain ⟨t', ht', hunit⟩ := transact_wr_active hc d hr
    cases ht.symm.trans ht'
    exact ⟨_, hunit, rfl⟩

/-- Settles O29: the recomputed stages are the active ones. -/
theorem apcSetRecomputesTheActiveStages : Obligations.ApcSetRecomputesTheActiveStages :=
  fun a s => ⟨pack_unit _ a, exec_of_missing_apc rfl, fun c hc => ⟨c.recompute s.params.coef s.sr,
    exec_apcSet_of_unit hc, rfl, rfl, recompute_length .., fun _ _ hst => recompute_stages_get _ _ hst⟩⟩

/-- Settles O31: every stage of the cleared cascade is the stage with both its histories cleared. -/
theorem apcRstClearsEveryStage : Obligations.ApcRstClearsEveryStage := by
  intro a s
  refine ⟨pack_unit _ a, exec_of_missing_apc rfl,
    fun c hc => ⟨c.clear.stages, List.length_map .., fun k st hst => ?stage, exec_apcRst_of_unit hc⟩⟩
  case stage =>
    rw [ApcUnit.clear, List.getElem?_map, hst]
    rfl

end Sys2Proof.Machine
end

section
/-! PROOFS. The mixer commands (R221 to R229): their words, which name three sample registers and nothing else, and what each
writes. -/

namespace Sys2Proof

/-! ### The words of a command that names `rd`, `ra` and `rb` only (R82, R87) -/

/-- Bits 11:0 of a command that names neither a channel nor a unit. -/
theorem pack_three_regs (op : BitVec 8) (rd ra rb : Reg) : pack op rd ra rb 0 0 = op ++ rd ++ ra ++ rb ++ 0#12 :=
  (pack_no_channel op rd ra rb 0).trans BitVec.append_assoc

/-- Such a word has the opcode it was assembled with (R81). -/
theorem op_three_regs (op : BitVec 8) (rd ra rb : Reg) (z : BitVec 12) : Word.op (op ++ rd ++ ra ++ rb ++ z) = op := by
  rw [Word.op]
  iterate 3 rw [BitVec.extractLsb'_append_eq_of_le (by decide)]
  exact BitVec.extractLsb'_append_eq_left

/-- A match leaves `ch` and `unit` and the bits between them 0 (R86). -/
theorem low_pattern (o : Op) : o.pattern.extractLsb' 0 12 = 0 := by cases o <;> decide

/-- No row matches a word whose opcode's row fixes bits 11:0, when one of those bits is set: the row would be that of the
opcode, whose match has them 0. -/
theorem no_match_of_low_bits {o : Op} (hmask : o.mask.extractLsb' 0 12 = BitVec.allOnes 12) (rd ra rb : Reg)
    {z : BitVec 12} (hz : z ≠ 0) (o' : Op) : (o.code ++ rd ++ ra ++ rb ++ z) &&& o'.mask ≠ o'.pattern := by
  intro hmatch
  have hcode : o.code = o'.code := (op_three_regs ..).symm.trans (op_eq_code_of_match hmatch)
  obtain rfl : o = o' := Option.some.inj (by rw [← ofCode_code o, ← ofCode_code o', hcode])
  apply hz
  calc z
    _ = (o.code ++ rd ++ ra ++ rb ++ z).extractLsb' 0 12 &&& o.mask.extractLsb' 0 12 := by
      rw [BitVec.extractLsb'_append_eq_right, hmask, BitVec.and_allOnes]
    _ = ((o.code ++ rd ++ ra ++ rb ++ z) &&& o.mask).extractLsb' 0 12 := BitVec.extractLsb'_and.symm
    _ = 0 := by rw [hmatch, low_pattern]

end Sys2Proof

namespace Sys2Proof.Machine

/-- A nonzero `unit`, `ch` or `z` makes the word of such a row an illegal command (R88). -/
theorem execute_of_low_bits {o : Op} (hmask : o.mask.extractLsb' 0 12 = BitVec.allOnes 12) (rd ra rb : Reg) (s : State)
    {z : BitVec 12} (hz : z ≠ 0) :
    execute (o.code ++ rd ++ ra ++ rb ++ z) s = .next { s with status := s.status ||| 4#4 } := by
  obtain ⟨e, he⟩ := decode_of_no_match (no_match_of_low_bits hmask rd ra rb hz)
  exact execute_of_reject he

/-! ### The statements -/

/-- Settles O32: the NaNs are those the state draws for this transaction; the guard of the division, which chooses the value
in `wetDry`, chooses the next state. -/
theorem mixWdRenormalisesAboveOne : Obligations.MixWdRenormalisesAboveOne :=
  fun rd ra rb s => ⟨pack_three_regs _ rd ra rb, fun _ => execute_of_low_bits (o := .mixWd) rfl rd ra rb s,
    s.nan, isNaN_nan s, apply_ite (fun o => (.next (s.writeV rd o) : Result)) ..⟩

/-- Settles O33: the NaNs are those the state draws for this transaction; the value is `intensityMix`. -/
theorem mixIntBlendsByIntensity : Obligations.MixIntBlendsByIntensity :=
  fun rd ra rb s => ⟨pack_three_regs _ rd ra rb, fun _ => execute_of_low_bits (o := .mixInt) rfl rd ra rb s,
    s.nan, isNaN_nan s, rfl⟩

/-- Settles O34: the NaNs are those the state draws for this transaction; the value is `feedbackSum`. -/
theorem mixFbAddsTheFeedback : Obligations.MixFbAddsTheFeedback :=
  fun rd ra rb s => ⟨pack_three_regs _ rd ra rb, fun _ => execute_of_low_bits (o := .mixFb) rfl rd ra rb s,
    s.nan, isNaN_nan s, rfl⟩

/-- Settles O35: the NaNs are those the state draws for this transaction, the same for both commands; the shared terms are
`midOf` and `sideOf`. -/
theorem midSideOutputs : Obligations.MidSideOutputs :=
  fun rd ra rb s => ⟨pack_three_regs _ rd ra rb, pack_three_regs _ rd ra rb,
    fun _ hz => ⟨execute_of_low_bits (o := .msL) rfl rd ra rb s hz,
      execute_of_low_bits (o := .msR) rfl rd ra rb s hz⟩,
    s.nan, isNaN_nan s, rfl, rfl⟩

end Sys2Proof.Machine
end

section
/-! PROOFS. The flags of `STATUS` (R260 to R274): every transaction but a read or a write of `STATUS` adds the same flags to
whatever flags stand there and answers the same data, so no flag is lost (R263) and none is looked at (R274). -/

namespace Sys2Proof.Machine

/-- The state with other flags. -/
def State.withStatus (s : State) (f : BitVec 4) : State := { s with status := f }

/-- An outcome, as a function of the flags `f` before, that only adds to them: one state and one set of raised flags,
whatever `f` is. -/
def FlagsAccumulate (r : BitVec 4 → Result) : Prop :=
  ∃ (t : State) (g : BitVec 4), ∀ f, r f = .next (t.withStatus (f ||| g))

namespace FlagsAccumulate
variable {r : BitVec 4 → Result} {F : BitVec 4 → State} {flag : Flag}

/-- Two outcomes that agree under all flags. -/
theorem congr {r' : BitVec 4 → Result} (h : FlagsAccumulate r') (hr : ∀ f, r f = r' f) : FlagsAccumulate r :=
  funext hr ▸ h

/-- A next state that keeps the flags. -/
theorem of_keeps (hr : ∀ f, r f = .next (F f)) (hF : ∀ f, F f = (F 0).withStatus f) : FlagsAccumulate r :=
  ⟨F 0, 0#4, fun f => by rw [hr, hF, BitVec.or_zero]⟩

/-- A flag raised in a state that keeps the others. -/
theorem of_raise (hr : ∀ f, r f = .next ((F f).raise flag)) (hF : ∀ f, F f = (F 0).withStatus f) :
    FlagsAccumulate r :=
  ⟨F 0, flag.bit, fun f => by rw [hr, hF]; rfl⟩

/-- A flag raised under a condition that looks at no flag. -/
theorem of_raiseIf {c : BitVec 4 → Bool} (hr : ∀ f, r f = .next ((F f).raiseIf (c f) flag))
    (hF : ∀ f, F f = (F 0).withStatus f) (hc : ∀ f, c f = c 0) : FlagsAccumulate r := by
  cases h0 : c 0 with
  | true => exact of_raise (fun f => by rw [hr, hc, h0, raiseIf_true]) hF
  | false => exact of_keeps (fun f => by rw [hr, hc, h0, raiseIf_false]) hF

end FlagsAccumulate

section
variable {s : State}

/-! ### Register writes: each only adds to the flags -/

/-- A write of a mixer register. -/
theorem writeMix_flagsAccumulate (d : Word) (r : MixReg) :
    FlagsAccumulate fun f => .next ((s.withStatus f).writeMix d r) := by
  cases r with
  | int => exact .of_raiseIf (fun _ => rfl) (fun _ => rfl) fun _ => rfl
  | wet | dry | fb | mid | side => exact .of_keeps (fun _ => rfl) fun _ => rfl

/-- A write of an LFO register. -/
theorem writeLfo_flagsAccumulate (u : Nat) (l : LfoUnit) (d : Word) (r : LfoReg) :
    FlagsAccumulate fun f => .next ((s.withStatus f).writeLfo u l d r) := by
  cases r with
  | phase => exact .of_raiseIf (fun _ => rfl) (fun _ => rfl) fun _ => rfl
  | rate => exact .of_keeps (fun _ => rfl) fun _ => rfl

/-- A write of a delay line register. -/
theorem writeDly_flagsAccumulate (u : Nat) (l : DlyUnit) (d : Word) (r : DlyReg) :
    FlagsAccumulate fun f => .next ((s.withStatus f).writeDly u l d r) := by
  cases r with
  | size | fb => exact .of_raiseIf (fun _ => rfl) (fun _ => rfl) fun _ => rfl
  | n | w | sized => exact .of_raise (fun _ => rfl) fun _ => rfl

/-- A write of a biquad register; a reserved `TYPE` is ignored with `CLAMP`. -/
theorem writeBiq_flagsAccumulate (u : Nat) (b : BiqUnit) (d : Word) (r : BiqReg) :
    FlagsAccumulate fun f => .next ((s.withStatus f).writeBiq u b d r) := by
  cases r with
  | type =>
    cases ht : typeOfNumber d.toNat with
    | none => exact .of_raise (fun _ => congrArg _ (writeBiq_type_of_none ht)) fun _ => rfl
    | some t => exact .of_keeps (fun _ => congrArg _ (writeBiq_type_of_some ht)) fun _ => rfl
  | cutoff | q => exact .of_raiseIf (fun _ => rfl) (fun _ => rfl) fun _ => rfl
  | gain | coef | cell => exact .of_keeps (fun _ => rfl) fun _ => rfl

/-- A coefficient or cell of a stage that exists stores the word. -/
theorem writeStage_of_stage {c : ApcUnit} {k : Nat} {st : Stage} (h : c.stages[k]? = some st) (a : Nat)
    (f : Stage → Stage) : s.writeStage a c k f = s.setApc a { c with stages := c.stages.set k (f st) } := by
  simp only [State.writeStage, h]

/-- A write of a cascade register; a stage that does not exist raises `ILLADDR`. -/
theorem writeApc_flagsAccumulate (a : Nat) (c : ApcUnit) (d : Word) (r : ApcReg) :
    FlagsAccumulate fun f => .next ((s.withStatus f).writeApc a c d r) := by
  cases hget : c.get r with
  | none => exact .of_raise (fun _ => congrArg _ (writeApc_of_get_none hget)) fun _ => rfl
  | some w =>
    cases r with
    | active | q => exact .of_raiseIf (fun _ => rfl) (fun _ => rfl) fun _ => rfl
    | freq k =>
      obtain ⟨st, hst, -⟩ := Option.map_eq_some_iff.1 hget
      exact .of_raiseIf (fun _ => congrArg _ (writeApc_freq hst)) (fun _ => rfl) fun _ => rfl
    | coef k r | cell k ch r =>
      obtain ⟨st, hst, -⟩ := Option.map_eq_some_iff.1 hget
      exact .of_keeps (fun _ => congrArg _ (writeStage_of_stage hst a _)) fun _ => rfl

/-- Only the register `STATUS` reads the flags. -/
theorem readReg_withStatus {r : Region} (hr : r ≠ .status) (f : BitVec 4) :
    (s.withStatus f).readReg r = s.readReg r := by
  cases r with
  | status => exact absurd rfl hr
  | _ => rfl

/-! ### The commands (R88, R100): each only adds to the flags -/

/-- A unit that passes the unit check exists (R84). -/
theorem exists_unit {α : Type} {units : List α} {u : Nat} (h : decide (u < units.length) = true) :
    ∃ x, units[u]? = some x :=
  ⟨_, List.getElem?_eq_getElem (of_decide_eq_true h)⟩

/-- A command that passes the unit check. -/
theorem exec_flagsAccumulate_of_wellFormed {i : Instr} (h : i.wellFormed s.sizes = true) :
    FlagsAccumulate fun f => exec i (s.withStatus f) := by
  cases i with
  | nop | mixWd | mixInt | mixFb | msL | msR => exact .of_keeps (fun _ => rfl) fun _ => rfl
  | lfoInit u =>
    obtain ⟨l, hl⟩ := exists_unit h
    exact .of_keeps (fun _ => exec_lfoInit_of_unit hl) fun _ => rfl
  | lfoInitp ra u =>
    obtain ⟨l, hl⟩ := exists_unit h
    exact (writeLfo_flagsAccumulate _ l (s.readV ra) .phase).congr fun f =>
      exec_lfoInitp_of_unit (s := s.withStatus f) hl ra
  | lfoInitr u =>
    obtain ⟨l, hl⟩ := exists_unit h
    exact .of_keeps (fun _ => exec_lfoInitr_of_unit hl) fun _ => rfl
  | lfoNext rd u =>
    obtain ⟨l, hl⟩ := exists_unit h
    exact .of_keeps (fun f => exec_lfoNext_of_unit (s := s.withStatus f) hl rd) fun _ => rfl
  | lfoRange rd ra rb u =>
    obtain ⟨l, hl⟩ := exists_unit h
    exact .of_keeps (fun f => exec_lfoRange_of_unit (s := s.withStatus f) hl rd ra rb) fun _ => rfl
  | lfoAdv u =>
    obtain ⟨l, hl⟩ := exists_unit h
    exact .of_raiseIf (fun _ => exec_lfoAdv_of_unit hl) (fun _ => rfl) fun _ => rfl
  | dlyInit u =>
    obtain ⟨l, hl⟩ := exists_unit h
    exact .of_keeps (fun _ => exec_dlyInit_of_unit hl) fun _ => rfl
  | dlyProci rd ra rb u =>
    obtain ⟨l, hl⟩ := exists_unit h
    cases hs : l.sized with
    | false => exact .of_raise (fun f => exec_dlyProci_of_unsized (s := s.withStatus f) hl hs rd ra rb) fun _ => rfl
    | true =>
      exact .of_raiseIf (fun f => exec_dlyProci_of_sized (s := s.withStatus f) hl hs rd ra rb) (fun _ => rfl) fun _ => rfl
  | dlyProcf rd ra rb u =>
    obtain ⟨l, hl⟩ := exists_unit h
    cases hs : l.sized with
    | false => exact .of_raise (fun f => exec_dlyProcf_of_unsized (s := s.withStatus f) hl hs rd ra rb) fun _ => rfl
    | true =>
      exact .of_raiseIf (fun f => exec_dlyProcf_of_sized (s := s.withStatus f) hl hs rd ra rb) (fun _ => rfl) fun _ => rfl
  | biqSet u =>
    obtain ⟨b, hb⟩ := exists_unit h
    exact .of_raiseIf (fun _ => exec_biqSet_of_unit hb) (fun _ => rfl) fun _ => rfl
  | biqProc rd ra ch u =>
    obtain ⟨b, hb⟩ := exists_unit h
    exact .of_keeps (fun f => exec_biqProc_of_unit (s := s.withStatus f) hb rd ra ch) fun _ => rfl
  | biqRst u =>
    obtain ⟨b, hb⟩ := exists_unit h
    exact .of_keeps (fun _ => exec_biqRst_of_unit hb) fun _ => rfl
  | apcSet a =>
    obtain ⟨c, hc⟩ := exists_unit h
    exact .of_keeps (fun _ => exec_apcSet_of_unit hc) fun _ => rfl
  | apcProc rd ra ch a =>
    obtain ⟨c, hc⟩ := exists_unit h
    exact .of_keeps (fun f => exec_apcProc_of_unit (s := s.withStatus f) hc rd ra ch) fun _ => rfl
  | apcRst a =>
    obtain ⟨c, hc⟩ := exists_unit h
    exact .of_keeps (fun _ => exec_apcRst_of_unit hc) fun _ => rfl

/-- A command, whether or not its unit exists. -/
theorem exec_flagsAccumulate (i : Instr) : FlagsAccumulate fun f => exec i (s.withStatus f) := by
  cases h : i.wellFormed s.sizes with
  | false => exact .of_raise (fun _ => exec_of_not_wellFormed h) fun _ => rfl
  | true => exact exec_flagsAccumulate_of_wellFormed h

/-- A word written to `CMD`, command or not. -/
theorem execute_flagsAccumulate (w : Word) : FlagsAccumulate fun f => execute w (s.withStatus f) := by
  cases h : decode w with
  | ok i => simpa only [execute_of_ok h] using exec_flagsAccumulate i
  | reject e => exact .of_raise (fun _ => execute_of_reject h) fun _ => rfl

/-! ### The transactions (R100): all but those on `STATUS` only add to the flags -/

/-- An entry of a register table is not `STATUS`, nor is a gap in it. -/
theorem getD_map_ne_status {α : Type} (o : Option α) {name : α → Region} (hname : ∀ r, name r ≠ .status) :
    (o.map name).getD .reserved ≠ .status := by
  cases o with
  | none => exact nofun
  | some r => exact hname r

/-- No address but `0x0001` names `STATUS` (R61). -/
theorem region_ne_status {addr : Addr} (h : addr ≠ 0x0001) : region addr ≠ .status := by
  have htoNat : addr.toNat ≠ 1 := fun ha => h (BitVec.eq_of_toNat_eq ha)
  simp only [region, if_neg htoNat]
  split_ifs <;> simp [getD_map_ne_status]

/-- A write of any register but `STATUS`: of one that reads nothing it raises `ILLADDR`, of another it is the register's own
rule. -/
theorem transact_wr_flagsAccumulate {addr : Addr} {r : Region} (hr : region addr = r) (hstatus : r ≠ .status) (d : Word) :
    FlagsAccumulate fun f => transact (.wr addr d) (s.withStatus f) := by
  cases hread : s.readReg r with
  | none =>
    exact .of_raise (fun f => transact_wr_of_none (by rw [hr, readReg_withStatus hstatus, hread])) fun _ => rfl
  | some w =>
    cases r with
    | status => exact absurd rfl hstatus
    | reserved => exact absurd hread nofun
    | cmd => exact (execute_flagsAccumulate d).congr fun _ => if_pos hr
    | seed | sample => exact .of_keeps (fun _ => transact_wr_of_region hr nofun) fun _ => rfl
    | sr => exact .of_raiseIf (fun _ => transact_wr_of_region hr nofun) (fun _ => rfl) fun _ => rfl
    | mixer r => exact (writeMix_flagsAccumulate d r).congr fun _ => transact_wr_of_region hr nofun
    | lfo u r =>
      obtain ⟨l, hl, -⟩ := Option.map_eq_some_iff.1 hread
      exact (writeLfo_flagsAccumulate u l d r).congr fun _ => transact_wr_lfo hr hl
    | dly u r =>
      obtain ⟨l, hl, -⟩ := Option.map_eq_some_iff.1 hread
      exact (writeDly_flagsAccumulate u l d r).congr fun _ => transact_wr_dly hr hl
    | biq u r =>
      obtain ⟨b, hb, -⟩ := Option.map_eq_some_iff.1 hread
      exact (writeBiq_flagsAccumulate u b d r).congr fun _ => transact_wr_biq hr hb
    | apc a r =>
      obtain ⟨c, hc, -⟩ := Option.bind_eq_some_iff.1 hread
      exact (writeApc_flagsAccumulate a c d r).congr fun _ => transact_wr_apc hr hc

/-- A read of any register but `STATUS`. -/
theorem transact_rd_flagsAccumulate {addr : Addr} (hstatus : region addr ≠ .status) :
    FlagsAccumulate fun f => transact (.rd addr) (s.withStatus f) := by
  cases hread : s.readReg (region addr) with
  | none =>
    exact .of_raise (F := fun f => { s.withStatus f with reply := some 0 })
      (fun f => transact_rd_of_none ((readReg_withStatus hstatus f).trans hread)) fun _ => rfl
  | some w =>
    exact .of_keeps (fun f => transact_rd_of_some ((readReg_withStatus hstatus f).trans hread)) fun _ => rfl

/-- All a transaction that does not access `STATUS` can do to the flags is raise some (R262). -/
theorem transact_flagsAccumulate {x : Txn} (hrd : x ≠ .rd 0x0001) (hwr : ∀ m, x ≠ .wr 0x0001 m) :
    FlagsAccumulate fun f => transact x (s.withStatus f) := by
  cases x with
  | wr addr d => exact transact_wr_flagsAccumulate rfl (region_ne_status fun ha => hwr d (by rw [ha])) d
  | rd addr => exact transact_rd_flagsAccumulate (region_ne_status fun ha => hrd (by rw [ha]))

end

/-- Flags are not lost by adding some. -/
theorem and_or_absorb (f g : BitVec 4) : f &&& (f ||| g) = f := by
  ext i hi
  rw [BitVec.getElem_and, BitVec.getElem_or]
  cases f[i] <;> rfl

/-! ### The statements -/

/-- Settles O48: a write of `STATUS` changes the flags alone, and every other transaction adds the same flags to either
state's. -/
theorem flagsNeverChangeData : Obligations.FlagsNeverChangeData := by
  intro x s f hrd
  by_cases hwr : ∃ m, x = .wr 0x0001 m
  · obtain ⟨m, rfl⟩ := hwr
    exact ⟨s.clearFlags m, (s.withStatus f).clearFlags m, rfl, rfl, rfl⟩
  · obtain ⟨t, g, hnext⟩ := transact_flagsAccumulate (s := s) hrd (not_exists.1 hwr)
    exact ⟨t.withStatus (s.status ||| g), t.withStatus (f ||| g), hnext s.status, hnext f, rfl⟩

/-- Settles O49: a write of `STATUS` is `clearFlags`, a read of it changes no flag, and every other transaction only adds
flags. -/
theorem onlyAStatusWriteClearsFlags : Obligations.OnlyAStatusWriteClearsFlags := by
  refine ⟨fun m s => ?clear, rfl, fun x s t hwr hnext => ?sticky⟩
  case clear => rw [BitVec.setWidth_eq_extractLsb' (by decide)]; rfl
  case sticky =>
    by_cases hrd : x = .rd 0x0001
    · subst hrd
      cases hnext
      exact BitVec.and_self
    · obtain ⟨t', g, hacc⟩ := transact_flagsAccumulate (s := s) hrd hwr
      cases hnext.symm.trans (hacc s.status)
      exact and_or_absorb s.status g

end Sys2Proof.Machine
end

section
/-! PROOFS. The decoder and the encoder (R81 to R88): each undoes the other. -/

namespace Sys2Proof

/-! ### The fields of an assembled word (R81) -/

section
variable (op : BitVec 8) (rd ra rb : Reg) (ch : BitVec 1) (u : UnitIdx)

/-- Bits `start .. start + len − 1` of an assembled word, when they are those of the field `f`. -/
theorem extract_pack {start len : Nat} {f : BitVec len}
    (hf : ∀ k < len, (pack op rd ra rb ch u).getLsbD (start + k) = f.getLsbD k) :
    (pack op rd ra rb ch u).extractLsb' start len = f :=
  BitVec.eq_of_getLsbD_eq fun k hk => by
    rw [BitVec.getLsbD_extractLsb', decide_eq_true hk, Bool.true_and, hf k hk]

theorem rd_pack : Word.rd (pack op rd ra rb ch u) = rd :=
  extract_pack _ _ _ _ _ _ fun k hk => by
    rw [getLsbD_pack _ _ _ _ _ _ (by omega)]
    simp (disch := omega) only [if_neg, if_pos, Nat.add_sub_cancel_left]

theorem ra_pack : Word.ra (pack op rd ra rb ch u) = ra :=
  extract_pack _ _ _ _ _ _ fun k hk => by
    rw [getLsbD_pack _ _ _ _ _ _ (by omega)]
    simp (disch := omega) only [if_neg, if_pos, Nat.add_sub_cancel_left]

theorem rb_pack : Word.rb (pack op rd ra rb ch u) = rb :=
  extract_pack _ _ _ _ _ _ fun k hk => by
    rw [getLsbD_pack _ _ _ _ _ _ (by omega)]
    simp (disch := omega) only [if_neg, if_pos, Nat.add_sub_cancel_left]

theorem unit_pack : Word.unit (pack op rd ra rb ch u) = u :=
  extract_pack _ _ _ _ _ _ fun k hk => by
    rw [getLsbD_pack _ _ _ _ _ _ (by omega)]
    simp (disch := omega) only [if_pos, Nat.zero_add]

/-- The channel is read back from its bit (R85). -/
theorem ch_pack (c : Channel) : Word.ch (pack op rd ra rb c.bit u) = c := by
  rw [Word.ch, getLsbD_pack _ _ _ _ _ _ (by omega)]
  cases c <;> rfl

end

/-! ### Decoding an encoding (R82, R87) -/

/-- The encoding of every command fits its row. -/
theorem encode_fits (i : Instr) : Laws.EncodeFits.Statement i := by
  cases i with
  | nop => exact Laws.EncodeFits.nop
  | lfoInit u => exact Laws.EncodeFits.lfoInit u
  | lfoInitp ra u => exact Laws.EncodeFits.lfoInitp ra u
  | lfoInitr u => exact Laws.EncodeFits.lfoInitr u
  | lfoNext rd u => exact Laws.EncodeFits.lfoNext rd u
  | lfoRange rd ra rb u => exact Laws.EncodeFits.lfoRange rd ra rb u
  | lfoAdv u => exact Laws.EncodeFits.lfoAdv u
  | dlyInit u => exact Laws.EncodeFits.dlyInit u
  | dlyProci rd ra rb u => exact Laws.EncodeFits.dlyProci rd ra rb u
  | dlyProcf rd ra rb u => exact Laws.EncodeFits.dlyProcf rd ra rb u
  | biqSet u => exact Laws.EncodeFits.biqSet u
  | biqProc rd ra ch u => exact Laws.EncodeFits.biqProc rd ra ch u
  | biqRst u => exact Laws.EncodeFits.biqRst u
  | apcSet a => exact Laws.EncodeFits.apcSet a
  | apcProc rd ra ch a => exact Laws.EncodeFits.apcProc rd ra ch a
  | apcRst a => exact Laws.EncodeFits.apcRst a
  | mixWd rd ra rb => exact Laws.EncodeFits.mixWd rd ra rb
  | mixInt rd ra rb => exact Laws.EncodeFits.mixInt rd ra rb
  | mixFb rd ra rb => exact Laws.EncodeFits.mixFb rd ra rb
  | msL rd ra rb => exact Laws.EncodeFits.msL rd ra rb
  | msR rd ra rb => exact Laws.EncodeFits.msR rd ra rb

/-- The row of a command reads the command's own operands back from its encoding. -/
theorem build_encode (i : Instr) : i.row.build (encode i) = i := by
  cases i <;> simp only [Instr.row, Op.build, encode, rd_pack, ra_pack, rb_pack, ch_pack, unit_pack]

/-- Decoding the encoding of a command gives the command. -/
theorem decode_encode (i : Instr) : decode (encode i) = .ok i :=
  (decode_of_match (encode_fits i).2).trans (congrArg _ (build_encode i))

/-! ### Encoding what was decoded (R82, R88) -/

/-- A word that decodes matches a row, whose command it is. -/
theorem match_of_decode {w : Word} {i : Instr} (h : decode w = .ok i) :
    ∃ o : Op, w &&& o.mask = o.pattern ∧ o.build w = i := by
  by_cases hrow : ∃ o : Op, w &&& o.mask = o.pattern
  · obtain ⟨o, hmatch⟩ := hrow
    exact ⟨o, hmatch, Decoded.ok.inj ((decode_of_match hmatch).symm.trans h)⟩
  · obtain ⟨e, he⟩ := decode_of_no_match (not_exists.1 hrow)
    exact nomatch he.symm.trans h

/-- A field that a row's mask fixes has the bits of the row's match. -/
theorem field_of_match {w : Word} {o : Op} (h : w &&& o.mask = o.pattern) (start len : Nat)
    (hmask : o.mask.extractLsb' start len = BitVec.allOnes len) :
    o.pattern.extractLsb' start len = w.extractLsb' start len := by
  rw [← h, BitVec.extractLsb'_and, hmask, BitVec.and_allOnes]

/-- A word with `z = 0` is assembled from its fields. -/
theorem pack_fields {w : Word} (hz : 0#3 = w.extractLsb' 8 3) :
    pack (Word.op w) (Word.rd w) (Word.ra w) (Word.rb w) (w.extractLsb' 11 1) (Word.unit w) = w := by
  rw [pack, hz, Word.op, Word.rd, Word.ra, Word.rb, Word.unit]
  simp (disch := decide) only [BitVec.extractLsb'_append_extractLsb'_eq_extractLsb', BitVec.extractLsb'_eq_self]

/-- The bit of a word's channel (R85). -/
theorem bit_ch (w : Word) : (Word.ch w).bit = w.extractLsb' 11 1 := by
  refine BitVec.eq_of_getLsbD_eq fun k hk => ?_
  obtain rfl : k = 0 := by omega
  rw [Word.ch, BitVec.getLsbD_extractLsb']
  cases w.getLsbD 11 <;> rfl

/-- Bits 10:8 of a mask are 1 and those of a match 0 (R86). -/
theorem reserved_bits (o : Op) : o.mask.extractLsb' 8 3 = BitVec.allOnes 3 ∧ o.pattern.extractLsb' 8 3 = 0#3 := by
  cases o <;> exact ⟨rfl, rfl⟩

/-- The command of the row that a word matches is encoded to that word: the fields the command uses are the word's, and the
mask fixes the others to 0. -/
theorem encode_build {w : Word} {o : Op} (h : w &&& o.mask = o.pattern) : encode (o.build w) = w := by
  have fixed := field_of_match h
  have hz := (reserved_bits o).2.symm.trans (fixed 8 3 (reserved_bits o).1)
  refine Eq.trans ?_ (pack_fields hz)
  rw [op_eq_code_of_match h]
  cases o with
  | nop =>
    rw [Word.rd, Word.ra, Word.rb, Word.unit, ← fixed 20 4 rfl, ← fixed 16 4 rfl, ← fixed 12 4 rfl, ← fixed 11 1 rfl,
      ← fixed 0 8 rfl]
    rfl
  | lfoInit | lfoInitr | lfoAdv | dlyInit | biqSet | biqRst | apcSet | apcRst =>
    rw [Word.rd, Word.ra, Word.rb, ← fixed 20 4 rfl, ← fixed 16 4 rfl, ← fixed 12 4 rfl, ← fixed 11 1 rfl]
    rfl
  | lfoInitp =>
    rw [Word.rd, Word.rb, ← fixed 20 4 rfl, ← fixed 12 4 rfl, ← fixed 11 1 rfl]
    rfl
  | lfoNext =>
    rw [Word.ra, Word.rb, ← fixed 16 4 rfl, ← fixed 12 4 rfl, ← fixed 11 1 rfl]
    rfl
  | lfoRange | dlyProci | dlyProcf =>
    rw [← fixed 11 1 rfl]
    rfl
  | biqProc | apcProc =>
    rw [Word.rb, ← fixed 12 4 rfl, ← bit_ch]
    rfl
  | mixWd | mixInt | mixFb | msL | msR =>
    rw [Word.unit, ← fixed 11 1 rfl, ← fixed 0 8 rfl]
    rfl

/-- A word that decodes to a command is its encoding. -/
theorem encode_of_decode {w : Word} {i : Instr} (h : decode w = .ok i) : encode i = w := by
  obtain ⟨o, hmatch, rfl⟩ := match_of_decode h
  exact encode_build hmatch

/-! ### The statements -/

/-- Settles O1: the encoding fits the row of the command, which reads every operand back. -/
theorem decodeOfEncodeIsTheCommand : Obligations.DecodeOfEncodeIsTheCommand := decode_encode

/-- Settles O2: the mask of the row that accepts a word fixes every bit the encoding does not take from it. -/
theorem decodeAcceptsOnlyEncodings : Obligations.DecodeAcceptsOnlyEncodings := fun _ _ => encode_of_decode

/-- Settles O4: the words decoded, one by one. -/
theorem knownWordsDecode : Obligations.KnownWordsDecode := by
  unfold Obligations.KnownWordsDecode
  decide

end Sys2Proof
end

section
/-! PROOFS. The host port (R100 to R107): what a step is, that every step answers a next state, and the writes of `STATUS`,
`SR` and `SEED`. -/

namespace Sys2Proof.Machine

/-! ### The address of `CMD` (R61) -/

/-- An entry of a register table is not `CMD`, nor is a gap in it. -/
theorem getD_map_ne_cmd {α : Type} (o : Option α) {name : α → Region} (hname : ∀ r, name r ≠ .cmd) :
    (o.map name).getD .reserved ≠ .cmd := by
  cases o with
  | none => exact nofun
  | some r => exact hname r

/-- No address but `0x0000` names `CMD`. -/
theorem region_ne_cmd {addr : Addr} (h : addr ≠ 0x0000) : region addr ≠ .cmd := by
  have htoNat : addr.toNat ≠ 0 := fun ha => h (BitVec.eq_of_toNat_eq ha)
  simp only [region, if_neg htoNat]
  split_ifs <;> simp [getD_map_ne_cmd]

/-- A read answers the word of the register, or 0 with `ILLADDR` where there is none (R102, R103). -/
theorem transact_rd (addr : Addr) (s : State) :
    transact (.rd addr) s = .next
      ((s.readReg (region addr)).elim { s.raise .illaddr with reply := some 0 } fun w => { s with reply := some w }) := by
  cases h : s.readReg (region addr) with
  | none => exact transact_rd_of_none h
  | some w => exact transact_rd_of_some h

/-! ### Every outcome is a next state (R100, R262) -/

/-- A command answers a next state, whatever it adds to the flags. -/
theorem exec_next (i : Instr) (s : State) : ∃ t, exec i s = .next t := by
  obtain ⟨t, g, h⟩ := exec_flagsAccumulate (s := s) i
  exact ⟨_, h s.status⟩

/-- A transaction answers a next state. -/
theorem transact_next (x : Txn) (s : State) : ∃ t, transact x s = .next t := by
  cases x with
  | rd addr => exact ⟨_, transact_rd addr s⟩
  | wr addr d =>
    obtain ⟨t, -, h, -⟩ := flagsNeverChangeData (.wr addr d) s 0 nofun
    exact ⟨t, h⟩

/-! ### The statements -/

/-- Settles O6: a command and a transaction each answer a next state, and a step is a transaction or holds the state. -/
theorem nothingEverStops : Obligations.NothingEverStops := by
  refine ⟨exec_next, transact_next, fun s => ?step⟩
  case step =>
    cases h : s.host with
    | nil => exact ⟨s, step_nil h⟩
    | cons x rest =>
      rw [step_cons h]
      exact transact_next x _

/-- Settles O5: the step takes the transaction from the queue, and the address of a write decides between executing its
word and writing a register. -/
theorem stepRunsTheCommandWritten : Obligations.StepRunsTheCommandWritten := by
  refine ⟨fun s w rest i hhost hw => (step_cons hhost).trans (execute_of_ok hw), fun s => step_nil,
    fun s x rest => step_cons, fun w s => memWrite_cmd w s, fun w i s => execute_of_ok, fun w s hw => ?refused,
    fun addr d s haddr => transact_wr_of_region rfl (region_ne_cmd haddr), fun addr s => ?read⟩
  case refused =>
    cases h : decode w with
    | ok i => exact absurd h (hw i)
    | reject e => exact execute_of_reject h
  case read =>
    rw [transact_rd]
    cases s.readReg (region addr) <;> rfl

/-- Settles O42: a write of `STATUS` is `clearFlags`, one of `SR` raises `CLAMP` under the condition that the clamped rate is
another word, and one of `SEED` is `writeSeed`. -/
theorem controlRegisterWrites : Obligations.ControlRegisterWrites := by
  intro d s
  refine ⟨onlyAStatusWriteClearsFlags.1 d s, ?sr, rfl⟩
  case sr =>
    refine ((transact_wr_of_region (addr := 0x0002) rfl nofun).trans (next_raiseIf_clamp ..)).trans ?_
    simp only [F32.clamped, bne_iff_ne]

end Sys2Proof.Machine
end

section
/-! PROOFS. What a command and a transaction can change, said once: the change to the data, then at most one flag (R262,
R265). The frames and invariants of every step are read off it. -/

namespace Sys2Proof.Machine

/-! ### The changes -/

/-- What happens to one unit: another unit takes its place that is legal if the old one was, and that keeps what no step
changes; only where `resizes` holds may a delay line change its length. -/
inductive UnitChange (resizes : Prop) (s : State) : Family × Nat → State → Prop
  | lfo {u : Nat} {l l' : LfoUnit} (hl : s.lfo[u]? = some l) (hlegal : l.legal = true → l'.legal = true) :
      UnitChange resizes s (.lfo, u) (s.setLfo u l')
  | dly {u : Nat} {l l' : DlyUnit} (hl : s.dly[u]? = some l)
      (hlegal : 1 ≤ s.params.dlyCap → l.legal s.params.dlyCap = true → l'.legal s.params.dlyCap = true)
      (hn : l'.n = l.n ∨ resizes) : UnitChange resizes s (.dly, u) (s.setDly u l')
  | biq {u : Nat} {b b' : BiqUnit} (hb : s.biq[u]? = some b) (hlegal : b.legal = true → b'.legal = true) :
      UnitChange resizes s (.biq, u) (s.setBiq u b')
  | apc {a : Nat} {c c' : ApcUnit} (hc : s.apc[a]? = some c) (hcount : c'.stages.length = c.stages.length)
      (hlegal : F32.le s.params.apcFmin 0x466A6000 = true → c.legal s.params.apcFmin = true →
        c'.legal s.params.apcFmin = true) : UnitChange resizes s (.apc, a) (s.setApc a c')

/-- What a command does but for its flag: nothing, or a change to its target unit, a write to its destination, or both; the
random phase also counts its draw (R20, R45). -/
inductive CommandChange (resizes : Prop) (i : Instr) (s : State) : State → Prop
  | keep : CommandChange resizes i s s
  | dest {rd : Reg} {x : Word} (hd : destOf i = some rd) : CommandChange resizes i s (s.writeV rd x)
  | unit {f : Family × Nat} {s₁ : State} (hf : targetOf i = some f) (h : UnitChange resizes s f s₁) :
      CommandChange resizes i s s₁
  | draw {u : UnitIdx} {s₁ : State} {n : Nat} (hi : i = .lfoInitr u) (h : UnitChange resizes s (.lfo, u.toNat) s₁) :
      CommandChange resizes i s (s₁.setRngN n)
  | unitDest {f : Family × Nat} {s₁ : State} {rd : Reg} {x : Word} (hf : targetOf i = some f)
      (h : UnitChange resizes s f s₁) (hd : destOf i = some rd) : CommandChange resizes i s (s₁.writeV rd x)

/-- `SR` as a write leaves it, with every line unsized (R27, R37). -/
def State.storeSr (s : State) (d : Word) : State :=
  { s with
    sr := F32.clamp d s.params.srMin s.params.srMax
    dly := s.dly.map (fun l => { l with sized := false }) }

/-- The word an `RD` returned (R102). -/
def State.setReply (s : State) (w : Word) : State := { s with reply := some w }

/-- The mixer registers, all at once (R29). -/
def State.setMixer (s : State) (wet dry int fb mid side : Word) : State :=
  { s with mixWet := wet, mixDry := dry, mixInt := int, mixFb := fb, msMid := mid, msSide := side }

/-- What a transaction does but for its flag. -/
inductive DataChange (resizes : Prop) (s : State) : State → Prop
  | command {i : Instr} {s₁ : State} (h : CommandChange resizes i s s₁) : DataChange resizes s s₁
  | unit {f : Family × Nat} {s₁ : State} (h : UnitChange resizes s f s₁) : DataChange resizes s s₁
  | keep : DataChange resizes s s
  | clearFlags (m : Word) : DataChange resizes s (s.clearFlags m)
  | sr (d : Word) : DataChange resizes s (s.storeSr d)
  | seed (d : Word) : DataChange resizes s (s.writeSeed d)
  | mixer {wet dry int fb mid side : Word}
      (hint : F32.within F32.zero s.mixInt F32.one = true → F32.within F32.zero int F32.one = true) :
      DataChange resizes s (s.setMixer wet dry int fb mid side)
  | sample (i : Reg) (x : Word) : DataChange resizes s (s.writeV i x)
  | reply (w : Word) : DataChange resizes s (s.setReply w)

/-! ### Units that stay legal -/

/-- `+0` is a legal phase. -/
theorem phase_zero_within : F32.within F32.zero F32.zero F32.phaseMax = true := by decide

/-- A clamped phase is legal. -/
theorem phase_clamp_within (d : Word) : F32.within F32.zero (F32.clamp d F32.zero F32.phaseMax) F32.phaseMax = true :=
  F32.clamp_within (by decide) d

/-- A clamping unsigned register lies in its range. -/
theorem clampCount_range (d : Word) {hi : Nat} (h : 1 ≤ hi) : 1 ≤ clampCount d hi ∧ clampCount d hi ≤ hi := by
  unfold clampCount
  omega

/-- A legal line with another `SIZE` in its range and another `FB` in its range. -/
theorem DlyUnit.legal_params {cap : Nat} {l : DlyUnit} (h : l.legal cap = true) {n : Nat} {x : Word}
    (hn : 1 ≤ n ∧ n ≤ cap) (hx : F32.within F32.zero x F32.one = true) :
    ({ l with size := n, fb := x } : DlyUnit).legal cap = true := by
  simp only [DlyUnit.legal, Bool.and_eq_true, decide_eq_true_eq] at h ⊢
  obtain ⟨⟨⟨⟨⟨⟨⟨-, -, hlen⟩, hsized⟩, -⟩, hwx⟩, hwy⟩, hkx⟩, hky⟩ := h
  exact ⟨⟨⟨⟨⟨⟨⟨hn.1, hn.2, hlen⟩, hsized⟩, hx⟩, hwx⟩, hwy⟩, hkx⟩, hky⟩

/-- What a legal line holds in its parameter registers. -/
theorem DlyUnit.params_of_legal {cap : Nat} {l : DlyUnit} (h : l.legal cap = true) :
    (1 ≤ l.size ∧ l.size ≤ cap) ∧ F32.within F32.zero l.fb F32.one = true := by
  simp only [DlyUnit.legal, Bool.and_eq_true, decide_eq_true_eq] at h
  obtain ⟨⟨⟨⟨⟨⟨⟨h1, h2, -⟩, -⟩, hfb⟩, -⟩, -⟩, -⟩, -⟩ := h
  exact ⟨⟨h1, h2⟩, hfb⟩

/-- A legal line stays legal without its `sized` flag. -/
theorem DlyUnit.legal_unsized {cap : Nat} {l : DlyUnit} (h : l.legal cap = true) :
    ({ l with sized := false } : DlyUnit).legal cap = true := by
  simp only [DlyUnit.legal, Bool.and_eq_true, Bool.not_false, Bool.true_or] at h ⊢
  obtain ⟨⟨⟨⟨⟨⟨hrange, -⟩, hfb⟩, hwx⟩, hwy⟩, hkx⟩, hky⟩ := h
  exact ⟨⟨⟨⟨⟨⟨hrange, trivial⟩, hfb⟩, hwx⟩, hwy⟩, hkx⟩, hky⟩

/-- What `ApcUnit.legal` says, part by part. -/
theorem ApcUnit.legal_iff {fmin : Word} {c : ApcUnit} :
    c.legal fmin = true ↔ (1 ≤ c.active ∧ c.active ≤ c.stages.length ∧ c.stages.length ≤ 255) ∧
      F32.within F32.one c.q 0x447A0000 = true ∧
      ∀ f ∈ c.stages.map (·.freq), F32.within fmin f 0x466A6000 = true := by
  simp only [ApcUnit.legal, Bool.and_eq_true, decide_eq_true_eq, List.all_eq_true, List.forall_mem_map, and_assoc]

/-- A cascade whose stage frequencies and count registers stay, stays legal. -/
theorem ApcUnit.legal_of_freqs {fmin : Word} {c c' : ApcUnit} (hactive : c'.active = c.active) (hq : c'.q = c.q)
    (hfreq : c'.stages.map (·.freq) = c.stages.map (·.freq)) (h : c.legal fmin = true) : c'.legal fmin = true := by
  have hcount : c'.stages.length = c.stages.length := by simpa using congrArg List.length hfreq
  rw [legal_iff] at h ⊢
  rwa [hactive, hq, hfreq, hcount]

/-- Replacing an element by one with the same image keeps the list of images. -/
theorem map_set_of_eq {α β : Type} {xs : List α} {k : Nat} {x x' : α} {f : α → β} (h : xs[k]? = some x)
    (hf : f x' = f x) : (xs.set k x').map f = xs.map f := by
  obtain ⟨hk, rfl⟩ := List.getElem?_eq_some_iff.1 h
  rw [List.map_set, hf, ← List.getElem_map f (h := by simpa using hk), List.set_getElem_self]

/-- Recomputing coefficients keeps every stage's frequency. -/
theorem recompute_freqs (sel : CoefSel) (sr : Word) (c : ApcUnit) :
    (c.recompute sel sr).stages.map (·.freq) = c.stages.map (·.freq) := by
  have hstage : (fun st : Stage => st.freq) ∘ Stage.recompute sel c.q sr = fun st => st.freq := rfl
  rw [ApcUnit.recompute, List.map_append, List.map_map, hstage, ← List.map_append, List.take_append_drop]

/-- The chain keeps every stage's frequency. -/
theorem cascade_freqs (d : Nat → Word) (ch : Channel) (n : Nat) (stages : List Stage) (x : Word) :
    (cascade d ch n stages x).2.map (·.freq) = stages.map (·.freq) := by
  simpa only [List.map_map, Function.comp_def] using congrArg (List.map Prod.fst) (cascade_spec d ch n stages x)

/-- Clearing keeps every stage's frequency. -/
theorem clear_freqs (c : ApcUnit) : c.clear.stages.map (·.freq) = c.stages.map (·.freq) := by
  rw [ApcUnit.clear, List.map_map]
  rfl

/-! ### The commands -/

/-- A write of `PHASE` stores the clamped word. -/
theorem writeLfo_phase (s : State) (u : Nat) (l : LfoUnit) (d : Word) :
    s.writeLfo u l d .phase =
      (s.setLfo u { l with phase := F32.clamp d F32.zero F32.phaseMax }).raiseIf (F32.clamped d F32.zero F32.phaseMax)
        .clamp := rfl

section
variable {resizes : Prop} {s t : State}

/-- A cascade replaced by one with the same counts, `Q` and frequencies. -/
theorem UnitChange.apc_of_freqs {a : Nat} {c c' : ApcUnit} (hc : s.apc[a]? = some c) (hactive : c'.active = c.active)
    (hq : c'.q = c.q) (hfreq : c'.stages.map (·.freq) = c.stages.map (·.freq)) :
    UnitChange resizes s (.apc, a) (s.setApc a c') :=
  .apc hc (by simpa using congrArg List.length hfreq) fun _ => ApcUnit.legal_of_freqs hactive hq hfreq

/-- A line that is pushed. -/
theorem UnitChange.push {u : Nat} {l : DlyUnit} (hl : s.dly[u]? = some l) (hs : l.sized = true) (x y : Word) :
    UnitChange resizes s (.dly, u) (s.setDly u (l.push x y)) :=
  .dly hl (fun _ h => legal_push h hs x y) (.inl rfl)

/-- What a command that passes the unit check does: a change, then possibly a flag that is not `ILLADDR`. -/
theorem exec_change_of_wellFormed {i : Instr} (hresize : ∀ u, i = .dlyInit u → resizes)
    (hwf : i.wellFormed s.sizes = true) :
    ∃ s₁ c f, exec i s = .next (s₁.raiseIf c f) ∧ f ≠ .illaddr ∧ CommandChange resizes i s s₁ := by
  cases i with
  | nop => exact ⟨s, false, .clamp, rfl, nofun, .keep⟩
  | lfoInit u =>
    obtain ⟨l, hl⟩ := exists_unit hwf
    exact ⟨_, false, .clamp, exec_lfoInit_of_unit hl, nofun, .unit rfl (.lfo hl fun _ => phase_zero_within)⟩
  | lfoInitp ra u =>
    obtain ⟨l, hl⟩ := exists_unit hwf
    exact ⟨_, _, .clamp, (exec_lfoInitp_of_unit hl ra).trans (congrArg _ (writeLfo_phase ..)), nofun,
      .unit rfl (.lfo hl fun _ => phase_clamp_within _)⟩
  | lfoInitr u =>
    obtain ⟨l, hl⟩ := exists_unit hwf
    exact ⟨_, false, .clamp, exec_lfoInitr_of_unit hl, nofun, .draw rfl (.lfo hl fun _ => F32.rng_within _ _)⟩
  | lfoNext rd u =>
    obtain ⟨l, hl⟩ := exists_unit hwf
    exact ⟨_, false, .clamp, exec_lfoNext_of_unit hl rd, nofun, .dest rfl⟩
  | lfoRange rd ra rb u =>
    obtain ⟨l, hl⟩ := exists_unit hwf
    exact ⟨_, false, .clamp, exec_lfoRange_of_unit hl rd ra rb, nofun, .dest rfl⟩
  | lfoAdv u =>
    obtain ⟨l, hl⟩ := exists_unit hwf
    exact ⟨_, _, .clamp, exec_lfoAdv_of_unit hl, nofun, .unit rfl (.lfo hl fun _ => lfoNet_within _)⟩
  | dlyInit u =>
    obtain ⟨l, hl⟩ := exists_unit hwf
    exact ⟨_, false, .clamp, exec_dlyInit_of_unit hl, nofun,
      .unit rfl (.dly hl (fun _ => legal_init) (.inr (hresize u rfl)))⟩
  | dlyProci rd ra rb u =>
    obtain ⟨l, hl⟩ := exists_unit hwf
    cases hs : l.sized with
    | false => exact ⟨_, true, .uninit, exec_dlyProci_of_unsized hl hs rd ra rb, nofun, .dest rfl⟩
    | true =>
      exact ⟨_, _, .clamp, exec_dlyProci_of_sized hl hs rd ra rb, nofun, .unitDest rfl (.push hl hs _ _) rfl⟩
  | dlyProcf rd ra rb u =>
    obtain ⟨l, hl⟩ := exists_unit hwf
    cases hs : l.sized with
    | false => exact ⟨_, true, .uninit, exec_dlyProcf_of_unsized hl hs rd ra rb, nofun, .dest rfl⟩
    | true =>
      exact ⟨_, _, .clamp, exec_dlyProcf_of_sized hl hs rd ra rb, nofun, .unitDest rfl (.push hl hs _ _) rfl⟩
  | biqSet u =>
    obtain ⟨b, hb⟩ := exists_unit hwf
    exact ⟨_, _, .clamp, exec_biqSet_of_unit hb, nofun, .unit rfl (.biq hb id)⟩
  | biqProc rd ra ch u =>
    obtain ⟨b, hb⟩ := exists_unit hwf
    exact ⟨_, false, .clamp, exec_biqProc_of_unit hb rd ra ch, nofun, .unitDest rfl (.biq hb id) rfl⟩
  | biqRst u =>
    obtain ⟨b, hb⟩ := exists_unit hwf
    exact ⟨_, false, .clamp, exec_biqRst_of_unit hb, nofun, .unit rfl (.biq hb id)⟩
  | apcSet a =>
    obtain ⟨c, hc⟩ := exists_unit hwf
    exact ⟨_, false, .clamp, exec_apcSet_of_unit hc, nofun, .unit rfl (.apc_of_freqs hc rfl rfl (recompute_freqs ..))⟩
  | apcProc rd ra ch a =>
    obtain ⟨c, hc⟩ := exists_unit hwf
    exact ⟨_, false, .clamp, exec_apcProc_of_unit hc rd ra ch, nofun,
      .unitDest rfl (.apc_of_freqs hc rfl rfl (cascade_freqs ..)) rfl⟩
  | apcRst a =>
    obtain ⟨c, hc⟩ := exists_unit hwf
    exact ⟨_, false, .clamp, exec_apcRst_of_unit hc, nofun, .unit rfl (.apc_of_freqs hc rfl rfl (clear_freqs c))⟩
  | mixWd | mixInt | mixFb | msL | msR => exact ⟨_, false, .clamp, rfl, nofun, .dest rfl⟩

/-- What any command does: a change, then possibly a flag that is not `ILLADDR`. -/
theorem exec_change {i : Instr} (hresize : ∀ u, i = .dlyInit u → resizes) :
    ∃ s₁ c f, exec i s = .next (s₁.raiseIf c f) ∧ f ≠ .illaddr ∧ CommandChange resizes i s s₁ := by
  cases hwf : i.wellFormed s.sizes with
  | false => exact ⟨s, true, .illcmd, exec_of_not_wellFormed hwf, nofun, .keep⟩
  | true => exact exec_change_of_wellFormed hresize hwf

/-! ### The register writes -/

/-- What a transaction does: a change, then possibly a flag (R262, R265). -/
def Transition (resizes : Prop) (s t : State) : Prop := ∃ s₁ c f, DataChange resizes s s₁ ∧ t = s₁.raiseIf c f

/-- A change without a flag. -/
theorem Transition.of_change (h : DataChange resizes s t) : Transition resizes s t := ⟨t, false, .clamp, h, rfl⟩

/-- A flag alone. -/
theorem Transition.of_raise (f : Flag) : Transition resizes s (s.raise f) := ⟨s, true, f, .keep, rfl⟩

/-- A change that clamps. -/
theorem Transition.of_clamp {c : Bool} (h : DataChange resizes s t) : Transition resizes s (t.raiseIf c .clamp) :=
  ⟨t, c, .clamp, h, rfl⟩

theorem writeMix_change (d : Word) (r : MixReg) : Transition resizes s (s.writeMix d r) := by
  cases r with
  | int => exact .of_clamp (.mixer (wet := s.mixWet) fun _ => F32.clamp_within (by decide) d)
  | wet | dry | fb | mid | side => exact .of_change (.mixer (int := s.mixInt) id)

theorem writeLfo_change {u : Nat} {l : LfoUnit} (hl : s.lfo[u]? = some l) (d : Word) (r : LfoReg) :
    Transition resizes s (s.writeLfo u l d r) := by
  cases r with
  | phase => exact .of_clamp (.unit (.lfo hl fun _ => phase_clamp_within d))
  | rate => exact .of_change (.unit (.lfo hl id))

theorem writeDly_change {u : Nat} {l : DlyUnit} (hl : s.dly[u]? = some l) (d : Word) (r : DlyReg) :
    Transition resizes s (s.writeDly u l d r) := by
  cases r with
  | size =>
    exact .of_clamp (.unit (.dly hl (fun hcap h => DlyUnit.legal_params h (clampCount_range d hcap)
      (DlyUnit.params_of_legal h).2) (.inl rfl)))
  | fb =>
    exact .of_clamp (.unit (.dly hl (fun _ h => DlyUnit.legal_params h (DlyUnit.params_of_legal h).1
      (F32.clamp_within (by decide) d)) (.inl rfl)))
  | n | w | sized => exact .of_raise .illaddr

theorem writeBiq_change {u : Nat} {b : BiqUnit} (hb : s.biq[u]? = some b) (d : Word) (r : BiqReg) :
    Transition resizes s (s.writeBiq u b d r) := by
  cases r with
  | type =>
    cases ht : typeOfNumber d.toNat with
    | none => exact writeBiq_type_of_none ht ▸ .of_raise .clamp
    | some t => exact writeBiq_type_of_some ht ▸ .of_change (.unit (.biq hb id))
  | cutoff =>
    refine .of_clamp (.unit (.biq hb fun h => ?_))
    exact Bool.and_eq_true_iff.2 ⟨F32.clamp_within (by decide) d, (Bool.and_eq_true_iff.1 h).2⟩
  | q =>
    refine .of_clamp (.unit (.biq hb fun h => ?_))
    exact Bool.and_eq_true_iff.2 ⟨(Bool.and_eq_true_iff.1 h).1, F32.le_clampLo (by decide) d⟩
  | gain | coef | cell => exact .of_change (.unit (.biq hb id))

theorem writeApc_change {a : Nat} {c : ApcUnit} (hc : s.apc[a]? = some c) (d : Word) (r : ApcReg) :
    Transition resizes s (s.writeApc a c d r) := by
  cases hget : c.get r with
  | none => exact writeApc_of_get_none hget ▸ .of_raise .illaddr
  | some w =>
    cases r with
    | active =>
      refine .of_clamp (.unit (.apc hc rfl fun _ h => ?_))
      obtain ⟨⟨hlo, hhi, hmax⟩, hrest⟩ := ApcUnit.legal_iff.1 h
      obtain ⟨hone, hle⟩ := clampCount_range d (hlo.trans hhi)
      exact ApcUnit.legal_iff.2 ⟨⟨hone, hle, hmax⟩, hrest⟩
    | q =>
      refine .of_clamp (.unit (.apc hc rfl fun _ h => ?_))
      obtain ⟨hcount, -, hfreq⟩ := ApcUnit.legal_iff.1 h
      exact ApcUnit.legal_iff.2 ⟨hcount, F32.clamp_within (by decide) d, hfreq⟩
    | freq k =>
      obtain ⟨st, hst, -⟩ := Option.map_eq_some_iff.1 hget
      rw [writeApc_freq hst]
      refine .of_clamp (.unit (.apc hc (List.length_set ..) fun hrange h => ?_))
      obtain ⟨hcount, hq, hfreq⟩ := ApcUnit.legal_iff.1 h
      refine ApcUnit.legal_iff.2 ⟨by simpa only [List.length_set] using hcount, hq, fun f hf => ?_⟩
      rw [List.map_set] at hf
      obtain hf | rfl := List.mem_or_eq_of_mem_set hf
      · exact hfreq f hf
      · exact F32.clamp_within hrange d
    | coef k r | cell k ch r =>
      obtain ⟨st, hst, -⟩ := Option.map_eq_some_iff.1 hget
      rw [State.writeApc, writeStage_of_stage hst]
      exact .of_change (.unit (.apc_of_freqs hc rfl rfl (map_set_of_eq hst rfl)))

/-- What a write to any region but `CMD` does. -/
theorem writeReg_change (d : Word) (r : Region) : Transition resizes s (s.writeReg d r) := by
  cases hread : s.readReg r with
  | none => exact writeReg_of_readReg_none hread ▸ .of_raise .illaddr
  | some w =>
    cases r with
    | cmd => exact .of_change .keep
    | status => exact .of_change (.clearFlags d)
    | sr => exact .of_clamp (.sr d)
    | seed => exact .of_change (.seed d)
    | mixer r => exact writeMix_change d r
    | sample i => exact .of_change (.sample i d)
    | reserved => exact absurd hread nofun
    | lfo u r =>
      obtain ⟨l, hl, -⟩ := Option.map_eq_some_iff.1 hread
      simpa only [State.writeReg, hl] using writeLfo_change hl d r
    | dly u r =>
      obtain ⟨l, hl, -⟩ := Option.map_eq_some_iff.1 hread
      simpa only [State.writeReg, hl] using writeDly_change hl d r
    | biq u r =>
      obtain ⟨b, hb, -⟩ := Option.map_eq_some_iff.1 hread
      simpa only [State.writeReg, hb] using writeBiq_change hb d r
    | apc a r =>
      obtain ⟨c, hc, -⟩ := Option.bind_eq_some_iff.1 hread
      simpa only [State.writeReg, hc] using writeApc_change hc d r

/-! ### The transactions -/

/-- What a transaction does. -/
theorem transact_transition {x : Txn} (hresize : ∀ u, x = .wr 0x0000 (encode (.dlyInit u)) → resizes)
    (h : transact x s = .next t) : Transition resizes s t := by
  cases x with
  | rd addr =>
    rw [transact_rd] at h
    cases hread : s.readReg (region addr) with
    | none =>
      rw [hread] at h
      cases h
      exact ⟨s.setReply 0, true, .illaddr, .reply 0, rfl⟩
    | some w =>
      rw [hread] at h
      cases h
      exact .of_change (.reply w)
  | wr addr d =>
    by_cases haddr : addr = 0x0000
    · subst haddr
      cases hdecode : decode d with
      | reject e =>
        cases h.symm.trans (execute_of_reject hdecode)
        exact .of_raise .illcmd
      | ok i =>
        obtain ⟨s₁, c, f, hexec, -, hchange⟩ := exec_change (resizes := resizes) (s := s) (i := i) fun u hi =>
          hresize u (by rw [← hi, encode_of_decode hdecode])
        cases h.symm.trans ((execute_of_ok hdecode).trans hexec)
        exact ⟨s₁, c, f, .command hchange, rfl⟩
    · cases h.symm.trans (transact_wr_of_region rfl (region_ne_cmd haddr))
      exact writeReg_change d _

/-- What a step does: nothing, or a transaction taken from the queue. -/
theorem step_transition (h : step s = .next t) : t = s ∨ ∃ rest, Transition True (s.take rest) t := by
  cases hhost : s.host with
  | nil =>
    cases h.symm.trans (step_nil hhost)
    exact .inl rfl
  | cons x rest => exact .inr ⟨rest, transact_transition (fun _ _ => trivial) ((step_cons hhost).symm.trans h)⟩

/-- What holds after every change, and whatever flag is raised then, holds after a transaction. -/
theorem Transition.keeps {P : State → Prop} (hchange : ∀ {s₁}, DataChange resizes s s₁ → P s₁)
    (hflag : ∀ {s₁} f, P s₁ → P (s₁.raise f)) (h : Transition resizes s t) : P t := by
  obtain ⟨s₁, c, f, hdata, rfl⟩ := h
  cases c with
  | false => exact hchange hdata
  | true => exact hflag f (hchange hdata)

end

end Sys2Proof.Machine
end

section
/-! PROOFS. The invariants of every step and the frame of every command: the counts (R46), the legal ranges and the phases
(R8, R31), the line lengths (R36, R153), the flags (R265), and what a command leaves alone. -/

namespace Sys2Proof.Machine

section
variable {resizes : Prop} {s t s₁ : State}

/-! ### The parameters and counts (R46) -/

/-- Two states of one configuration: the same parameters and as many units and stages. -/
def SameInstance (s t : State) : Prop :=
  t.params = s.params ∧ t.lfo.length = s.lfo.length ∧ t.dly.length = s.dly.length ∧
    t.biq.length = s.biq.length ∧ t.apc.map (fun c => c.stages.length) = s.apc.map (fun c => c.stages.length)

theorem UnitChange.sameInstance {f : Family × Nat} (h : UnitChange resizes s f s₁) : SameInstance s s₁ := by
  cases h with
  | lfo => exact ⟨rfl, List.length_set .., rfl, rfl, rfl⟩
  | dly => exact ⟨rfl, rfl, List.length_set .., rfl, rfl⟩
  | biq => exact ⟨rfl, rfl, rfl, List.length_set .., rfl⟩
  | apc hc hcount => exact ⟨rfl, rfl, rfl, rfl, map_set_of_eq hc hcount⟩

theorem DataChange.sameInstance (h : DataChange resizes s s₁) : SameInstance s s₁ := by
  cases h with
  | command h =>
    cases h with
    | keep | dest => exact ⟨rfl, rfl, rfl, rfl, rfl⟩
    | unit _ h | draw _ h | unitDest _ h => exact h.sameInstance
  | unit h => exact h.sameInstance
  | sr => exact ⟨rfl, rfl, List.length_map .., rfl, rfl⟩
  | keep | clearFlags | seed | mixer | sample | reply => exact ⟨rfl, rfl, rfl, rfl, rfl⟩

/-! ### The phases (R31) -/

theorem UnitChange.phases {f : Family × Nat} (h : UnitChange resizes s f s₁) (hs : s.lfo.all LfoUnit.legal = true) :
    s₁.lfo.all LfoUnit.legal = true := by
  cases h with
  | lfo hl hlegal => exact all_set hs _ (hlegal (of_all_get hs hl))
  | dly | biq | apc => exact hs

theorem DataChange.phases (h : DataChange resizes s s₁) (hs : s.lfo.all LfoUnit.legal = true) :
    s₁.lfo.all LfoUnit.legal = true := by
  cases h with
  | command h =>
    cases h with
    | keep | dest => exact hs
    | unit _ h | draw _ h | unitDest _ h => exact h.phases hs
  | unit h => exact h.phases hs
  | keep | clearFlags | sr | seed | mixer | sample | reply => exact hs

/-! ### Legal states (R8, R27 to R42) -/

/-- `State.legal`, part by part. -/
structure LegalState (s : State) : Prop where
  params : legalParams s.params = true
  counts : s.legalSizes = true
  sr : F32.within s.params.srMin s.sr s.params.srMax = true
  mixInt : F32.within F32.zero s.mixInt F32.one = true
  lfo : s.lfo.all LfoUnit.legal = true
  dly : s.dly.all (DlyUnit.legal s.params.dlyCap) = true
  biq : s.biq.all BiqUnit.legal = true
  apc : s.apc.all (ApcUnit.legal s.params.apcFmin) = true

theorem legal_iff : s.legal = true ↔ LegalState s := by
  constructor
  · intro h
    simp only [State.legal, Bool.and_eq_true] at h
    obtain ⟨⟨⟨⟨⟨⟨⟨params, counts⟩, sr⟩, mixInt⟩, lfo⟩, dly⟩, biq⟩, apc⟩ := h
    exact { params, counts, sr, mixInt, lfo, dly, biq, apc }
  · intro h
    simp only [State.legal, h.params, h.counts, h.sr, h.mixInt, h.lfo, h.dly, h.biq, h.apc, Bool.and_self]

/-- Two states of one configuration have legal counts together. -/
theorem SameInstance.legalSizes (h : SameInstance s t) (hs : s.legalSizes = true) : t.legalSizes = true := by
  obtain ⟨-, hlfo, hdly, hbiq, hapc⟩ := h
  have hapc' : t.apc.length = s.apc.length := by simpa using congrArg List.length hapc
  simpa only [State.legalSizes, hlfo, hdly, hbiq, hapc'] using hs

/-- What the ranges of R8 say of the registers that clamp to a parameter. -/
theorem legalParams_ranges {p : Params} (h : legalParams p = true) :
    1 ≤ p.dlyCap ∧ F32.le p.srMin p.srMax = true ∧ F32.le p.apcFmin 0x466A6000 = true := by
  simp only [legalParams, Bool.and_eq_true, decide_eq_true_eq, Bool.or_eq_true, beq_iff_eq] at h
  obtain ⟨⟨⟨⟨⟨⟨hcap, -⟩, -⟩, -⟩, -⟩, hsr⟩, hfmin⟩ := h
  refine ⟨hcap, hsr, ?_⟩
  obtain hfmin | hfmin := hfmin <;> rw [hfmin] <;> decide

theorem UnitChange.legal {f : Family × Nat} (h : UnitChange resizes s f s₁) (hs : LegalState s) : LegalState s₁ := by
  have hcounts := h.sameInstance.legalSizes hs.counts
  obtain ⟨hcap, -, hfmin⟩ := legalParams_ranges hs.params
  cases h with
  | lfo hl hlegal => exact { hs with counts := hcounts, lfo := all_set hs.lfo _ (hlegal (of_all_get hs.lfo hl)) }
  | dly hl hlegal => exact { hs with counts := hcounts, dly := all_set hs.dly _ (hlegal hcap (of_all_get hs.dly hl)) }
  | biq hb hlegal => exact { hs with counts := hcounts, biq := all_set hs.biq _ (hlegal (of_all_get hs.biq hb)) }
  | apc hc _ hlegal => exact { hs with counts := hcounts, apc := all_set hs.apc _ (hlegal hfmin (of_all_get hs.apc hc)) }

/-- A write of `SR` leaves a legal rate and legal lines. -/
theorem LegalState.storeSr (hs : LegalState s) (d : Word) : LegalState (s.storeSr d) := by
  have hcounts := (DataChange.sr (resizes := True) (s := s) d).sameInstance.legalSizes hs.counts
  refine { hs with counts := hcounts, sr := ?sr, dly := ?dly }
  case sr => exact F32.clamp_within (legalParams_ranges hs.params).2.1 d
  case dly =>
    have hdly := List.all_eq_true.1 hs.dly
    rw [State.storeSr, List.all_map, List.all_eq_true]
    exact fun l hl => DlyUnit.legal_unsized (hdly l hl)

theorem DataChange.legal (h : DataChange resizes s s₁) (hs : LegalState s) : LegalState s₁ := by
  cases h with
  | command h =>
    cases h with
    | keep => exact hs
    | dest => exact { hs with }
    | unit _ h => exact h.legal hs
    | draw _ h | unitDest _ h => exact { h.legal hs with }
  | unit h => exact h.legal hs
  | keep => exact hs
  | sr d => exact hs.storeSr d
  | mixer hint => exact { hs with mixInt := hint hs.mixInt }
  | clearFlags | seed | sample | reply => exact { hs with }

/-! ### The line lengths (R36, R153) -/

theorem UnitChange.lengths {f : Family × Nat} (h : UnitChange False s f s₁) :
    s₁.dly.map (fun l => l.n) = s.dly.map (fun l => l.n) := by
  cases h with
  | dly hl _ hn => exact map_set_of_eq hl (hn.resolve_right id)
  | lfo | biq | apc => rfl

theorem DataChange.lengths (h : DataChange False s s₁) : s₁.dly.map (fun l => l.n) = s.dly.map (fun l => l.n) := by
  cases h with
  | command h =>
    cases h with
    | keep | dest => rfl
    | unit _ h | draw _ h | unitDest _ h => exact h.lengths
  | unit h => exact h.lengths
  | sr => exact List.map_map
  | keep | clearFlags | seed | mixer | sample | reply => rfl

/-! ### The flags (R265) -/

theorem UnitChange.status {f : Family × Nat} (h : UnitChange resizes s f s₁) : s₁.status = s.status := by
  cases h <;> rfl

theorem CommandChange.status {i : Instr} (h : CommandChange resizes i s s₁) : s₁.status = s.status := by
  cases h with
  | keep | dest => rfl
  | unit _ h | draw _ h | unitDest _ h => exact h.status

/-- A change raises no flag; one of them clears some. -/
theorem DataChange.status_of_clear (h : DataChange resizes s s₁) (hs : s.status = 0) : s₁.status = 0 := by
  cases h with
  | command h => exact h.status.trans hs
  | unit h => exact h.status.trans hs
  | clearFlags m => rw [clearFlags_status, hs]; exact BitVec.zero_and
  | keep | sr | seed | mixer | sample | reply => exact hs

/-- From clear flags a transaction leaves at most one set. -/
theorem Transition.status_of_clear (h : Transition resizes s t) (hs : s.status = 0) :
    t.status = 0 ∨ ∃ f : Flag, t.status = f.bit := by
  obtain ⟨s₁, c, f, hdata, rfl⟩ := h
  have h₁ := hdata.status_of_clear hs
  cases c with
  | false => exact .inl h₁
  | true => exact .inr ⟨f, by rw [raiseIf_status, h₁]; exact BitVec.zero_or⟩

/-! ### The frame of a command (R20, R22, R45, R232, R254) -/

/-- What no command changes (R22, R232, R254). -/
def SameControls (s t : State) : Prop :=
  t.params = s.params ∧ t.host = s.host ∧ t.reply = s.reply ∧ t.txn = s.txn ∧ t.sr = s.sr ∧ t.seed = s.seed ∧
    t.mixWet = s.mixWet ∧ t.mixDry = s.mixDry ∧ t.mixInt = s.mixInt ∧ t.mixFb = s.mixFb ∧ t.msMid = s.msMid ∧
    t.msSide = s.msSide

theorem SameControls.refl (s : State) : SameControls s s :=
  ⟨rfl, rfl, rfl, rfl, rfl, rfl, rfl, rfl, rfl, rfl, rfl, rfl⟩

theorem UnitChange.controls {f : Family × Nat} (h : UnitChange resizes s f s₁) :
    SameControls s s₁ ∧ s₁.rngN = s.rngN ∧ s₁.v = s.v := by
  cases h <;> exact ⟨.refl s, rfl, rfl⟩

/-- A change to a unit leaves every other unit alone. -/
theorem UnitChange.frame {f : Family × Nat} (h : UnitChange resizes s f s₁) :
    (∀ u, f ≠ (.lfo, u) → s₁.lfo[u]? = s.lfo[u]?) ∧ (∀ u, f ≠ (.dly, u) → s₁.dly[u]? = s.dly[u]?) ∧
    (∀ u, f ≠ (.biq, u) → s₁.biq[u]? = s.biq[u]?) ∧ (∀ u, f ≠ (.apc, u) → s₁.apc[u]? = s.apc[u]?) := by
  cases h with
  | lfo => exact ⟨fun u hu => List.getElem?_set_ne fun e => hu (congrArg _ e), fun _ _ => rfl, fun _ _ => rfl, fun _ _ => rfl⟩
  | dly => exact ⟨fun _ _ => rfl, fun u hu => List.getElem?_set_ne fun e => hu (congrArg _ e), fun _ _ => rfl, fun _ _ => rfl⟩
  | biq => exact ⟨fun _ _ => rfl, fun _ _ => rfl, fun u hu => List.getElem?_set_ne fun e => hu (congrArg _ e), fun _ _ => rfl⟩
  | apc => exact ⟨fun _ _ => rfl, fun _ _ => rfl, fun _ _ => rfl, fun u hu => List.getElem?_set_ne fun e => hu (congrArg _ e)⟩

/-- What a command leaves alone, but for the flags. -/
structure CommandFrame (i : Instr) (s t : State) : Prop where
  controls : SameControls s t
  rngN : (∀ u, i ≠ .lfoInitr u) → t.rngN = s.rngN
  readV : ∀ r, destOf i ≠ some r → t.readV r = s.readV r
  lfo : ∀ u, targetOf i ≠ some (.lfo, u) → t.lfo[u]? = s.lfo[u]?
  dly : ∀ u, targetOf i ≠ some (.dly, u) → t.dly[u]? = s.dly[u]?
  biq : ∀ u, targetOf i ≠ some (.biq, u) → t.biq[u]? = s.biq[u]?
  apc : ∀ u, targetOf i ≠ some (.apc, u) → t.apc[u]? = s.apc[u]?

/-- A change to the target unit is within the frame. -/
theorem UnitChange.commandFrame {i : Instr} {f : Family × Nat} (hf : targetOf i = some f)
    (h : UnitChange resizes s f s₁) : CommandFrame i s s₁ := by
  obtain ⟨hcontrols, hrng, hv⟩ := h.controls
  obtain ⟨hlfo, hdly, hbiq, hapc⟩ := h.frame
  refine ⟨hcontrols, fun _ => hrng, fun r _ => readV_congr hv r, fun u hu => hlfo u ?_, fun u hu => hdly u ?_,
    fun u hu => hbiq u ?_, fun u hu => hapc u ?_⟩
  all_goals
    rintro rfl
    exact hu hf

/-- A write to the destination is within the frame. -/
theorem CommandFrame.writeV {i : Instr} {rd : Reg} (hd : destOf i = some rd) (h : CommandFrame i s s₁) (x : Word) :
    CommandFrame i s (s₁.writeV rd x) := by
  refine { h with readV := fun r hr => ?_ }
  have hne : r ≠ rd := by
    rintro rfl
    exact hr hd
  rw [readV_writeV_other _ _ _ _ hne, h.readV r hr]

theorem CommandChange.frame {i : Instr} (h : CommandChange resizes i s s₁) : CommandFrame i s s₁ := by
  have hkeep : CommandFrame i s s := ⟨.refl s, fun _ => rfl, fun _ _ => rfl, fun _ _ => rfl, fun _ _ => rfl, fun _ _ => rfl,
    fun _ _ => rfl⟩
  cases h with
  | keep => exact hkeep
  | dest hd => exact hkeep.writeV hd _
  | unit hf h => exact h.commandFrame hf
  | draw hi h =>
    subst hi
    exact { h.commandFrame (i := .lfoInitr _) rfl with rngN := fun hne => absurd rfl (hne _) }
  | unitDest hf h hd => exact (h.commandFrame hf).writeV hd _

end

/-! ### The statements -/

/-- Settles O47: every change keeps the configuration, and a flag is no part of it. -/
theorem parametersAndCountsAreFixed : Obligations.ParametersAndCountsAreFixed := by
  intro s t h
  obtain rfl | ⟨rest, htransition⟩ := step_transition h
  · exact ⟨rfl, rfl, rfl, rfl, rfl⟩
  · exact htransition.keeps (P := SameInstance (s.take rest)) DataChange.sameInstance fun _ => id

/-- A list of copies of one unit has every property the unit has. -/
theorem all_replicate {α : Type} {p : α → Bool} {x : α} (h : p x = true) (n : Nat) : (List.replicate n x).all p = true :=
  List.all_eq_true.2 fun _ hy => List.eq_of_mem_replicate hy ▸ h

/-- An LFO after reset is legal. -/
theorem lfoReset_legal : LfoUnit.reset.legal = true := phase_zero_within

/-- The lower end of a range lies in it. -/
theorem F32.within_left {lo hi : Word} (h : F32.le lo hi = true) : F32.within lo lo hi = true :=
  Bool.and_eq_true_iff.2 ⟨F32.le_refl (F32.le_iff.1 h).1, h⟩

/-- A delay line after reset is legal. -/
theorem dlyReset_legal {cap : Nat} (h : 1 ≤ cap) : DlyUnit.reset.legal cap = true := by
  have hfb : F32.within F32.zero 0#32 F32.one = true := by decide
  simp [DlyUnit.legal, DlyUnit.reset, Memory.wf, Memory.wfFrom, h, hfb]

/-- A cascade of a legal configuration is legal after reset. -/
theorem apcReset_legal {c : Cfg} (hfmin : F32.le c.params.apcFmin 0x466A6000 = true)
    (hcount : 1 ≤ c.sizes.apcNStage ∧ c.sizes.apcNStage ≤ 255) :
    (ApcUnit.reset c).legal c.params.apcFmin = true := by
  have hq : F32.within F32.one 0x3F800000 0x447A0000 = true := by decide
  refine ApcUnit.legal_iff.2 ⟨?count, hq, fun f hf => ?freq⟩
  case count => simpa only [ApcUnit.reset, List.length_replicate, Nat.le_refl, true_and] using hcount
  case freq =>
    rw [ApcUnit.reset, List.map_replicate] at hf
    rw [List.eq_of_mem_replicate hf]
    exact F32.within_left hfmin

/-- A legal configuration resets to a legal state. -/
theorem legal_resetOf {c : Cfg} (h : legalCfg c = true) : LegalState (State.resetOf c) := by
  simp only [legalCfg, Bool.and_eq_true, decide_eq_true_eq] at h
  obtain ⟨hparams, hlfo, hlfo', hdly, hdly', hbiq, hbiq', hapc, hapc', hcount⟩ := h
  obtain ⟨hcap, hsr, hfmin⟩ := legalParams_ranges hparams
  have hmix : F32.within F32.zero 0 F32.one = true := by decide
  have hcounts : (State.resetOf c).legalSizes = true := by
    simp only [State.legalSizes, State.resetOf, List.length_replicate, decide_eq_true_eq]
    omega
  exact {
    params := hparams
    counts := hcounts
    sr := F32.within_left hsr
    mixInt := hmix
    lfo := all_replicate lfoReset_legal _
    dly := all_replicate (dlyReset_legal hcap) _
    biq := all_replicate (by decide) _
    apc := all_replicate (apcReset_legal hfmin hcount) _ }

/-- Settles O44: each unit of the reset state is a legal one. -/
theorem resetIsLegal : Obligations.ResetIsLegal :=
  ⟨fun _ h => legal_iff.2 (legal_resetOf h), by decide, rfl⟩

/-- Settles O45: every change keeps a state legal, and a flag is no part of that. -/
theorem everyStepKeepsTheStateLegal : Obligations.EveryStepKeepsTheStateLegal := by
  intro s t hs h
  obtain rfl | ⟨rest, htransition⟩ := step_transition h
  · exact hs
  · have htake : LegalState (s.take rest) := { legal_iff.1 hs with }
    exact legal_iff.2 (htransition.keeps (fun hdata => hdata.legal htake) fun _ h₁ => { h₁ with })

/-- Settles O46: a phase is written with a clamped, drawn or netted value only. -/
theorem everyTransactionKeepsThePhaseInvariant : Obligations.EveryTransactionKeepsThePhaseInvariant := by
  refine ⟨fun c => ?reset, fun x s t hs h => ?step⟩
  case reset => exact all_replicate lfoReset_legal _
  case step =>
    exact (transact_transition (resizes := True) (fun _ _ => trivial) h).keeps
      (P := fun t => t.lfo.all LfoUnit.legal = true) (fun hdata => hdata.phases hs) fun _ => id

/-- Settles O50: a change raises no flag, and one flag at most follows it. -/
theorem oneTransactionRaisesAtMostOneFlag : Obligations.OneTransactionRaisesAtMostOneFlag := by
  intro s t hs h
  obtain rfl | ⟨rest, htransition⟩ := step_transition h
  · exact .inl hs
  · obtain hzero | ⟨f, hf⟩ := htransition.status_of_clear hs
    · exact .inl hzero
    · rw [hf]
      cases f <;> decide

/-- Settles O51: the change a command makes is within its frame, and the flag it can raise is not `ILLADDR`. -/
theorem aCommandChangesOnlyItsTargets : Obligations.ACommandChangesOnlyItsTargets := by
  intro i s t h
  obtain ⟨s₁, c, f, hexec, hf, hchange⟩ := exec_change (resizes := True) (s := s) (i := i) fun _ _ => trivial
  cases h.symm.trans hexec
  have hstatus := hchange.status
  obtain ⟨⟨hparams, hhost, hreply, htxn, hsr, hseed, hwet, hdry, hint, hfb, hmid, hside⟩, hrng, hreadV, hlfo, hdly, hbiq,
    hapc⟩ := hchange.frame
  simp only [raiseIf_params, raiseIf_host, raiseIf_reply, raiseIf_txn, raiseIf_sr, raiseIf_seed, raiseIf_mixWet,
    raiseIf_mixDry, raiseIf_mixInt, raiseIf_mixFb, raiseIf_msMid, raiseIf_msSide, raiseIf_rngN, raiseIf_readV, raiseIf_lfo,
    raiseIf_dly, raiseIf_biq, raiseIf_apc, raiseIf_status]
  refine ⟨hparams, hhost, hreply, htxn, hsr, hseed, hwet, hdry, hint, hfb, hmid, hside, hrng, hreadV, hlfo, hdly, hbiq, hapc,
    ?_⟩
  rw [hstatus]
  cases c with
  | false => exact .inl rfl
  | true =>
    cases f with
    | uninit => exact .inr (.inl rfl)
    | clamp => exact .inr (.inr (.inl rfl))
    | illcmd => exact .inr (.inr (.inr rfl))
    | illaddr => exact absurd rfl hf

/-- Settles O52: the only change to a line that can give it another length is that of `DLY.INIT`, whose words are its
encodings. -/
theorem lineLengthChangesOnlyInDlyInit : Obligations.LineLengthChangesOnlyInDlyInit := by
  intro x s t h hx
  exact (transact_transition (fun u hu => hx u hu) h).keeps
    (P := fun t => t.dly.map (fun l => l.n) = s.dly.map (fun l => l.n)) DataChange.lengths fun _ => id

end Sys2Proof.Machine
end

section
/-! PROOFS. History words out of reach are unobservable (R34, R67): from two states whose lines differ in such words only,
every transaction makes the same difference to everything else, and to the words within reach. -/

namespace Sys2Proof.Machine

/-! ### Two lists of lines, unit by unit -/

/-- Related lists both end before an index, or have related elements there. -/
theorem forall₂_getElem? {α : Type} {R : α → α → Prop} {xs ys : List α} (h : List.Forall₂ R xs ys) (u : Nat) :
    (xs[u]? = none ∧ ys[u]? = none) ∨ ∃ x y, xs[u]? = some x ∧ ys[u]? = some y ∧ R x y := by
  induction h generalizing u with
  | nil => exact .inl ⟨rfl, rfl⟩
  | cons hxy _ ih =>
    cases u with
    | zero => exact .inr ⟨_, _, rfl, rfl, hxy⟩
    | succ u => exact ih u

/-- Replacing related elements at one index keeps lists related. -/
theorem forall₂_set {α : Type} {R : α → α → Prop} {xs ys : List α} (h : List.Forall₂ R xs ys) (u : Nat) {x y : α}
    (hxy : R x y) : List.Forall₂ R (xs.set u x) (ys.set u y) := by
  induction h generalizing u with
  | nil => exact .nil
  | cons hab hrest ih =>
    cases u with
    | zero => exact .cons hxy hrest
    | succ u => exact .cons hab (ih u)

/-! ### One line and its twin -/

/-- Memories that agree below `n` agree there after the same write. -/
theorem Memory.read_write_agree {m m' : Memory} (hm : m.wf) (hm' : m'.wf) {n : Nat}
    (h : ∀ k, k < n → m.read k = m'.read k) (a : Nat) (x : Word) {k : Nat} (hk : k < n) :
    (m.write a x).read k = (m'.write a x).read k := by
  by_cases hka : k = a
  · subst hka
    rw [read_write_same hm, read_write_same hm']
  · rw [read_write_other m hka, read_write_other m' hka, h k hk]

/-- A sized legal line has a length, and its histories are in canonical form. -/
theorem DlyUnit.histories_of_legal {cap : Nat} {l : DlyUnit} (h : l.legal cap = true) (hs : l.sized = true) :
    0 < l.n ∧ l.x.wf ∧ l.y.wf := by
  simp only [legal, hs, Bool.and_eq_true, decide_eq_true_eq, Bool.not_true, Bool.false_or] at h
  obtain ⟨⟨⟨⟨⟨⟨-, hn⟩, -⟩, hx⟩, hy⟩, -⟩, -⟩ := h
  exact ⟨hn, hx, hy⟩

section
variable {l m : DlyUnit} (h : l.sameVisible m)
include h

/-- The registers of the two lines read alike. -/
theorem sameVisible_get (r : DlyReg) : m.get r = l.get r := by
  obtain ⟨hsize, hn, hw, hfb, hsized, -⟩ := h
  cases r <;> simp only [DlyUnit.get, hsize, hn, hw, hfb, hsized]

/-- A write of `SIZE`. -/
theorem sameVisible_size (n : Nat) : ({ l with size := n } : DlyUnit).sameVisible { m with size := n } := by
  obtain ⟨-, hn, hw, hfb, hsized, hreads⟩ := h
  exact ⟨rfl, hn, hw, hfb, hsized, hreads⟩

/-- A write of `FB`. -/
theorem sameVisible_fb (x : Word) : ({ l with fb := x } : DlyUnit).sameVisible { m with fb := x } := by
  obtain ⟨hsize, hn, hw, -, hsized, hreads⟩ := h
  exact ⟨hsize, hn, hw, rfl, hsized, hreads⟩

/-- Unsized lines show no history. -/
theorem sameVisible_unsized : ({ l with sized := false } : DlyUnit).sameVisible { m with sized := false } := by
  obtain ⟨hsize, hn, hw, hfb, -, -⟩ := h
  exact ⟨hsize, hn, hw, hfb, rfl, nofun⟩

/-- `DLY.INIT` clears all the words that come into reach. -/
theorem sameVisible_init : l.init.sameVisible m.init := by
  obtain ⟨hsize, -, -, hfb, -, -⟩ := h
  obtain ⟨-, -, -, -, -, hx, hy⟩ := init_spec l
  obtain ⟨-, -, -, -, -, hx', hy'⟩ := init_spec m
  refine ⟨hsize, hsize, rfl, hfb, rfl, fun _ k hk => ?_⟩
  have hk' : k < m.size := hsize ▸ hk
  rw [hx, hy, hx', hy']
  exact ⟨(if_pos hk).trans (if_pos hk').symm, (if_pos hk).trans (if_pos hk').symm⟩

variable {cap : Nat} (hl : l.legal cap = true) (hs : l.sized = true)
include hl hs

/-- The integer mode reads a slot of the line. -/
theorem sameVisible_proci (d : Nat → Word) (req : Word) : m.proci d req = l.proci d req := by
  obtain ⟨-, hn, hw, hfb, -, hreads⟩ := h
  obtain ⟨hpos, -, -⟩ := l.histories_of_legal hl hs
  obtain ⟨hx, hy⟩ := hreads hs _ (slot_lt hpos ((l.w : Int) - delayWhole l.n req))
  simp only [DlyUnit.proci, DlyUnit.outInt, DlyUnit.tapInt, ← hn, ← hw, ← hfb, hx, hy]

variable (hm : m.legal cap = true)
include hm

/-- A push of the same words. -/
theorem sameVisible_push (x y : Word) : (l.push x y).sameVisible (m.push x y) := by
  obtain ⟨hsize, hn, hw, hfb, hsized, hreads⟩ := h
  obtain ⟨-, hx, hy⟩ := l.histories_of_legal hl hs
  obtain ⟨-, hx', hy'⟩ := m.histories_of_legal hm (hsized ▸ hs)
  have hnext : m.next = l.next := by rw [DlyUnit.next, DlyUnit.next, hn, hw]
  refine ⟨hsize, hn, hnext.symm, hfb, hsized, fun _ k hk => ?_⟩
  rw [DlyUnit.push, DlyUnit.push, hnext]
  exact ⟨Memory.read_write_agree hx hx' (fun j hj => (hreads hs j hj).1) _ _ hk,
    Memory.read_write_agree hy hy' (fun j hj => (hreads hs j hj).2) _ _ hk⟩

/-- The fractional mode reads two slots of the line, after the write. -/
theorem sameVisible_procf (d : Nat → Word) (x req : Word) : m.procf d x req = l.procf d x req := by
  obtain ⟨-, hn, hw, hfb, hsized, hreads⟩ := h
  obtain ⟨hpos, hx, -⟩ := l.histories_of_legal hl hs
  obtain ⟨-, hx', -⟩ := m.histories_of_legal hm (hsized ▸ hs)
  have hnext : m.next = l.next := by rw [DlyUnit.next, DlyUnit.next, hn, hw]
  have hread : ∀ {k}, k < l.n → (m.x.write l.next x).read k = (l.x.write l.next x).read k := fun hk =>
    (Memory.read_write_agree hx hx' (fun j hj => (hreads hs j hj).1) _ _ hk).symm
  have htap : ∀ di fd, l.tapFrac di fd < l.n := fun di fd => by
    unfold DlyUnit.tapFrac
    split_ifs <;> exact slot_lt hpos _
  have htap' : ∀ di fd, m.tapFrac di fd = l.tapFrac di fd := fun di fd => by
    simp only [DlyUnit.tapFrac, hnext, hn]
  simp only [DlyUnit.procf, DlyUnit.outFrac, htap', hnext, ← hn, hread (htap _ _), hread (slot_lt hpos _)]

end

/-! ### A state with other lines -/

/-- The state with other delay lines. -/
def State.withLines (s : State) (ds : List DlyUnit) : State := { s with dly := ds }

/-- Two states with the same visible part are one state with two lists of lines. -/
theorem sameVisible_iff {s s' : State} :
    s.sameVisible s' ↔ s' = s.withLines s'.dly ∧ List.Forall₂ DlyUnit.sameVisible s.dly s'.dly := by
  refine and_congr_left fun _ => ⟨fun h => ?_, fun h => ?_⟩
  · exact (congrArg (State.withLines · s'.dly) h).symm
  · rw [h]
    rfl

/-- Two outcomes with the same visible part. -/
def SameOutcome (r r' : Result) : Prop := ∃ t t', r = .next t ∧ r' = .next t' ∧ t.sameVisible t'

/-- An outcome that does not depend on the delay lines and leaves them as they are. -/
def IgnoresLines (s : State) (r : State → Result) : Prop := ∃ t : State, ∀ ds, r (s.withLines ds) = .next (t.withLines ds)

section
variable {s : State} {r : State → Result}

/-- Raising a flag under a condition leaves the lines alone. -/
theorem raiseIf_withLines (c : Bool) (f : Flag) (ds : List DlyUnit) :
    (s.withLines ds).raiseIf c f = (s.raiseIf c f).withLines ds := by
  cases c <;> rfl

/-- Two outcomes that agree whatever the lines. -/
theorem IgnoresLines.congr {r' : State → Result} (h : IgnoresLines s r')
    (hr : ∀ ds, r (s.withLines ds) = r' (s.withLines ds)) : IgnoresLines s r := by
  obtain ⟨t, ht⟩ := h
  exact ⟨t, fun ds => (hr ds).trans (ht ds)⟩

/-- A next state that keeps the lines. -/
theorem IgnoresLines.of_keeps {F : List DlyUnit → State} (hr : ∀ ds, r (s.withLines ds) = .next (F ds))
    (hF : ∀ ds, F ds = (F []).withLines ds) : IgnoresLines s r :=
  ⟨F [], fun ds => by rw [hr, hF]⟩

/-- A flag raised under a condition that looks at no line. -/
theorem IgnoresLines.of_raiseIf {F : List DlyUnit → State} {c : List DlyUnit → Bool} {f : Flag}
    (hr : ∀ ds, r (s.withLines ds) = .next ((F ds).raiseIf (c ds) f)) (hF : ∀ ds, F ds = (F []).withLines ds)
    (hc : ∀ ds, c ds = c []) : IgnoresLines s r :=
  ⟨(F []).raiseIf (c []) f, fun ds => by rw [hr, hF, hc, raiseIf_withLines]⟩

/-- What ignores the lines has the same outcome in two states with the same visible part. -/
theorem IgnoresLines.sameOutcome (h : IgnoresLines s r) {s' : State} (hs : s.sameVisible s') :
    SameOutcome (r s) (r s') := by
  obtain ⟨t, ht⟩ := h
  obtain ⟨heq, hds⟩ := sameVisible_iff.1 hs
  exact ⟨t.withLines s.dly, t.withLines s'.dly, ht s.dly, heq ▸ ht s'.dly, sameVisible_iff.2 ⟨rfl, hds⟩⟩

/-! ### What ignores the lines -/

theorem writeMix_ignoresLines (d : Word) (r : MixReg) : IgnoresLines s fun s => .next (s.writeMix d r) := by
  cases r with
  | int => exact .of_raiseIf (fun _ => rfl) (fun _ => rfl) fun _ => rfl
  | wet | dry | fb | mid | side => exact .of_keeps (fun _ => rfl) fun _ => rfl

theorem writeLfo_ignoresLines (u : Nat) (l : LfoUnit) (d : Word) (r : LfoReg) :
    IgnoresLines s fun s => .next (s.writeLfo u l d r) := by
  cases r with
  | phase => exact .of_raiseIf (fun _ => rfl) (fun _ => rfl) fun _ => rfl
  | rate => exact .of_keeps (fun _ => rfl) fun _ => rfl

theorem writeBiq_ignoresLines (u : Nat) (b : BiqUnit) (d : Word) (r : BiqReg) :
    IgnoresLines s fun s => .next (s.writeBiq u b d r) := by
  cases r with
  | type =>
    cases ht : typeOfNumber d.toNat with
    | none => exact .of_keeps (fun _ => congrArg _ (writeBiq_type_of_none ht)) fun _ => rfl
    | some t => exact .of_keeps (fun _ => congrArg _ (writeBiq_type_of_some ht)) fun _ => rfl
  | cutoff | q => exact .of_raiseIf (fun _ => rfl) (fun _ => rfl) fun _ => rfl
  | gain | coef | cell => exact .of_keeps (fun _ => rfl) fun _ => rfl

theorem writeApc_ignoresLines (a : Nat) (c : ApcUnit) (d : Word) (r : ApcReg) :
    IgnoresLines s fun s => .next (s.writeApc a c d r) := by
  cases hget : c.get r with
  | none => exact .of_keeps (fun _ => congrArg _ (writeApc_of_get_none hget)) fun _ => rfl
  | some w =>
    cases r with
    | active | q => exact .of_raiseIf (fun _ => rfl) (fun _ => rfl) fun _ => rfl
    | freq k =>
      obtain ⟨st, hst, -⟩ := Option.map_eq_some_iff.1 hget
      exact .of_raiseIf (fun _ => congrArg _ (writeApc_freq hst)) (fun _ => rfl) fun _ => rfl
    | coef k r | cell k ch r =>
      obtain ⟨st, hst, -⟩ := Option.map_eq_some_iff.1 hget
      exact .of_keeps (fun _ => congrArg _ (writeStage_of_stage hst a _)) fun _ => rfl

/-- The unit check of a command that names no delay line does not count them. -/
theorem wellFormed_withLines {i : Instr} (hi : ∀ u, targetOf i ≠ some (.dly, u)) (ds : List DlyUnit) :
    i.wellFormed (s.withLines ds).sizes = i.wellFormed s.sizes := by
  cases i with
  | dlyInit u | dlyProci _ _ _ u | dlyProcf _ _ _ u => exact absurd rfl (hi u.toNat)
  | _ => rfl

/-- The commands that name no delay line. -/
theorem exec_ignoresLines {i : Instr} (hi : ∀ u, targetOf i ≠ some (.dly, u)) : IgnoresLines s (exec i) := by
  cases hwf : i.wellFormed s.sizes with
  | false =>
    exact .of_keeps (fun ds => exec_of_not_wellFormed ((wellFormed_withLines hi ds).trans hwf)) fun _ => rfl
  | true =>
    cases i with
    | dlyInit u | dlyProci _ _ _ u | dlyProcf _ _ _ u => exact absurd rfl (hi u.toNat)
    | nop => exact ⟨s, fun _ => rfl⟩
    | mixWd | mixInt | mixFb | msL | msR => exact .of_keeps (fun _ => rfl) fun _ => rfl
    | lfoInit u =>
      obtain ⟨l, hl⟩ := exists_unit hwf
      exact .of_keeps (fun _ => exec_lfoInit_of_unit hl) fun _ => rfl
    | lfoInitp ra u =>
      obtain ⟨l, hl⟩ := exists_unit hwf
      exact .of_raiseIf (fun ds => exec_lfoInitp_of_unit (s := s.withLines ds) hl ra) (fun _ => rfl) fun _ => rfl
    | lfoInitr u =>
      obtain ⟨l, hl⟩ := exists_unit hwf
      exact .of_keeps (fun _ => exec_lfoInitr_of_unit hl) fun _ => rfl
    | lfoNext rd u =>
      obtain ⟨l, hl⟩ := exists_unit hwf
      exact .of_keeps (fun ds => exec_lfoNext_of_unit (s := s.withLines ds) hl rd) fun _ => rfl
    | lfoRange rd ra rb u =>
      obtain ⟨l, hl⟩ := exists_unit hwf
      exact .of_keeps (fun ds => exec_lfoRange_of_unit (s := s.withLines ds) hl rd ra rb) fun _ => rfl
    | lfoAdv u =>
      obtain ⟨l, hl⟩ := exists_unit hwf
      exact .of_raiseIf (fun _ => exec_lfoAdv_of_unit hl) (fun _ => rfl) fun _ => rfl
    | biqSet u =>
      obtain ⟨b, hb⟩ := exists_unit hwf
      exact .of_raiseIf (fun _ => exec_biqSet_of_unit hb) (fun _ => rfl) fun _ => rfl
    | biqProc rd ra ch u =>
      obtain ⟨b, hb⟩ := exists_unit hwf
      exact .of_keeps (fun ds => exec_biqProc_of_unit (s := s.withLines ds) hb rd ra ch) fun _ => rfl
    | biqRst u =>
      obtain ⟨b, hb⟩ := exists_unit hwf
      exact .of_keeps (fun _ => exec_biqRst_of_unit hb) fun _ => rfl
    | apcSet a =>
      obtain ⟨c, hc⟩ := exists_unit hwf
      exact .of_keeps (fun _ => exec_apcSet_of_unit hc) fun _ => rfl
    | apcProc rd ra ch a =>
      obtain ⟨c, hc⟩ := exists_unit hwf
      exact .of_keeps (fun ds => exec_apcProc_of_unit (s := s.withLines ds) hc rd ra ch) fun _ => rfl
    | apcRst a =>
      obtain ⟨c, hc⟩ := exists_unit hwf
      exact .of_keeps (fun _ => exec_apcRst_of_unit hc) fun _ => rfl

/-- The writes to a region that holds no register of a delay line, and neither executes nor unsizes. -/
theorem writeReg_ignoresLines {r : Region} (hsr : r ≠ .sr) (hdly : ∀ u r', r ≠ .dly u r') (d : Word) :
    IgnoresLines s fun s => .next (s.writeReg d r) := by
  cases hread : s.readReg r with
  | none =>
    refine .of_keeps (fun ds => congrArg _ (writeReg_of_readReg_none (Eq.trans ?_ hread))) fun _ => rfl
    cases r with
    | dly u r => exact absurd rfl (hdly u r)
    | _ => rfl
  | some w =>
    cases r with
    | sr => exact absurd rfl hsr
    | dly u r => exact absurd rfl (hdly u r)
    | cmd | status | seed | sample | reserved => exact .of_keeps (fun _ => rfl) fun _ => rfl
    | mixer r => exact writeMix_ignoresLines d r
    | lfo u r =>
      obtain ⟨l, hl, -⟩ := Option.map_eq_some_iff.1 hread
      exact (writeLfo_ignoresLines u l d r).congr fun ds => by simp only [State.writeReg, State.withLines, hl]
    | biq u r =>
      obtain ⟨b, hb, -⟩ := Option.map_eq_some_iff.1 hread
      exact (writeBiq_ignoresLines u b d r).congr fun ds => by simp only [State.writeReg, State.withLines, hb]
    | apc a r =>
      obtain ⟨c, hc, -⟩ := Option.bind_eq_some_iff.1 hread
      exact (writeApc_ignoresLines a c d r).congr fun ds => by simp only [State.writeReg, State.withLines, hc]

end

/-- The command of a line names it by a unit index, and fails the unit check where the line does not exist. -/
theorem wellFormed_of_targetDly {i : Instr} {u : Nat} (hi : targetOf i = some (.dly, u)) :
    ∃ w : UnitIdx, w.toNat = u ∧ ∀ n : Sizes, i.wellFormed n = decide (u < n.nDly) := by
  cases i with
  | dlyInit w | dlyProci _ _ _ w | dlyProcf _ _ _ w =>
    obtain rfl : w.toNat = u := (Prod.mk.inj (Option.some.inj hi)).2
    exact ⟨w, rfl, fun _ => rfl⟩
  | _ => cases hi

/-! ### Operations on two states with the same visible part -/

section
variable {s s' : State} (h : s.sameVisible s')
include h

theorem sameVisible_setDly (u : Nat) {l m : DlyUnit} (hlm : l.sameVisible m) :
    (s.setDly u l).sameVisible (s'.setDly u m) := by
  obtain ⟨heq, hds⟩ := sameVisible_iff.1 h
  rw [heq]
  exact sameVisible_iff.2 ⟨rfl, forall₂_set hds u hlm⟩

theorem sameVisible_writeV (i : Reg) (x : Word) : (s.writeV i x).sameVisible (s'.writeV i x) := by
  obtain ⟨heq, hds⟩ := sameVisible_iff.1 h
  rw [heq]
  exact sameVisible_iff.2 ⟨rfl, hds⟩

theorem sameVisible_setReply (w : Word) : (s.setReply w).sameVisible (s'.setReply w) := by
  obtain ⟨heq, hds⟩ := sameVisible_iff.1 h
  rw [heq]
  exact sameVisible_iff.2 ⟨rfl, hds⟩

theorem sameVisible_storeSr (d : Word) : (s.storeSr d).sameVisible (s'.storeSr d) := by
  obtain ⟨heq, hds⟩ := sameVisible_iff.1 h
  rw [heq]
  refine sameVisible_iff.2 ⟨rfl, ?_⟩
  rw [State.storeSr, State.storeSr, List.forall₂_map_left_iff, List.forall₂_map_right_iff]
  exact hds.imp fun _ _ => sameVisible_unsized

theorem sameVisible_raiseIf (c : Bool) (f : Flag) : (s.raiseIf c f).sameVisible (s'.raiseIf c f) := by
  obtain ⟨heq, hds⟩ := sameVisible_iff.1 h
  rw [heq]
  cases c <;> exact sameVisible_iff.2 ⟨rfl, hds⟩

/-- The parts of the state that hold no line are the same. -/
theorem sameVisible_rest : s'.v = s.v ∧ s'.nan = s.nan ∧ s'.params = s.params := by
  obtain ⟨heq, -⟩ := sameVisible_iff.1 h
  rw [heq]
  exact ⟨rfl, rfl, rfl⟩

/-- A line exists in both states or in neither, and shows the same. -/
theorem sameVisible_line (u : Nat) :
    (s.dly[u]? = none ∧ s'.dly[u]? = none) ∨ ∃ l m, s.dly[u]? = some l ∧ s'.dly[u]? = some m ∧ l.sameVisible m :=
  forall₂_getElem? h.2 u

/-- Every register reads alike. -/
theorem sameVisible_readReg (r : Region) : s'.readReg r = s.readReg r := by
  cases r with
  | dly u r =>
    obtain ⟨hl, hm⟩ | ⟨l, m, hl, hm, hlm⟩ := sameVisible_line h u
    · simp only [State.readReg, hl, hm, Option.map_none]
    · rw [readReg_dly hl, readReg_dly hm, sameVisible_get hlm]
  | _ =>
    obtain ⟨heq, -⟩ := sameVisible_iff.1 h
    rw [heq]
    rfl

/-! ### The transactions on delay lines -/

/-- A write of a register of a delay line. -/
theorem writeDly_sameOutcome (u : Nat) (r : DlyReg) (d : Word) :
    SameOutcome (.next (s.writeReg d (.dly u r))) (.next (s'.writeReg d (.dly u r))) := by
  obtain ⟨hl, hm⟩ | ⟨l, m, hl, hm, hlm⟩ := sameVisible_line h u
  · refine ⟨_, _, rfl, rfl, ?_⟩
    simp only [State.writeReg, hl, hm]
    exact sameVisible_raiseIf h true .illaddr
  · refine ⟨_, _, rfl, rfl, ?_⟩
    obtain ⟨-, -, hparams⟩ := sameVisible_rest h
    simp only [State.writeReg, hl, hm]
    cases r with
    | size =>
      rw [State.writeDly, State.writeDly, hparams]
      exact sameVisible_raiseIf (sameVisible_setDly h u (sameVisible_size hlm _)) _ _
    | fb => exact sameVisible_raiseIf (sameVisible_setDly h u (sameVisible_fb hlm _)) _ _
    | n | w | sized => exact sameVisible_raiseIf h true .illaddr

/-- A write to any region but `CMD`. -/
theorem writeReg_sameOutcome (d : Word) (r : Region) :
    SameOutcome (.next (s.writeReg d r)) (.next (s'.writeReg d r)) := by
  by_cases hsr : r = .sr
  · subst hsr
    obtain ⟨-, -, hparams⟩ := sameVisible_rest h
    refine ⟨_, _, rfl, rfl, ?_⟩
    have hsr' : s'.writeReg d .sr = (s'.storeSr d).raiseIf (F32.clamped d s.params.srMin s.params.srMax) .clamp := by
      rw [← hparams]
      rfl
    rw [hsr']
    exact sameVisible_raiseIf (sameVisible_storeSr h d) _ _
  · by_cases hdly : ∃ u r', r = .dly u r'
    · obtain ⟨u, r', rfl⟩ := hdly
      exact writeDly_sameOutcome h u r' d
    · exact (writeReg_ignoresLines hsr (fun u r' he => hdly ⟨u, r', he⟩) d).sameOutcome h

/-- A push of the same words to lines with the same visible part. -/
theorem sizedLine_sameVisible (rd : Reg) (u : Nat) {l m : DlyUnit} (x req y : Word)
    (hpush : (l.push x y).sameVisible (m.push x y)) :
    (sizedLine rd u l x req y s).sameVisible (sizedLine rd u m x req y s') := by
  obtain ⟨-, hn, -⟩ := id hpush
  have hclamp : delayClamped m.n req = delayClamped l.n req := congrArg (delayClamped · req) hn.symm
  rw [sizedLine, sizedLine, hclamp]
  exact sameVisible_raiseIf (sameVisible_writeV (sameVisible_setDly h u hpush) rd y) _ _

variable (hs : LegalState s) (hs' : LegalState s')
include hs hs'

/-- The commands of the delay lines, on a line that exists in both states. -/
theorem exec_line_sameOutcome {i : Instr} {u : UnitIdx} {l m : DlyUnit} (hi : targetOf i = some (.dly, u.toNat))
    (hl : s.dly[u.toNat]? = some l) (hm : s'.dly[u.toNat]? = some m) (hlm : l.sameVisible m) :
    SameOutcome (exec i s) (exec i s') := by
  obtain ⟨hv, hnan, hparams⟩ := sameVisible_rest h
  have hread : ∀ r, s'.readV r = s.readV r := readV_congr hv
  have hlegal := of_all_get hs.dly hl
  have hlegal' := hparams ▸ of_all_get hs'.dly hm
  obtain ⟨-, -, -, -, hsized, -⟩ := id hlm
  cases i with
  | dlyInit w =>
    obtain rfl : w = u := BitVec.eq_of_toNat_eq (Prod.mk.inj (Option.some.inj hi)).2
    exact ⟨_, _, exec_dlyInit_of_unit hl, exec_dlyInit_of_unit hm, sameVisible_setDly h _ (sameVisible_init hlm)⟩
  | dlyProci rd ra rb w =>
    obtain rfl : w = u := BitVec.eq_of_toNat_eq (Prod.mk.inj (Option.some.inj hi)).2
    cases hsz : l.sized with
    | false =>
      exact ⟨_, _, exec_dlyProci_of_unsized hl hsz rd ra rb, exec_dlyProci_of_unsized hm (hsized ▸ hsz) rd ra rb,
        sameVisible_raiseIf (sameVisible_writeV h rd _) true .uninit⟩
    | true =>
      refine ⟨_, _, exec_dlyProci_of_sized hl hsz rd ra rb, exec_dlyProci_of_sized hm (hsized ▸ hsz) rd ra rb, ?_⟩
      rw [hread, hread, hnan, sameVisible_proci hlm hlegal hsz]
      exact sizedLine_sameVisible h rd _ _ _ _ (sameVisible_push hlm hlegal hsz hlegal' _ _)
  | dlyProcf rd ra rb w =>
    obtain rfl : w = u := BitVec.eq_of_toNat_eq (Prod.mk.inj (Option.some.inj hi)).2
    cases hsz : l.sized with
    | false =>
      exact ⟨_, _, exec_dlyProcf_of_unsized hl hsz rd ra rb, exec_dlyProcf_of_unsized hm (hsized ▸ hsz) rd ra rb,
        sameVisible_raiseIf (sameVisible_writeV h rd _) true .uninit⟩
    | true =>
      refine ⟨_, _, exec_dlyProcf_of_sized hl hsz rd ra rb, exec_dlyProcf_of_sized hm (hsized ▸ hsz) rd ra rb, ?_⟩
      rw [hread, hread, hnan, sameVisible_procf hlm hlegal hsz hlegal']
      exact sizedLine_sameVisible h rd _ _ _ _ (sameVisible_push hlm hlegal hsz hlegal' _ _)
  | _ => cases hi

/-- Every command. -/
theorem exec_sameOutcome (i : Instr) : SameOutcome (exec i s) (exec i s') := by
  by_cases hi : ∃ u, targetOf i = some (.dly, u)
  · obtain ⟨u, hu⟩ := hi
    obtain ⟨w, rfl, hwf⟩ := wellFormed_of_targetDly hu
    obtain ⟨hl, hm⟩ | ⟨l, m, hl, hm, hlm⟩ := sameVisible_line h w.toNat
    · exact ⟨_, _, exec_of_missing_dly (hwf _) (List.getElem?_eq_none_iff.1 hl),
        exec_of_missing_dly (hwf _) (List.getElem?_eq_none_iff.1 hm), sameVisible_raiseIf h true .illcmd⟩
    · exact exec_line_sameOutcome h hs hs' hu hl hm hlm
  · exact (exec_ignoresLines (not_exists.1 hi)).sameOutcome h

/-- Every transaction. -/
theorem transact_sameOutcome (x : Txn) : SameOutcome (transact x s) (transact x s') := by
  cases x with
  | rd addr =>
    rw [transact_rd, transact_rd, sameVisible_readReg h]
    refine ⟨_, _, rfl, rfl, ?_⟩
    cases s.readReg (region addr) with
    | none => exact sameVisible_setReply (sameVisible_raiseIf h true .illaddr) 0
    | some w => exact sameVisible_setReply h w
  | wr addr d =>
    by_cases haddr : addr = 0x0000
    · subst haddr
      rw [transact, transact, memWrite_cmd, memWrite_cmd]
      cases hdecode : decode d with
      | ok i =>
        rw [execute_of_ok hdecode, execute_of_ok hdecode]
        exact exec_sameOutcome h hs hs' i
      | reject e =>
        exact ⟨_, _, execute_of_reject hdecode, execute_of_reject hdecode, sameVisible_raiseIf h true .illcmd⟩
    · rw [transact_wr_of_region rfl (region_ne_cmd haddr), transact_wr_of_region rfl (region_ne_cmd haddr)]
      exact writeReg_sameOutcome h d _

end

/-- Settles O53: what does not name a delay line looks at none, and what does looks at the words within reach only. -/
theorem unreachableHistoryIsUnobservable : Obligations.UnreachableHistoryIsUnobservable := by
  intro x s s' t hs hs' h ht
  obtain ⟨t₁, t', ht₁, ht', hsame⟩ := transact_sameOutcome h (legal_iff.1 hs) (legal_iff.1 hs') x
  cases ht.symm.trans ht₁
  exact ⟨t', ht', hsame⟩

end Sys2Proof.Machine
end

section
/-! PROOFS. The registers that store the word written and do nothing else (R66): what each register reads after such a
write. -/

namespace Sys2Proof.Machine

/-! ### A read after a write, unit by unit -/

theorem coeffs_get_put (k : Coeffs) (d : Word) (r r' : CoefReg) :
    (k.put d r).get r' = if r' = r then d else k.get r' := by
  cases r <;> cases r' <;> rfl

theorem cells_get_put (h : Cells) (d : Word) (r r' : CellReg) : (h.put d r).get r' = if r' = r then d else h.get r' := by
  cases r <;> cases r' <;> rfl

/-- A cell written on one channel leaves the other channel alone. -/
theorem cells_putCell (b : Section) (ch ch' : Channel) (r r' : CellReg) (d : Word) :
    ((b.putCell ch r d).cells ch').get r' = if ch' = ch ∧ r' = r then d else (b.cells ch').get r' := by
  by_cases hch : ch' = ch
  · subst hch
    simp only [Section.putCell, setCells_cells_same, cells_get_put, true_and]
  · simp only [Section.putCell, setCells_cells_other b hch, hch, false_and, if_false]

theorem coeffs_putCell (b : Section) (ch : Channel) (r : CellReg) (d : Word) : (b.putCell ch r d).coeffs = b.coeffs :=
  setCells_coeffs ..

theorem cells_putCoef (b : Section) (r : CoefReg) (d : Word) (ch : Channel) : (b.putCoef r d).cells ch = b.cells ch := by
  cases ch <;> rfl

theorem lfoGet_rate (l : LfoUnit) (d : Word) (r : LfoReg) :
    ({ l with rate := d } : LfoUnit).get r = if r = .rate then d else l.get r := by
  cases r <;> rfl

theorem mixGet_writeMix (s : State) (d : Word) {r : MixReg} (hr : r ≠ .int) (r' : MixReg) :
    (s.writeMix d r).mixGet r' = if r' = r then d else s.mixGet r' := by
  cases r with
  | int => exact absurd rfl hr
  | wet | dry | fb | mid | side => cases r' <;> rfl

theorem biqGet_gain (b : BiqUnit) (d : Word) (r : BiqReg) :
    ({ b with gain := d } : BiqUnit).get r = if r = .gain then d else b.get r := by
  cases r <;> rfl

theorem biqGet_putCoef (b : BiqUnit) (d : Word) (c : CoefReg) (r : BiqReg) :
    ({ b with sec := b.sec.putCoef c d } : BiqUnit).get r = if r = .coef c then d else b.get r := by
  cases r with
  | coef c' => simp only [BiqUnit.get, Section.putCoef, coeffs_get_put, BiqReg.coef.injEq]
  | cell ch r => simp only [BiqUnit.get, cells_putCoef, reduceCtorEq, if_false]
  | type | cutoff | q | gain => rfl

theorem biqGet_putCell (b : BiqUnit) (d : Word) (ch : Channel) (c : CellReg) (r : BiqReg) :
    ({ b with sec := b.sec.putCell ch c d } : BiqUnit).get r = if r = .cell ch c then d else b.get r := by
  cases r with
  | coef c' => simp only [BiqUnit.get, coeffs_putCell, reduceCtorEq, if_false]
  | cell ch' c' => simp only [BiqUnit.get, cells_putCell, BiqReg.cell.injEq]
  | type | cutoff | q | gain => rfl

/-- Replacing a stage that exists. -/
theorem stages_set_get {c : ApcUnit} {k : Nat} {st : Stage} (h : c.stages[k]? = some st) (st' : Stage) (j : Nat) :
    (c.stages.set k st')[j]? = if j = k then some st' else c.stages[j]? := by
  obtain ⟨hk, -⟩ := List.getElem?_eq_some_iff.1 h
  by_cases hj : j = k
  · subst hj
    rw [List.getElem?_set_self hk, if_pos rfl]
  · rw [List.getElem?_set_ne (Ne.symm hj), if_neg hj]

theorem apcGet_putCoef {c : ApcUnit} {k : Nat} {st : Stage} (h : c.stages[k]? = some st) (d : Word) (r : CoefReg)
    (r' : ApcReg) :
    ({ c with stages := c.stages.set k { st with sec := st.sec.putCoef r d } } : ApcUnit).get r' =
      if r' = .coef k r then some d else c.get r' := by
  cases r' with
  | active | q => rfl
  | freq j =>
    by_cases hj : j = k
    · subst hj
      simp [ApcUnit.get, stages_set_get h, h]
    · simp [ApcUnit.get, stages_set_get h, hj]
  | coef j r' =>
    by_cases hj : j = k
    · subst hj
      by_cases hr : r' = r <;> simp [ApcUnit.get, stages_set_get h, h, Section.putCoef, coeffs_get_put, hr]
    · simp [ApcUnit.get, stages_set_get h, hj]
  | cell j ch r' =>
    by_cases hj : j = k
    · subst hj
      simp [ApcUnit.get, stages_set_get h, h, cells_putCoef]
    · simp [ApcUnit.get, stages_set_get h, hj]

theorem apcGet_putCell {c : ApcUnit} {k : Nat} {st : Stage} (h : c.stages[k]? = some st) (d : Word) (ch : Channel)
    (r : CellReg) (r' : ApcReg) :
    ({ c with stages := c.stages.set k { st with sec := st.sec.putCell ch r d } } : ApcUnit).get r' =
      if r' = .cell k ch r then some d else c.get r' := by
  cases r' with
  | active | q => rfl
  | freq j =>
    by_cases hj : j = k
    · subst hj
      simp [ApcUnit.get, stages_set_get h, h]
    · simp [ApcUnit.get, stages_set_get h, hj]
  | coef j r' =>
    by_cases hj : j = k
    · subst hj
      simp [ApcUnit.get, stages_set_get h, h, coeffs_putCell]
    · simp [ApcUnit.get, stages_set_get h, hj]
  | cell j ch' r' =>
    by_cases hj : j = k
    · subst hj
      by_cases hr : ch' = ch ∧ r' = r <;> simp [ApcUnit.get, stages_set_get h, h, cells_putCell, hr]
    · simp [ApcUnit.get, stages_set_get h, hj]

/-! ### A read after a write, region by region -/

/-- A write that makes one region read the word written, and changes nothing that another region or no region shows. -/
structure StoresAlone (s : State) (r : Region) (d : Word) (t : State) : Prop where
  reads : ∀ r', t.readReg r' = if r' = r then some d else s.readReg r'
  hidden : t.rngN = s.rngN ∧ t.dly = s.dly ∧ t.params = s.params ∧ t.host = s.host ∧ t.reply = s.reply ∧ t.txn = s.txn
  counts : t.lfo.length = s.lfo.length ∧ t.biq.length = s.biq.length ∧
    t.apc.map (fun c => c.stages.length) = s.apc.map (fun c => c.stages.length)

section
variable {s : State} {u : Nat} {d : Word}

theorem storesAlone_sample (i : Reg) : StoresAlone s (.sample i) d (s.writeV i d) := by
  refine ⟨fun r' => ?_, ⟨rfl, rfl, rfl, rfl, rfl, rfl⟩, ⟨rfl, rfl, rfl⟩⟩
  cases r' with
  | sample j =>
    by_cases hj : j = i
    · subst hj
      rw [if_pos rfl, State.readReg, readV_writeV_same]
    · rw [if_neg (mt Region.sample.inj hj), State.readReg, readV_writeV_other _ _ _ _ hj, State.readReg]
  | _ => exact (if_neg nofun).symm

theorem storesAlone_mixer {r : MixReg} (hr : r ≠ .int) : StoresAlone s (.mixer r) d (s.writeMix d r) := by
  have hreads : ∀ r', (s.writeMix d r).readReg r' = if r' = .mixer r then some d else s.readReg r' := fun r' => by
    cases r' with
    | mixer p =>
      rw [State.readReg, mixGet_writeMix s d hr, apply_ite some]
      simp only [Region.mixer.injEq, State.readReg]
    | _ =>
      cases r with
      | int => exact absurd rfl hr
      | _ => exact (if_neg nofun).symm
  cases r with
  | int => exact absurd rfl hr
  | _ => exact ⟨hreads, ⟨rfl, rfl, rfl, rfl, rfl, rfl⟩, ⟨rfl, rfl, rfl⟩⟩

/-- A register of an LFO that is replaced. -/
theorem storesAlone_lfo {l l' : LfoUnit} {r : LfoReg} (hl : s.lfo[u]? = some l)
    (hget : ∀ r', l'.get r' = if r' = r then d else l.get r') : StoresAlone s (.lfo u r) d (s.setLfo u l') := by
  obtain ⟨hu, -⟩ := List.getElem?_eq_some_iff.1 hl
  refine ⟨fun r' => ?_, ⟨rfl, rfl, rfl, rfl, rfl, rfl⟩, ⟨List.length_set .., rfl, rfl⟩⟩
  cases r' with
  | lfo v p =>
    by_cases hv : v = u
    · subst hv
      rw [readReg_lfo hl, readReg_lfo (List.getElem?_set_self hu), hget, apply_ite some]
      simp only [Region.lfo.injEq, true_and]
    · simp only [State.readReg, setLfo_lfo, List.getElem?_set_ne (Ne.symm hv), Region.lfo.injEq, hv, false_and, if_false]
  | _ => exact (if_neg nofun).symm

/-- A register of a biquad that is replaced. -/
theorem storesAlone_biq {b b' : BiqUnit} {r : BiqReg} (hb : s.biq[u]? = some b)
    (hget : ∀ r', b'.get r' = if r' = r then d else b.get r') : StoresAlone s (.biq u r) d (s.setBiq u b') := by
  refine ⟨fun r' => ?_, ⟨rfl, rfl, rfl, rfl, rfl, rfl⟩, ⟨rfl, List.length_set .., rfl⟩⟩
  cases r' with
  | biq v p =>
    by_cases hv : v = u
    · subst hv
      rw [readReg_biq hb, readReg_biq (setBiq_get_same hb b'), hget, apply_ite some]
      simp only [Region.biq.injEq, true_and]
    · simp only [State.readReg, setBiq_biq, List.getElem?_set_ne (Ne.symm hv), Region.biq.injEq, hv, false_and, if_false]
  | _ => exact (if_neg nofun).symm

/-- A register of a cascade that is replaced by one with as many stages. -/
theorem storesAlone_apc {c c' : ApcUnit} {r : ApcReg} (hc : s.apc[u]? = some c)
    (hcount : c'.stages.length = c.stages.length) (hget : ∀ r', c'.get r' = if r' = r then some d else c.get r') :
    StoresAlone s (.apc u r) d (s.setApc u c') := by
  refine ⟨fun r' => ?_, ⟨rfl, rfl, rfl, rfl, rfl, rfl⟩, ⟨rfl, rfl, map_set_of_eq hc hcount⟩⟩
  cases r' with
  | apc v p =>
    by_cases hv : v = u
    · subst hv
      rw [readReg_apc hc, readReg_apc (setApc_get_same hc c'), hget]
      simp only [Region.apc.injEq, true_and]
    · simp only [State.readReg, setApc_apc, List.getElem?_set_ne (Ne.symm hv), Region.apc.injEq, hv, false_and, if_false]
  | _ => exact (if_neg nofun).symm

/-- A write of a plain register that exists stores the word alone. -/
theorem writeReg_storesAlone {r : Region} (hplain : plainRegister r = true) (hexists : (s.readReg r).isSome = true) :
    StoresAlone s r d (s.writeReg d r) := by
  obtain ⟨w, hread⟩ := Option.isSome_iff_exists.1 hexists
  cases r with
  | cmd | status | sr | seed | dly | reserved => exact Bool.noConfusion hplain
  | sample i => exact storesAlone_sample i
  | mixer r => exact storesAlone_mixer (bne_iff_ne.1 hplain)
  | lfo u r =>
    obtain rfl : r = .rate := eq_of_beq hplain
    obtain ⟨l, hl, -⟩ := Option.map_eq_some_iff.1 hread
    simp only [State.writeReg, hl]
    exact storesAlone_lfo hl (lfoGet_rate l d)
  | biq u r =>
    obtain ⟨b, hb, -⟩ := Option.map_eq_some_iff.1 hread
    simp only [State.writeReg, hb]
    cases r with
    | type | cutoff | q => exact Bool.noConfusion hplain
    | gain => exact storesAlone_biq hb (biqGet_gain b d)
    | coef c => exact storesAlone_biq hb (biqGet_putCoef b d c)
    | cell ch c => exact storesAlone_biq hb (biqGet_putCell b d ch c)
  | apc a r =>
    obtain ⟨c, hc, hget⟩ := Option.bind_eq_some_iff.1 hread
    simp only [State.writeReg, hc]
    cases r with
    | active | q | freq => exact Bool.noConfusion hplain
    | coef k r =>
      obtain ⟨st, hst, -⟩ := Option.map_eq_some_iff.1 hget
      rw [State.writeApc, writeStage_of_stage hst]
      exact storesAlone_apc hc (List.length_set ..) (apcGet_putCoef hst d r)
    | cell k ch r =>
      obtain ⟨st, hst, -⟩ := Option.map_eq_some_iff.1 hget
      rw [State.writeApc, writeStage_of_stage hst]
      exact storesAlone_apc hc (List.length_set ..) (apcGet_putCell hst d ch r)

end

/-- Settles O40: each plain register is stored alone. -/
theorem plainRegistersReadBackWhatWasWritten : Obligations.PlainRegistersReadBackWhatWasWritten := by
  intro addr d s hplain hexists
  have hcmd : region addr ≠ .cmd := fun h => by
    rw [h] at hplain
    exact Bool.noConfusion hplain
  obtain ⟨hreads, ⟨hrng, hdly, hparams, hhost, hreply, htxn⟩, hlfo, hbiq, hapc⟩ :=
    writeReg_storesAlone (d := d) hplain hexists
  exact ⟨_, transact_wr_of_region rfl hcmd, (hreads _).trans (if_pos rfl), fun r hr => (hreads r).trans (if_neg hr), hrng,
    hdly, hparams, hhost, hreply, htxn, hlfo, hbiq, hapc⟩

end Sys2Proof.Machine
end

section
/-! PROOFS. The reference instantiation of `Coef` (R169 to R180). -/

namespace Sys2Proof.Machine

/-- Settles O24: the NaNs are those drawn inside `Coef`; the formulas of each topology are the spec's, the common
subexpressions written out. -/
theorem referenceCoefIsTheSpecsFormulas : Obligations.ReferenceCoefIsTheSpecsFormulas := by
  intro fc q g fs t
  refine ⟨coefNan t fc q g fs, fun _ => F32.isNaN_nanOf _, ?_⟩
  cases t with
  | lp1 | lp2 | hp1 | hp2 | bp | notch | ap1 | ap2 | lsh | hsh | peak => rfl

end Sys2Proof.Machine
end

section
/-! PROOFS. The number system: the one rounding is to nearest, ties to even (R13). -/

namespace Sys2Proof.Machine.F32

/-! ### Sizes: what bits 30:0 are worth -/

/-- The size, in units of 2^-149, of the value with these bits 30:0. -/
def sizeOf (b : Nat) : Nat := if b / 2 ^ 23 = 0 then b else (2 ^ 23 + b % 2 ^ 23) * 2 ^ (b / 2 ^ 23 - 1)

theorem unitsAbs_eq_sizeOf (a : Word) : unitsAbs a = sizeOf (mag a) := rfl

/-- The bits with exponent `e` and significand `m` have the size `m · 2^e`, also when `m` carried to `2^24`. -/
theorem sizeOf_mul {e m : Nat} (hm : m ≤ 2 ^ 24) (h : e = 0 ∨ 2 ^ 23 ≤ m) : sizeOf (e * 2 ^ 23 + m) = m * 2 ^ e := by
  unfold sizeOf
  by_cases hlow : m < 2 ^ 23
  · obtain rfl : e = 0 := by omega
    rw [if_pos (by omega)]
    omega
  · rw [if_neg (by omega)]
    by_cases hcarry : m < 2 ^ 24
    · have hexp : (e * 2 ^ 23 + m) / 2 ^ 23 - 1 = e := by omega
      have hfrac : 2 ^ 23 + (e * 2 ^ 23 + m) % 2 ^ 23 = m := by omega
      rw [hexp, hfrac]
    · obtain rfl : m = 2 ^ 24 := by omega
      have hexp : (e * 2 ^ 23 + 2 ^ 24) / 2 ^ 23 - 1 = e + 1 := by omega
      have hfrac : 2 ^ 23 + (e * 2 ^ 23 + 2 ^ 24) % 2 ^ 23 = 2 ^ 23 := by omega
      rw [hexp, hfrac]
      ring

/-- Bits split into exponent and significand. -/
theorem exists_exponent (b : Nat) :
    ∃ e m, b = e * 2 ^ 23 + m ∧ m < 2 ^ 24 ∧ (e = 0 ∨ 2 ^ 23 ≤ m) ∧ sizeOf b = m * 2 ^ e := by
  by_cases h0 : b / 2 ^ 23 = 0
  · exact ⟨0, b, by omega, by omega, .inl rfl, by rw [sizeOf, if_pos h0]; omega⟩
  · have hb : b = (b / 2 ^ 23 - 1) * 2 ^ 23 + (2 ^ 23 + b % 2 ^ 23) := by omega
    exact ⟨b / 2 ^ 23 - 1, 2 ^ 23 + b % 2 ^ 23, hb, by omega, .inr (by omega), by rw [sizeOf, if_neg h0]⟩

/-- Greater bits have a greater size. -/
theorem sizeOf_strictMono : StrictMono sizeOf := by
  refine strictMono_nat_of_lt_succ fun b => ?_
  obtain ⟨e, m, hb, hm, he, hsize⟩ := exists_exponent b
  have hnext : sizeOf (b + 1) = (m + 1) * 2 ^ e := by
    rw [hb, Nat.add_assoc]
    exact sizeOf_mul (by omega) (by omega)
  rw [hsize, hnext]
  exact Nat.mul_lt_mul_of_pos_right (Nat.lt_succ_self m) (by positivity)

/-- A size is a multiple of `2^e`, or lies below the significands of exponent `e`. -/
theorem dvd_sizeOf_or_lt (b e : Nat) : 2 ^ e ∣ sizeOf b ∨ e ≠ 0 ∧ sizeOf b < 2 ^ 23 * 2 ^ e := by
  obtain ⟨f, m, -, hm, hf, hsize⟩ := exists_exponent b
  rw [hsize]
  by_cases hfe : e ≤ f
  · exact .inl (Dvd.dvd.mul_left (Nat.pow_dvd_pow 2 hfe) m)
  · right
    obtain ⟨k, rfl⟩ := Nat.exists_eq_add_of_lt (Nat.lt_of_not_le hfe)
    refine ⟨by omega, ?_⟩
    calc m * 2 ^ f < 2 ^ 24 * 2 ^ f := Nat.mul_lt_mul_of_pos_right hm (by positivity)
      _ ≤ 2 ^ 24 * 2 ^ f * 2 ^ k := Nat.le_mul_of_pos_right _ (by positivity)
      _ = 2 ^ 23 * 2 ^ (f + k + 1) := by ring

/-! ### The significand a rounding gives -/

/-- The rounded bits before they are cut off at infinity. -/
def roundedBits (n d : Nat) : Nat := excess n d * 2 ^ 23 + nearestEven n (d * 2 ^ excess n d)

theorem roundMag_eq (n d : Nat) : roundMag n d = min 0x7F800000 (roundedBits n d) := rfl

section
variable {n d : Nat} (hd : 0 < d)
include hd

/-- The rounded significand has at most 24 bits, or has just carried, and fills them unless the exponent is that of the
subnormals. -/
theorem significand_range :
    nearestEven n (d * 2 ^ excess n d) ≤ 2 ^ 24 ∧
      (excess n d = 0 ∨ 2 ^ 23 * (d * 2 ^ excess n d) ≤ n ∧ 2 ^ 23 ≤ nearestEven n (d * 2 ^ excess n d)) := by
  obtain ⟨e, he⟩ : ∃ e, e = excess n d := ⟨_, rfl⟩
  rw [← he]
  have hD : 0 < d * 2 ^ e := Nat.mul_pos hd (by positivity)
  obtain ⟨hup, hlow⟩ := nearestEven_error n hD
  have hlt : n < 2 ^ 24 * (d * 2 ^ e) := by
    have h1 : n / d < 2 ^ ((n / d).log2 + 1) := Nat.lt_log2_self
    have h2 : 2 ^ ((n / d).log2 + 1) ≤ 2 ^ (24 + e) :=
      Nat.pow_le_pow_right (by decide) (by rw [he, excess]; omega)
    calc n < 2 ^ (24 + e) * d := (Nat.div_lt_iff_lt_mul hd).1 (h1.trans_le h2)
      _ = 2 ^ 24 * (d * 2 ^ e) := by rw [Nat.pow_add]; ring
  constructor
  · have : nearestEven n (d * 2 ^ e) * (d * 2 ^ e) < (2 ^ 24 + 1) * (d * 2 ^ e) := by rw [Nat.add_mul]; omega
    exact Nat.le_of_lt_succ (Nat.lt_of_mul_lt_mul_right this)
  · refine or_iff_not_imp_left.2 fun h0 => ?_
    have hz : n / d ≠ 0 := fun hz => h0 (by rw [he, excess, hz]; rfl)
    have hge : 2 ^ 23 * (d * 2 ^ e) ≤ n := by
      calc 2 ^ 23 * (d * 2 ^ e) = 2 ^ (23 + e) * d := by rw [Nat.pow_add]; ring
        _ = 2 ^ (n / d).log2 * d := by rw [show 23 + e = (n / d).log2 by rw [he, excess] at h0 ⊢; omega]
        _ ≤ n := (Nat.le_div_iff_mul_le hd).1 (Nat.log2_self_le hz)
    have : 2 ^ 23 * (d * 2 ^ e) < (nearestEven n (d * 2 ^ e) + 1) * (d * 2 ^ e) := by rw [Nat.add_mul]; omega
    exact ⟨hge, Nat.le_of_lt_succ (Nat.lt_of_mul_lt_mul_right this)⟩

/-- The size of the rounded bits. -/
theorem sizeOf_roundedBits : sizeOf (roundedBits n d) = nearestEven n (d * 2 ^ excess n d) * 2 ^ excess n d := by
  obtain ⟨hm, he⟩ := significand_range (n := n) hd
  exact sizeOf_mul hm (he.imp_right And.right)

end

/-! ### Nearest, ties to even -/

/-- The rounded quotient is the quotient or the next integer, by the remainder; at a tie it is the even one. -/
theorem nearestEven_cases (n d : Nat) :
    (nearestEven n d = n / d ∧ 2 * (n % d) < d) ∨ (nearestEven n d = n / d + 1 ∧ d < 2 * (n % d)) ∨
      (2 * (n % d) = d ∧ nearestEven n d % 2 = 0 ∧ (nearestEven n d = n / d ∨ nearestEven n d = n / d + 1)) := by
  unfold nearestEven
  split_ifs <;> omega

/-- No multiple of `d` is nearer to `n` than that of the rounded quotient; when another is as near, the rounded quotient is
even. -/
theorem nearestEven_nearest (n : Nat) {d : Nat} (hd : 0 < d) (j : Nat) :
    (((nearestEven n d * d : Nat) : Int) - n).natAbs ≤ (((j * d : Nat) : Int) - n).natAbs ∧
      ((((nearestEven n d * d : Nat) : Int) - n).natAbs = (((j * d : Nat) : Int) - n).natAbs → j ≠ nearestEven n d →
        nearestEven n d % 2 = 0) := by
  have hn := Nat.div_add_mod n d
  have hr := Nat.mod_lt n hd
  have hsucc : (n / d + 1) * d = d * (n / d) + d := by ring
  have hj : j * d + d ≤ d * (n / d) ∨ (j = n / d ∧ j * d = d * (n / d)) ∨ (j = n / d + 1 ∧ j * d = d * (n / d) + d) ∨
      d * (n / d) + 2 * d ≤ j * d := by
    obtain hlt | heq | heq | hgt : j + 1 ≤ n / d ∨ j = n / d ∨ j = n / d + 1 ∨ n / d + 2 ≤ j := by omega
    · exact .inl (by nlinarith [Nat.mul_le_mul_right d hlt])
    · exact .inr (.inl ⟨heq, by rw [heq, Nat.mul_comm]⟩)
    · exact .inr (.inr (.inl ⟨heq, by rw [heq, hsucc]⟩))
    · exact .inr (.inr (.inr (by nlinarith [Nat.mul_le_mul_right d hgt])))
  obtain ⟨hm, hrem⟩ | ⟨hm, hrem⟩ | ⟨hrem, heven, hm | hm⟩ := nearestEven_cases n d
  · rw [hm, Nat.mul_comm (n / d) d]
    omega
  · rw [hm, hsucc]
    omega
  · rw [hm, Nat.mul_comm (n / d) d]
    omega
  · rw [hm, hsucc]
    omega

/-! ### The statement's parts -/

theorem mag_round (neg : Bool) (n d : Nat) : mag (round neg n d) = roundMag n d :=
  mag_ofMag neg ((Nat.min_le_left _ _).trans_lt (by decide))

section
variable {n d : Nat} (hd : 0 < d)
include hd

/-- The rounded bits are those of a finite value exactly below the overflow threshold, which itself is a tie that goes to
infinity. -/
theorem roundedBits_lt_iff : roundedBits n d < 0x7F800000 ↔ n < (2 ^ 25 - 1) * 2 ^ 252 * d := by
  obtain ⟨hm, hlow⟩ := significand_range (n := n) hd
  obtain ⟨e, he⟩ : ∃ e, excess n d = e := ⟨_, rfl⟩
  rw [he] at hm hlow
  obtain ⟨herr, herr'⟩ := nearestEven_error n (Nat.mul_pos hd (show 0 < 2 ^ e by positivity))
  have hties := nearestEven_cases n (d * 2 ^ e)
  have hdiv := Nat.div_add_mod n (d * 2 ^ e)
  rw [roundedBits, he]
  obtain ⟨m, hmdef⟩ : ∃ m, nearestEven n (d * 2 ^ e) = m := ⟨_, rfl⟩
  rw [hmdef] at hm hlow herr herr' hties ⊢
  obtain ⟨T, hT⟩ : ∃ T, T = 2 ^ 252 * d := ⟨_, rfl⟩
  have hTpos : 0 < T := by rw [hT]; positivity
  rw [Nat.mul_assoc, ← hT]
  obtain hlt | rfl | hgt : e ≤ 252 ∨ e = 253 ∨ 254 ≤ e := by omega
  · have hD : d * 2 ^ e ≤ T := by
      rw [hT, Nat.mul_comm]
      exact Nat.mul_le_mul_right _ (Nat.pow_le_pow_right (by decide) hlt)
    have hmD : m * (d * 2 ^ e) ≤ 2 ^ 24 * T := Nat.mul_le_mul hm hD
    omega
  · have hD : d * 2 ^ 253 = 2 * T := by rw [hT]; ring
    rw [hD] at herr herr' hties hdiv
    constructor
    · intro hbits
      obtain hm2 | hm1 : m ≤ 2 ^ 24 - 2 ∨ m = 2 ^ 24 - 1 := by omega
      · have hmD : m * (2 * T) ≤ (2 ^ 24 - 2) * (2 * T) := Nat.mul_le_mul_right _ hm2
        omega
      · obtain ⟨hq, hrem⟩ | ⟨hq, hrem⟩ | ⟨-, heven, -⟩ := hties
        · rw [← hq, hm1] at hdiv
          omega
        · rw [show n / (2 * T) = 2 ^ 24 - 2 by omega] at hdiv
          have := Nat.mod_lt n (show 0 < 2 * T by omega)
          omega
        · omega
    · intro hn
      have hmD : m * (2 * T) < 2 ^ 24 * (2 * T) := by omega
      have := Nat.lt_of_mul_lt_mul_right hmD
      omega
  · have hD : 4 * T ≤ d * 2 ^ e := by
      calc 4 * T = d * 2 ^ 254 := by rw [hT]; ring
        _ ≤ d * 2 ^ e := Nat.mul_le_mul_left d (Nat.pow_le_pow_right (by decide) hgt)
    omega

/-- A rounded value is finite exactly below the overflow threshold. -/
theorem isFinite_round_iff (neg : Bool) : isFinite (round neg n d) = true ↔ n < (2 ^ 25 - 1) * 2 ^ 252 * d := by
  rw [isFinite, mag_round, roundMag_eq, decide_eq_true_eq, ← roundedBits_lt_iff hd]
  omega

/-- Below the threshold nothing is cut off. -/
theorem mag_round_of_lt (neg : Bool) (hn : n < (2 ^ 25 - 1) * 2 ^ 252 * d) : mag (round neg n d) = roundedBits n d := by
  have := (roundedBits_lt_iff hd).2 hn
  rw [mag_round, roundMag_eq]
  omega

/-- No size is nearer to `n / d` than that of the rounded bits; when another is as near, the last rounded bit is 0. -/
theorem roundedBits_nearest (b : Nat) :
    (((sizeOf (roundedBits n d) * d : Nat) : Int) - n).natAbs ≤ (((sizeOf b * d : Nat) : Int) - n).natAbs ∧
      ((((sizeOf (roundedBits n d) * d : Nat) : Int) - n).natAbs = (((sizeOf b * d : Nat) : Int) - n).natAbs →
        b ≠ roundedBits n d → roundedBits n d % 2 = 0) := by
  have hD : 0 < d * 2 ^ excess n d := Nat.mul_pos hd (by positivity)
  have hscale : ∀ j, j * 2 ^ excess n d * d = j * (d * 2 ^ excess n d) := fun j => by ring
  have hsize := sizeOf_roundedBits (n := n) hd
  rw [hsize, hscale]
  obtain ⟨j, hj⟩ | ⟨he, hlt⟩ := dvd_sizeOf_or_lt b (excess n d)
  · -- the other size is on the grid of the rounded one
    rw [Nat.mul_comm] at hj
    rw [hj, hscale]
    obtain ⟨hle, htie⟩ := nearestEven_nearest n hD j
    refine ⟨hle, fun heq hne => ?_⟩
    have hjne : j ≠ nearestEven n (d * 2 ^ excess n d) := fun he =>
      hne (sizeOf_strictMono.injective (by rw [hj, hsize, he]))
    have := htie heq hjne
    rw [roundedBits]
    omega
  · -- the other size is below the grid, and so farther off than the least significand
    obtain ⟨hlow, -⟩ := (significand_range (n := n) hd).2.resolve_left he
    have hb : sizeOf b * d < 2 ^ 23 * (d * 2 ^ excess n d) := by
      calc sizeOf b * d < 2 ^ 23 * 2 ^ excess n d * d := Nat.mul_lt_mul_of_pos_right hlt hd
        _ = _ := hscale _
    obtain ⟨hle, -⟩ := nearestEven_nearest n hD (2 ^ 23)
    omega

end

/-- Settles O54: the rounded bits are the nearest size on the grid of their exponent, no other size below that grid is nearer,
and the overflow threshold is the tie between the greatest finite value and the next one. -/
theorem roundingIsToNearestTiesToEven : Obligations.RoundingIsToNearestTiesToEven := by
  intro neg n d hd
  refine ⟨sign_round neg n d, isFinite_round_iff hd neg, fun hinf => ?inf, fun hfin c _ => ?nearest⟩
  case inf =>
    rw [isFinite, decide_eq_false_iff_not, mag_round, roundMag_eq] at hinf
    rw [isInf, beq_iff_eq, mag_round, roundMag_eq]
    omega
  case nearest =>
    rw [unitsAbs_eq_sizeOf, unitsAbs_eq_sizeOf, mag_round_of_lt hd neg ((isFinite_round_iff hd neg).1 hfin)]
    exact_mod_cast roundedBits_nearest hd (mag c)

end Sys2Proof.Machine.F32
end

section
/-! PROOFS. The number system: operations and comparisons on finite values, infinities and NaNs (R12, R13, R15). -/

namespace Sys2Proof.Machine.F32

/-! ### The sign flip -/

@[simp] theorem mag_neg (a : Word) : mag (neg a) = mag a := by
  rw [mag, neg, BitVec.toNat_xor, Nat.xor_mod_two_pow]
  exact Nat.xor_zero _

@[simp] theorem sign_neg (a : Word) : sign (neg a) = !sign a := by
  rw [sign, neg, BitVec.msb_xor]
  exact Bool.xor_true _

@[simp] theorem isFinite_neg (a : Word) : isFinite (neg a) = isFinite a := by simp only [isFinite, mag_neg]
@[simp] theorem isNaN_neg (a : Word) : isNaN (neg a) = isNaN a := by simp only [isNaN, mag_neg]
@[simp] theorem isInf_neg (a : Word) : isInf (neg a) = isInf a := by simp only [isInf, mag_neg]
@[simp] theorem isZero_neg (a : Word) : isZero (neg a) = isZero a := by simp only [isZero, mag_neg]
@[simp] theorem unitsAbs_neg (a : Word) : unitsAbs (neg a) = unitsAbs a := by simp only [unitsAbs, mag_neg]

@[simp] theorem units_neg (a : Word) : units (neg a) = -units a := by
  cases h : sign a <;> simp [units, h]

/-! ### Words by their sign and bits 30:0 -/

/-- Two words with the same sign and the same bits 30:0 are the same. -/
theorem eq_of_sign_mag {a b : Word} (hs : sign a = sign b) (hm : mag a = mag b) : a = b := by
  rw [← ofMag_sign_mag a, ← ofMag_sign_mag b, hs, hm]

/-- The zeros are the values of no units. -/
theorem units_eq_zero {a : Word} : units a = 0 ↔ isZero a = true := by
  rw [isZero, beq_iff_eq, ← unitsAbs_eq_zero, ← natAbs_units, Int.natAbs_eq_zero]

/-- The two zeros. -/
theorem isZero_iff {a : Word} : isZero a = true ↔ a = 0x00000000 ∨ a = 0x80000000 := by
  constructor
  · intro h
    have hm := beq_iff_eq.1 h
    cases hs : sign a with
    | false => exact .inl (eq_of_sign_mag hs hm)
    | true => exact .inr (eq_of_sign_mag hs hm)
  · rintro (rfl | rfl) <;> decide

/-- The two infinities. -/
theorem isInf_iff {a : Word} : isInf a = true ↔ a = 0x7F800000 ∨ a = 0xFF800000 := by
  constructor
  · intro h
    have hm := beq_iff_eq.1 h
    cases hs : sign a with
    | false => exact .inl (eq_of_sign_mag hs hm)
    | true => exact .inr (eq_of_sign_mag hs hm)
  · rintro (rfl | rfl) <;> decide

/-! ### The operations on finite operands -/

section
variable {nan a b : Word} (ha : isFinite a = true) (hb : isFinite b = true)
include ha hb

/-- The sum of finite operands, by the exact sum. -/
theorem add_finite :
    add nan a b = if units a + units b = 0 then (if sign a && sign b then negZero else zero)
      else round (decide (units a + units b < 0)) (units a + units b).natAbs 1 := by
  simp [add, isNaN_of_isFinite ha, isNaN_of_isFinite hb, isInf_of_isFinite ha, isInf_of_isFinite hb]

/-- The product of finite operands. -/
theorem mul_finite :
    mul nan a b = round (sign a != sign b) (unitsAbs a * unitsAbs b) (2 ^ 149) := by
  simp [mul, isNaN_of_isFinite ha, isNaN_of_isFinite hb, isInf_of_isFinite ha, isInf_of_isFinite hb]

/-- The quotient of finite operands. -/
theorem div_finite :
    div nan a b = if isZero b then (if isZero a then nan else ofMag (sign a != sign b) 0x7F800000)
      else round (sign a != sign b) (unitsAbs a * 2 ^ 149) (unitsAbs b) := by
  simp [div, isNaN_of_isFinite ha, isNaN_of_isFinite hb, isInf_of_isFinite ha, isInf_of_isFinite hb]

/-- An exact zero sum is `−0` for two `−0`, else `+0`. -/
theorem add_zero_sum (h : units a + units b = 0) :
    add nan a b = if a = 0x80000000 ∧ b = 0x80000000 then 0x80000000 else 0x00000000 := by
  rw [add_finite ha hb, if_pos h]
  by_cases hneg : a = 0x80000000 ∧ b = 0x80000000
  · obtain ⟨rfl, rfl⟩ := hneg
    rfl
  · rw [if_neg hneg, if_neg]
    · rfl
    · intro hs
      obtain ⟨hsa, hsb⟩ := Bool.and_eq_true_iff.1 hs
      have hua : units a = -unitsAbs a := if_pos hsa
      have hub : units b = -unitsAbs b := if_pos hsb
      have hma : mag a = 0 := unitsAbs_eq_zero.1 (by omega)
      have hmb : mag b = 0 := unitsAbs_eq_zero.1 (by omega)
      exact hneg ⟨eq_of_sign_mag hsa hma, eq_of_sign_mag hsb hmb⟩

end

/-- The word assembled with the bits of an infinity. -/
theorem isInf_ofMag (neg : Bool) : isInf (ofMag neg 0x7F800000) = true := by
  cases neg <;> decide

/-- Settles O55: the definitions of the operations, with the operands' units for their sizes. -/
theorem operationsRoundTheExactResultOnce : Obligations.OperationsRoundTheExactResultOnce := by
  intro nan a b ha hb
  have hb' : isFinite (neg b) = true := (isFinite_neg b).trans hb
  refine ⟨fun h => ?add, add_zero_sum ha hb, fun h => ?sub, ?mul, fun h => ?div, fun hne h => ?divZero, fun h0 h => ?nan⟩
  case add => rw [add_finite ha hb, if_neg h]
  case sub =>
    rw [sub, add_finite ha hb', units_neg, ← Int.sub_eq_add_neg, if_neg h]
  case mul => rw [mul_finite ha hb, Int.natAbs_mul, natAbs_units, natAbs_units]
  case div => rw [div_finite ha hb, if_neg (mt units_eq_zero.2 h), natAbs_units, natAbs_units]
  case divZero =>
    rw [div_finite ha hb, if_pos (units_eq_zero.1 h), if_neg (mt units_eq_zero.2 hne)]
    exact isInf_ofMag _
  case nan => rw [div_finite ha hb, if_pos (units_eq_zero.1 h), if_pos (units_eq_zero.1 h0)]

/-! ### Comparisons -/

/-- The size of a key, with its sign. -/
def signedSize (k : Int) : Int := if k < 0 then -sizeOf k.natAbs else sizeOf k.natAbs

theorem units_eq_signedSize (a : Word) : units a = signedSize (key a) := by
  have h0 : sizeOf 0 = 0 := rfl
  rw [units, key, unitsAbs_eq_sizeOf]
  cases sign a with
  | false => simp [signedSize]
  | true =>
    by_cases hm : mag a = 0
    · simp [signedSize, hm, h0]
    · simp [signedSize, Nat.pos_of_ne_zero hm]

theorem signedSize_strictMono : StrictMono signedSize := by
  intro j k hjk
  have h0 : sizeOf 0 = 0 := rfl
  have hlt := sizeOf_strictMono.lt_iff_lt (a := j.natAbs) (b := k.natAbs)
  have hgt := sizeOf_strictMono.lt_iff_lt (a := k.natAbs) (b := j.natAbs)
  have hpos := sizeOf_strictMono.lt_iff_lt (a := 0) (b := j.natAbs)
  rw [h0] at hpos
  unfold signedSize
  split_ifs <;> omega

/-- The keys of finite values lie between those of the infinities. -/
theorem key_of_isFinite {a : Word} (h : isFinite a = true) : -0x7F800000 < key a ∧ key a < 0x7F800000 := by
  have hm := of_decide_eq_true h
  unfold key
  split <;> omega

section
variable {a b : Word} (ha : isNaN a = false) (hb : isNaN b = false)
include ha hb

theorem lt_eq_key : lt a b = decide (key a < key b) := by simp [lt, ha, hb]
theorem le_eq_key : le a b = decide (key a ≤ key b) := by simp [le, ha, hb]
theorem eq_eq_key : eq a b = decide (key a = key b) := by simp [eq, ha, hb, Bool.beq_eq_decide_eq]

end

/-- The comparisons of finite values are those of their units. -/
theorem comparisons_finite {a b : Word} (ha : isFinite a = true) (hb : isFinite b = true) :
    (lt a b = true ↔ units a < units b) ∧ (le a b = true ↔ units a ≤ units b) ∧ (eq a b = true ↔ units a = units b) := by
  have hna := isNaN_of_isFinite ha
  have hnb := isNaN_of_isFinite hb
  rw [lt_eq_key hna hnb, le_eq_key hna hnb, eq_eq_key hna hnb, units_eq_signedSize, units_eq_signedSize,
    signedSize_strictMono.lt_iff_lt, signedSize_strictMono.le_iff_le, signedSize_strictMono.injective.eq_iff]
  simp only [decide_eq_true_eq, and_self]

/-- A greater key compares as above, whatever the two values. -/
theorem comparisons_of_key_lt {a b : Word} (ha : isNaN a = false) (hb : isNaN b = false) (h : key a < key b) :
    lt a b = true ∧ le a b = true ∧ eq a b = false ∧ gt a b = false ∧ ge a b = false ∧
      lt b a = false ∧ le b a = false ∧ eq b a = false ∧ gt b a = true ∧ ge b a = true := by
  simp only [gt, ge, lt_eq_key ha hb, le_eq_key ha hb, eq_eq_key ha hb, lt_eq_key hb ha, le_eq_key hb ha, eq_eq_key hb ha,
    decide_eq_true_eq, decide_eq_false_iff_not]
  omega

/-- A comparison with a NaN is false. -/
theorem comparisons_nan {a b : Word} (h : isNaN a = true ∨ isNaN b = true) :
    lt a b = false ∧ le a b = false ∧ eq a b = false ∧ gt a b = false ∧ ge a b = false := by
  obtain h | h := h <;> simp [lt, le, eq, gt, ge, h]

/-- What the clamps answer for the infinities. -/
theorem clamps_infinity {lo hi : Word} (hlo : isFinite lo = true) (hhi : isFinite hi = true) :
    clampLo 0x7F800000 lo = 0x7F800000 ∧ clampLo 0xFF800000 lo = lo ∧
      clamp 0x7F800000 lo hi = hi ∧ clamp 0xFF800000 lo hi = lo := by
  have hposNaN : isNaN 0x7F800000 = false := by decide
  have hnegNaN : isNaN 0xFF800000 = false := by decide
  have hposKey : key 0x7F800000 = 0x7F800000 := by decide
  have hnegKey : key 0xFF800000 = -0x7F800000 := by decide
  have hltLo : lt 0x7F800000 lo = false := by
    rw [lt_eq_key hposNaN (isNaN_of_isFinite hlo), hposKey, decide_eq_false_iff_not]
    have := (key_of_isFinite hlo).2
    omega
  have hltNeg : lt 0xFF800000 lo = true := by
    rw [lt_eq_key hnegNaN (isNaN_of_isFinite hlo), hnegKey, decide_eq_true_eq]
    exact (key_of_isFinite hlo).1
  have hgtHi : gt 0x7F800000 hi = true := by
    rw [gt, lt_eq_key (isNaN_of_isFinite hhi) hposNaN, hposKey, decide_eq_true_eq]
    exact (key_of_isFinite hhi).2
  have hlow : ¬(isNaN 0x7F800000 = true ∨ lt 0x7F800000 lo = true) := by rw [hposNaN, hltLo]; decide
  exact ⟨if_neg (by rwa [Bool.or_eq_true]), if_pos (by rw [hltNeg, Bool.or_true]), clamp_of_high hlow hgtHi,
    clamp_of_low (.inr hltNeg)⟩

/-- Settles O56: a comparison is that of the keys, which order the finite values as their units do and put the infinities
outside. -/
theorem comparisonsAreThoseOfTheValues : Obligations.ComparisonsAreThoseOfTheValues := by
  have hposNaN : isNaN 0x7F800000 = false := by decide
  have hnegNaN : isNaN 0xFF800000 = false := by decide
  have hposKey : key 0x7F800000 = 0x7F800000 := by decide
  have hnegKey : key 0xFF800000 = -0x7F800000 := by decide
  refine ⟨fun a b ha hb => ?finite, fun a b h => comparisons_nan h, fun a b h => ?infinite, fun a h => ?self,
    fun a lo hi => ⟨?clampLo, ?clamp, fun hlo hhi => clamps_infinity hlo hhi⟩⟩
  case finite =>
    obtain ⟨hlt, hle, heq⟩ := comparisons_finite ha hb
    obtain ⟨hgt, hge, -⟩ := comparisons_finite hb ha
    exact ⟨hlt, hle, heq, hgt, hge⟩
  case infinite =>
    obtain ⟨rfl, hb⟩ | ⟨ha, rfl⟩ | ⟨rfl, rfl⟩ := h
    · exact comparisons_of_key_lt hnegNaN (isNaN_of_isFinite hb) (hnegKey ▸ (key_of_isFinite hb).1)
    · exact comparisons_of_key_lt (isNaN_of_isFinite ha) hposNaN (hposKey ▸ (key_of_isFinite ha).2)
    · exact comparisons_of_key_lt hnegNaN hposNaN (by decide)
  case self => obtain rfl | rfl := h <;> decide
  case clampLo => simp only [F32.clampLo, Bool.or_eq_true]
  case clamp => simp only [F32.clamp, Bool.or_eq_true]

/-! ### Exact roundings -/

/-- A value whose size is a multiple of the rounding's grid is not changed. -/
theorem unitsAbs_round_of_dvd (neg : Bool) {n : Nat} (hdvd : 2 ^ excess n 1 ∣ n) (hn : n < (2 ^ 25 - 1) * 2 ^ 252) :
    isFinite (round neg n 1) = true ∧ unitsAbs (round neg n 1) = n := by
  have hlt : n < (2 ^ 25 - 1) * 2 ^ 252 * 1 := by rwa [Nat.mul_one]
  refine ⟨(isFinite_round_iff one_pos neg).2 hlt, ?_⟩
  rw [unitsAbs_eq_sizeOf, mag_round_of_lt one_pos neg hlt, sizeOf_roundedBits one_pos, Nat.one_mul]
  generalize excess n 1 = e at hdvd ⊢
  obtain ⟨m, rfl⟩ := hdvd
  rw [Nat.mul_comm (2 ^ e) m, nearestEven_mul (by positivity)]

/-- A significand of 24 bits, at any exponent, is on the grid it is rounded to. -/
theorem dvd_of_significand {j : Nat} (hj : j ≤ 2 ^ 24) (e : Nat) : 2 ^ excess (j * 2 ^ e) 1 ∣ j * 2 ^ e := by
  have hlog : ∀ k, j * 2 ^ e < 2 ^ (24 + k) → excess (j * 2 ^ e) 1 ≤ k := fun k hk => by
    rw [excess, Nat.div_one]
    by_cases h0 : j * 2 ^ e = 0
    · simp [h0]
    · have := (Nat.log2_lt h0).2 hk
      omega
  obtain hlt | rfl : j < 2 ^ 24 ∨ j = 2 ^ 24 := by omega
  · refine Dvd.dvd.mul_left (Nat.pow_dvd_pow 2 (hlog e ?_)) j
    rw [Nat.pow_add]
    exact Nat.mul_lt_mul_of_pos_right hlt (by positivity)
  · have hn : 2 ^ 24 * 2 ^ e = 2 ^ (24 + e) := (Nat.pow_add ..).symm
    have hle := hlog (e + 1) (hn ▸ Nat.pow_lt_pow_right (by decide) (by omega))
    rw [hn] at hle ⊢
    exact Nat.pow_dvd_pow 2 (by omega)

/-- A value with a significand of 24 bits is not changed by rounding. -/
theorem round_significand (neg : Bool) {j e : Nat} (hj : j ≤ 2 ^ 24) (he : e ≤ 200) :
    isFinite (round neg (j * 2 ^ e) 1) = true ∧ unitsAbs (round neg (j * 2 ^ e) 1) = j * 2 ^ e := by
  refine unitsAbs_round_of_dvd neg (dvd_of_significand hj e) ?_
  calc j * 2 ^ e ≤ 2 ^ 24 * 2 ^ 200 := Nat.mul_le_mul hj (Nat.pow_le_pow_right (by decide) he)
    _ < _ := by norm_num

/-- The units of a rounded value, by its sign. -/
theorem units_round (neg : Bool) (n d : Nat) :
    units (round neg n d) = if neg then -(unitsAbs (round neg n d) : Int) else unitsAbs (round neg n d) := by
  rw [units, sign_round]

/-- `ofInt` is exact up to `2^24`. -/
theorem ofInt_exact {n : Int} (h : n.natAbs ≤ 2 ^ 24) : isFinite (ofInt n) = true ∧ units (ofInt n) = n * 2 ^ 149 := by
  obtain ⟨hfin, habs⟩ := round_significand (decide (n < 0)) h (e := 149) (by decide)
  refine ⟨hfin, ?_⟩
  rw [ofInt, units_round, habs]
  simp only [decide_eq_true_eq, Nat.cast_mul, Int.natCast_natAbs]
  split_ifs with hn
  · rw [abs_of_neg hn]
    push_cast
    ring
  · rw [abs_of_nonneg (not_lt.1 hn)]
    push_cast
    ring

/-- Settles O57: a small integer has a significand of 24 bits, and its units are a multiple of those of 1. -/
theorem smallIntegersAreExact : Obligations.SmallIntegersAreExact := by
  intro n h
  obtain ⟨hfin, hunits⟩ := ofInt_exact h
  refine ⟨hfin, hunits, ?_⟩
  rw [floor, hunits]
  exact Int.mul_ediv_cancel n (by positivity)

/-! ### NaNs and infinities as operands -/

theorem neg_neg (a : Word) : neg (neg a) = a :=
  eq_of_sign_mag (by simp) (by simp)

theorem isNaN_of_isInf {a : Word} (h : isInf a = true) : isNaN a = false := by
  obtain rfl | rfl := isInf_iff.1 h <;> decide

theorem isZero_of_isInf {a : Word} (h : isInf a = true) : isZero a = false := by
  obtain rfl | rfl := isInf_iff.1 h <;> decide

/-- An infinity signed by the exclusive or of two signs. -/
theorem ofMag_infinity (a b : Word) :
    ofMag (sign a != sign b) 0x7F800000 = if sign a = sign b then 0x7F800000 else 0xFF800000 := by
  cases sign a <;> cases sign b <;> rfl

/-- A zero signed by the exclusive or of two signs. -/
theorem ofMag_zero (a b : Word) : ofMag (sign a != sign b) 0 = if sign a = sign b then 0x00000000 else 0x80000000 := by
  cases sign a <;> cases sign b <;> rfl

/-- An operation with a NaN operand returns the NaN drawn. -/
theorem operations_nan {nan a b : Word} (h : isNaN a = true ∨ isNaN b = true) :
    add nan a b = nan ∧ sub nan a b = nan ∧ mul nan a b = nan ∧ div nan a b = nan := by
  obtain h | h := h <;> simp [add, sub, mul, div, h]

/-- Two infinities. -/
theorem operations_infinities {nan a b : Word} (ha : isInf a = true) (hb : isInf b = true) :
    add nan a b = (if sign a = sign b then a else nan) ∧ sub nan a b = (if sign a = sign b then nan else a) ∧
      mul nan a b = (if sign a = sign b then 0x7F800000 else 0xFF800000) ∧ div nan a b = nan := by
  rw [← ofMag_infinity]
  have hna := isNaN_of_isInf ha
  have hnb := isNaN_of_isInf hb
  refine ⟨?_, ?_, ?_, ?_⟩
  · cases hs : sign a <;> cases hs' : sign b <;> simp [add, hna, hnb, ha, hb, hs, hs']
  · cases hs : sign a <;> cases hs' : sign b <;> simp [sub, add, hna, hnb, ha, hb, hs, hs']
  · simp [mul, hna, hnb, ha, hb, isZero_of_isInf ha, isZero_of_isInf hb]
  · simp [div, hna, hnb, ha, hb]

/-- An infinity and a finite value. -/
theorem operations_infinity_finite {nan a b : Word} (ha : isInf a = true) (hb : isFinite b = true) :
    add nan a b = a ∧ sub nan a b = a ∧
      mul nan a b = (if units b = 0 then nan else if sign a = sign b then 0x7F800000 else 0xFF800000) ∧
      div nan a b = (if sign a = sign b then 0x7F800000 else 0xFF800000) := by
  rw [← ofMag_infinity]
  have hna := isNaN_of_isInf ha
  have hnb := isNaN_of_isFinite hb
  have hib := isInf_of_isFinite hb
  simp [add, sub, mul, div, hna, hnb, ha, hib, isZero_of_isInf ha, units_eq_zero]

/-- A finite value and an infinity. -/
theorem operations_finite_infinity {nan a b : Word} (ha : isFinite a = true) (hb : isInf b = true) :
    add nan a b = b ∧ sub nan a b = neg b ∧
      mul nan a b = (if units a = 0 then nan else if sign a = sign b then 0x7F800000 else 0xFF800000) ∧
      div nan a b = (if sign a = sign b then 0x00000000 else 0x80000000) := by
  rw [← ofMag_infinity, ← ofMag_zero]
  have hna := isNaN_of_isFinite ha
  have hia := isInf_of_isFinite ha
  have hnb := isNaN_of_isInf hb
  simp [add, sub, mul, div, hna, hnb, hia, hb, isZero_of_isInf hb, units_eq_zero]

/-- Settles O58: the definitions of the operations, by the class of each operand. -/
theorem specialOperandsFollowIeee : Obligations.SpecialOperandsFollowIeee := by
  intro nan a b
  refine ⟨operations_nan, fun ha hb h => ?zeroDifference, fun ha hne hb h => ?divZero, operations_infinities,
    operations_infinity_finite, operations_finite_infinity⟩
  case zeroDifference =>
    have hneg : neg b = 0x80000000 ↔ b = 0x00000000 :=
      ⟨fun h => (neg_neg b).symm.trans (congrArg neg h), congrArg neg⟩
    rw [sub, add_zero_sum ha ((isFinite_neg b).trans hb) (by rw [units_neg, h]; omega)]
    simp only [hneg]
  case divZero =>
    rw [div_finite ha hb, if_pos (units_eq_zero.1 h), if_neg (mt units_eq_zero.2 hne)]
    exact ofMag_infinity a b

end Sys2Proof.Machine.F32
end

section
/-! PROOFS. The number system in the commands: zeros, exact sums and values in a range. -/

namespace Sys2Proof.Machine.F32

/-! ### Zeros -/

/-- What is not finite is an infinity or a NaN. -/
theorem isNaN_or_isInf_of_not_finite {a : Word} (h : isFinite a ≠ true) : isNaN a = true ∨ isInf a = true := by
  rw [isFinite, ne_eq, decide_eq_true_eq] at h
  rw [isNaN, isInf, decide_eq_true_eq, beq_iff_eq]
  omega

theorem isFinite_of_isZero {a : Word} (h : isZero a = true) : isFinite a = true := by
  rw [isZero, beq_iff_eq] at h
  rw [isFinite, h]
  rfl

theorem isZero_round_zero (neg : Bool) (d : Nat) : isZero (round neg 0 d) = true := by
  have h : roundMag 0 d = 0 := by
    simp only [roundMag, excess, nearestEven]
    simp +contextual
  rw [isZero, mag_round, h]
  rfl

section
variable {nan a b : Word}

/-- A product with a zero is a zero. -/
theorem isZero_mul (ha : isFinite a = true) (hb : isFinite b = true) (h : isZero a = true ∨ isZero b = true) :
    isZero (mul nan a b) = true := by
  have hprod : unitsAbs a * unitsAbs b = 0 := by
    obtain h | h := h <;> simp [unitsAbs_eq_zero.2 (beq_iff_eq.1 h)]
  rw [mul_finite ha hb, hprod]
  exact isZero_round_zero _ _

/-- A sum of zeros is a zero. -/
theorem isZero_add (ha : isZero a = true) (hb : isZero b = true) : isZero (add nan a b) = true := by
  rw [add_zero_sum (isFinite_of_isZero ha) (isFinite_of_isZero hb) (by rw [units_eq_zero.2 ha, units_eq_zero.2 hb]; rfl)]
  split <;> decide

/-- A difference of zeros is a zero. -/
theorem isZero_sub (ha : isZero a = true) (hb : isZero b = true) : isZero (sub nan a b) = true :=
  isZero_add ha ((isZero_neg b).trans hb)

/-- A zero times an infinity or a NaN is a NaN. -/
theorem isNaN_mul_of_zero (hnan : isNaN nan = true) (ha : isZero a = true) (hb : isFinite b = false) :
    isNaN (mul nan a b) = true := by
  obtain hb' | hb' := isNaN_or_isInf_of_not_finite (Bool.eq_false_iff.1 hb)
  · rw [(operations_nan (.inr hb')).2.2.1]
    exact hnan
  · rw [(operations_finite_infinity (isFinite_of_isZero ha) hb').2.2.1, if_pos (units_eq_zero.2 ha)]
    exact hnan

/-! ### Exact sums -/

/-- A sum that is the value of a word is that word, but for the sign of a zero. -/
theorem add_eq_of_units {c : Word} (ha : isFinite a = true) (hb : isFinite b = true) (hc : isFinite c = true)
    (h : units a + units b = units c) : eq (add nan a b) c = true ∧ (isZero c = false → add nan a b = c) := by
  by_cases h0 : units c = 0
  · have hz := units_eq_zero.1 h0
    refine ⟨?_, fun hne => Bool.noConfusion (hz.symm.trans hne)⟩
    rw [add_zero_sum ha hb (h.trans h0)]
    obtain rfl | rfl := isZero_iff.1 hz <;> split <;> decide
  · have hsum : add nan a b = c := by
      have hs : decide (units c < 0) = sign c := by
        have := natAbs_units c
        unfold units at *
        cases hsg : sign c <;> simp [hsg] at *; omega
      rw [add_finite ha hb, h, if_neg h0, hs, natAbs_units, ← Nat.mul_one (unitsAbs c)]
      exact round_unitsAbs hc one_pos
    rw [hsum]
    exact ⟨(comparisons_finite hc hc).2.2.2 rfl, fun _ => rfl⟩

/-- Adding a zero to a value other than `−0` gives that value. -/
theorem add_isZero (ha : isFinite a = true) (hne : a ≠ 0x80000000) (hb : isZero b = true) : add nan a b = a := by
  have hb0 := units_eq_zero.2 hb
  cases hz : isZero a with
  | false => exact (add_eq_of_units ha (isFinite_of_isZero hb) ha (by rw [hb0, Int.add_zero])).2 hz
  | true =>
    have ha0 : a = 0x00000000 := (isZero_iff.1 hz).resolve_right hne
    rw [add_zero_sum ha (isFinite_of_isZero hb) (by rw [hb0, units_eq_zero.2 hz]; rfl), if_neg fun h => hne h.1, ha0]

/-- A value less itself is `+0`. -/
theorem sub_self_finite (ha : isFinite a = true) : sub nan a a = 0x00000000 := by
  rw [sub, add_zero_sum ha ((isFinite_neg a).trans ha) (by rw [units_neg]; omega)]
  refine if_neg fun h => ?_
  obtain ⟨rfl, h⟩ := h
  exact absurd h (by decide)

/-- A sum with a significand of 24 bits is exact. -/
theorem add_exact (ha : isFinite a = true) (hb : isFinite b = true) {j e : Nat} (hj : j ≤ 2 ^ 24) (he : e ≤ 200)
    (h : (units a + units b).natAbs = j * 2 ^ e) :
    isFinite (add nan a b) = true ∧ units (add nan a b) = units a + units b := by
  by_cases h0 : units a + units b = 0
  · rw [add_zero_sum ha hb h0, h0]
    split <;> exact ⟨by decide, by decide⟩
  · obtain ⟨hfin, habs⟩ := round_significand (decide (units a + units b < 0)) hj he
    rw [add_finite ha hb, if_neg h0, h]
    refine ⟨hfin, ?_⟩
    rw [units_round, habs, ← h]
    simp only [decide_eq_true_eq]
    split <;> omega

/-! ### Operations that stay finite -/

/-- Finite values are less than `2^277` units. -/
theorem unitsAbs_lt (ha : isFinite a = true) : unitsAbs a < 2 ^ 277 := by
  have hinf : sizeOf 0x7F800000 = 2 ^ 277 := by
    calc sizeOf (254 * 2 ^ 23 + 2 ^ 23) = 2 ^ 23 * 2 ^ 254 := sizeOf_mul (by decide) (.inr le_rfl)
      _ = 2 ^ 277 := by rw [← Nat.pow_add]
  rw [unitsAbs_eq_sizeOf, ← hinf]
  exact sizeOf_strictMono (of_decide_eq_true ha)

/-- Half of a finite value is finite. -/
theorem isFinite_mul_half (ha : isFinite a = true) : isFinite (mul nan a half) = true := by
  have hhalf : unitsAbs half = 2 ^ 148 := by decide
  rw [mul_finite ha (by decide), hhalf, isFinite_round_iff (by positivity)]
  have := unitsAbs_lt ha
  calc unitsAbs a * 2 ^ 148 < 2 ^ 277 * 2 ^ 148 := Nat.mul_lt_mul_of_pos_right this (by positivity)
    _ = 2 ^ 24 * 2 ^ 252 * 2 ^ 149 := by simp only [← Nat.pow_add]
    _ ≤ (2 ^ 25 - 1) * 2 ^ 252 * 2 ^ 149 :=
      Nat.mul_le_mul_right _ (Nat.mul_le_mul_right _ (by decide))

/-- A sum below the overflow threshold is finite. -/
theorem isFinite_add (ha : isFinite a = true) (hb : isFinite b = true)
    (h : (units a + units b).natAbs < (2 ^ 25 - 1) * 2 ^ 252) : isFinite (add nan a b) = true := by
  rw [add_finite ha hb]
  split
  · split <;> decide
  · rw [isFinite_round_iff one_pos, Nat.mul_one]
    exact h

/-! ### Values within a range -/

/-- What lies between two finite values is finite, and its units lie between theirs. -/
theorem units_of_within {lo hi : Word} (hlo : isFinite lo = true) (hhi : isFinite hi = true)
    (h : within lo a hi = true) : isFinite a = true ∧ units lo ≤ units a ∧ units a ≤ units hi := by
  obtain ⟨hl, hh⟩ := Bool.and_eq_true_iff.1 h
  obtain ⟨-, hna, hkl⟩ := le_iff.1 hl
  obtain ⟨-, -, hkh⟩ := le_iff.1 hh
  have hfin : isFinite a = true := by
    have hkey : (key a).natAbs < 0x7F800000 := by
      have := (key_of_isFinite hlo).1
      have := (key_of_isFinite hhi).2
      omega
    rw [isFinite, decide_eq_true_eq]
    unfold key at hkey
    split at hkey <;> omega
  exact ⟨hfin, (comparisons_finite hlo hfin).2.1.1 hl, (comparisons_finite hfin hhi).2.1.1 hh⟩

/-- The values of a range are the finite ones whose units lie in it. -/
theorem within_of_units {lo hi : Word} (hlo : isFinite lo = true) (ha : isFinite a = true) (hhi : isFinite hi = true)
    (hl : units lo ≤ units a) (hh : units a ≤ units hi) : within lo a hi = true :=
  Bool.and_eq_true_iff.2 ⟨(comparisons_finite hlo ha).2.1.2 hl, (comparisons_finite ha hhi).2.1.2 hh⟩

end

end Sys2Proof.Machine.F32
end

section
/-! PROOFS. Corner cases of the LFO and the biquad: equal bounds (R125), rate `+0` (R127), coefficients `+0` (R41). -/

namespace Sys2Proof.Machine

/-! ### `LFO.RANGE` between equal bounds -/

/-- A sine, moved up by one and halved, is finite. -/
theorem isFinite_unipolar_sine (d d' : Word) {p : Word} (h : F32.isFinite p = true) :
    F32.isFinite (F32.mul d' (F32.add d (F32.sin p) F32.one) F32.half) = true := by
  have hone : F32.units F32.one = 2 ^ 149 := by decide
  have hneg : F32.units F32.negOne = -2 ^ 149 := by decide
  obtain ⟨hfin, hlo, hhi⟩ := F32.units_of_within (by decide) (by decide) (F32.sin_within h)
  have hsum : (F32.units (F32.sin p) + F32.units F32.one).natAbs < (2 ^ 25 - 1) * 2 ^ 252 := by
    rw [hone] at hhi ⊢
    rw [hneg] at hlo
    omega
  exact F32.isFinite_mul_half (F32.isFinite_add hfin (by decide) hsum)

/-- Between equal bounds the width is `+0`, so the offset is a zero and the bound is what remains. -/
theorem lfoRemap_of_eq (d : Nat → Word) {p lo : Word} (hp : F32.isFinite p = true) (hlo : F32.isFinite lo = true)
    (hne : lo ≠ 0x80000000) : lfoRemap d p lo lo = lo := by
  have hoffset := F32.isZero_mul (nan := d 3) (isFinite_unipolar_sine (d 0) (d 1) hp) (b := F32.sub (d 2) lo lo)
    (by rw [F32.sub_self_finite hlo]; decide) (.inr (by rw [F32.sub_self_finite hlo]; decide))
  exact F32.add_isZero hlo hne hoffset

/-- Settles O13: the remapped sine between equal bounds is the bound. -/
theorem lfoRangeOfEqualBoundsIsTheBound : Obligations.LfoRangeOfEqualBoundsIsTheBound := by
  intro rd ra rb u s l hl hphase hlo hne heq
  rw [exec_lfoRange_of_unit hl, heq, lfoRemap_of_eq s.nan hphase hlo hne]
  rfl

/-! ### `LFO.ADV` at rate `+0` -/

section
variable {sr : Word} (d : Nat → Word) (hpos : F32.lt 0 sr = true) (hfin : F32.isFinite sr = true)
include hpos hfin

/-- A positive word has positive units. -/
theorem units_pos_of_lt : 0 < F32.units sr := by
  have h0 : F32.units 0 = 0 := by decide
  have h := (F32.comparisons_finite (by decide) hfin).1.1 hpos
  rwa [h0] at h

/-- The rate `+0` is within the range of rates of a positive `SR`. -/
theorem lfoRate_zero : lfoRate d sr F32.zero = F32.zero := by
  have hhalf := F32.isFinite_mul_half (nan := d 0) hfin
  have hsign : F32.units F32.zero ≤ F32.units (F32.mul (d 0) sr F32.half) := by
    have hs : F32.sign sr = false := by
      have hsr := units_pos_of_lt hpos hfin
      cases h : F32.sign sr with
      | false => rfl
      | true =>
        rw [F32.units, h, if_pos rfl] at hsr
        omega
    rw [F32.mul_finite hfin (by decide), F32.units_round, hs]
    exact Int.natCast_nonneg _
  exact F32.clamp_of_within (F32.within_left ((F32.comparisons_finite (by decide) hhalf).2.1.2 hsign))

/-- At rate `+0` the phase increment is a zero. -/
theorem isZero_lfoInc_zero : F32.isZero (lfoInc d sr F32.zero) = true := by
  have hsr : F32.isZero sr = false := by
    rw [Bool.eq_false_iff]
    exact fun hz => (units_pos_of_lt hpos hfin).ne' (F32.units_eq_zero.2 hz)
  have hprod : F32.isZero (F32.mul (d 1) F32.twoPi F32.zero) = true :=
    F32.isZero_mul (by decide) (by decide) (.inr (by decide))
  rw [lfoInc, lfoRate_zero d hpos hfin, F32.div_finite (F32.isFinite_of_isZero hprod) hfin, hsr,
    F32.unitsAbs_eq_zero.2 (beq_iff_eq.1 hprod), Nat.zero_mul]
  exact F32.isZero_round_zero _ _

end

/-- A value of the phase's range is below `TWO_PI`, so the conditional subtraction leaves it. -/
theorem lfoWrap_of_within (d : Nat → Word) {p : Word} (h : F32.within F32.zero p F32.phaseMax = true) :
    lfoWrap d p = p := by
  obtain ⟨hfin, -, hle⟩ := F32.units_of_within (by decide) (by decide) h
  have hlt : F32.units F32.phaseMax < F32.units F32.twoPi := by decide
  refine if_neg fun hge => ?_
  have := (F32.comparisons_finite (by decide) hfin).2.1.1 hge
  omega

/-- The safety net leaves a value of the phase's range. -/
theorem lfoNet_of_within {p : Word} (h : F32.within F32.zero p F32.phaseMax = true) : lfoNet p = p := by
  obtain ⟨hfin, hlo, hhi⟩ := F32.units_of_within (by decide) (by decide) h
  rw [lfoNet_eq, if_neg]
  rintro (hgt | hnan | hlt)
  · have := (F32.comparisons_finite (by decide) hfin).1.1 hgt
    omega
  · exact Bool.noConfusion ((F32.isNaN_of_isFinite hfin).symm.trans hnan)
  · have := (F32.comparisons_finite hfin (by decide)).1.1 hlt
    omega

/-- Settles O15: the rate is not clamped, the increment is a zero, and the phase passes the subtraction and the net. -/
theorem lfoAdvAtRateZeroChangesNothing : Obligations.LfoAdvAtRateZeroChangesNothing := by
  intro u s l hl hrate hlegal hne hpos hfin
  have hphase := (F32.units_of_within (by decide) (by decide) hlegal).1
  have hadd : F32.add (s.nan 3) l.phase (lfoInc s.nan s.sr F32.zero) = l.phase :=
    F32.add_isZero hphase hne (isZero_lfoInc_zero s.nan hpos hfin)
  have hadvance : lfoAdvance s.nan s.sr l = l.phase := by
    rw [lfoAdvance, hrate]
    exact (congrArg (fun p => lfoNet (lfoWrap s.nan p)) hadd).trans
      ((congrArg lfoNet (lfoWrap_of_within s.nan hlegal)).trans (lfoNet_of_within hlegal))
  have hclamp : lfoRateClamped s.nan s.sr l.rate = false := by
    rw [← Bool.not_eq_true, lfoRateClamped_iff, hrate]
    exact not_not.2 (lfoRate_zero s.nan hpos hfin)
  have hset : s.setLfo u.toNat l = s := by
    obtain ⟨hu, hget⟩ := List.getElem?_eq_some_iff.1 hl
    rw [State.setLfo, ← hget, List.set_getElem_self]
  rw [exec_lfoAdv_of_unit hl, hadvance, hclamp, raiseIf_false, hset]

/-! ### A biquad that has not been set -/

/-- The seven coefficients after reset. -/
def Coeffs.allZero : Coeffs := { a0 := 0, a1 := 0, a2 := 0, b0 := 0, b1 := 0, c0 := 0, d0 := 0 }

/-- With coefficients `+0` a finite input and finite cells give a recurrence of zeros. -/
theorem isZero_recurrence_allZero (d : Nat → Word) {h : Cells} {x : Word} (hx : F32.isFinite x = true)
    (hx1 : F32.isFinite h.x1 = true) (hx2 : F32.isFinite h.x2 = true) (hy1 : F32.isFinite h.y1 = true)
    (hy2 : F32.isFinite h.y2 = true) : F32.isZero (recurrence d .allZero h x) = true := by
  have hterm : ∀ {nan y : Word}, F32.isFinite y = true → F32.isZero (F32.mul nan 0 y) = true :=
    fun hy => F32.isZero_mul (by decide) hy (.inl (by decide))
  exact F32.isZero_sub (F32.isZero_sub (F32.isZero_add (F32.isZero_add (hterm hx) (hterm hx1)) (hterm hx2)) (hterm hy1))
    (hterm hy2)

/-- Settles O27: for a finite input every term is a zero; for another one the product of `d0` and the input is a NaN. -/
theorem unsetBiquadReturnsZero : Obligations.UnsetBiquadReturnsZero := by
  intro rd ra ch u s b hb hk hx1 hx2 hy1 hy2
  obtain ⟨t, ht, hread, -⟩ := exec_biqProc_reads hb rd ra ch
  refine ⟨t, ht, ?_⟩
  rw [hread, (step_spec ..).1, hk]
  refine ⟨fun hx => ?finite, fun hx => ?nonfinite⟩
  case finite =>
    have hy := isZero_recurrence_allZero s.nan hx hx1 hx2 hy1 hy2
    exact F32.isZero_add (F32.isZero_mul (by decide) (F32.isFinite_of_isZero hy) (.inl (by decide)))
      (F32.isZero_mul (by decide) hx (.inl (by decide)))
  case nonfinite =>
    have hnan := F32.isNaN_mul_of_zero (a := 0) (isNaN_nan s 10) (by decide) hx
    rw [postScale, (F32.operations_nan (.inr hnan)).1]
    exact isNaN_nan s 11

end Sys2Proof.Machine
end

section
/-! PROOFS. The delay operand (R143) and the fractional mode at an integer delay (R150). -/

namespace Sys2Proof.Machine

/-! ### The delay operand -/

/-- The part of a finite value below `2^k` units is a significand of 24 bits too. -/
theorem F32.exists_significand_mod {a : Word} (k : Nat) :
    ∃ j e, j ≤ 2 ^ 24 ∧ e ≤ k ∧ F32.unitsAbs a % 2 ^ k = j * 2 ^ e := by
  obtain ⟨e, m, -, hm, -, hsize⟩ := F32.exists_exponent (F32.mag a)
  rw [F32.unitsAbs_eq_sizeOf, hsize]
  obtain hke | hek := Nat.le_total k e
  · exact ⟨0, 0, by decide, by omega, by
      rw [Nat.zero_mul]
      exact Nat.mod_eq_zero_of_dvd (Dvd.dvd.mul_left (Nat.pow_dvd_pow 2 hke) m)⟩
  · refine ⟨m % 2 ^ (k - e), e, (Nat.mod_le _ _).trans hm.le, hek, ?_⟩
    rw [← Nat.mul_mod_mul_right, ← Nat.pow_add, Nat.sub_add_cancel hek]

section
variable {n : Nat} (hn : 1 ≤ n) (hcap : n ≤ 2 ^ 23)
include hn hcap

/-- The greatest delay is exactly `N − 1`. -/
theorem maxDelay_exact :
    F32.isFinite (maxDelay n) = true ∧ F32.units (maxDelay n) = ((n : Int) - 1) * 2 ^ 149 :=
  F32.ofInt_exact (by omega)

/-- The clamped delay is finite and between `0` and `N − 1`, whatever is requested. -/
theorem delayOf_range (req : Word) :
    F32.isFinite (delayOf n req) = true ∧ 0 ≤ F32.units (delayOf n req) ∧
      F32.units (delayOf n req) ≤ ((n : Int) - 1) * 2 ^ 149 := by
  obtain ⟨hfin, hmax⟩ := maxDelay_exact hn hcap
  have hle : F32.le F32.zero (maxDelay n) = true := by
    refine (F32.comparisons_finite (by decide) hfin).2.1.2 ?_
    have h0 : F32.units F32.zero = 0 := by decide
    rw [hmax, h0]
    omega
  obtain ⟨hd, hlo, hhi⟩ := F32.units_of_within (by decide) hfin (F32.clamp_within hle req)
  exact ⟨hd, hlo, hhi.trans hmax.le⟩

/-- The whole delay is within `0 .. N − 1`. -/
theorem delayWhole_range (req : Word) : 0 ≤ delayWhole n req ∧ delayWhole n req ≤ (n : Int) - 1 := by
  obtain ⟨-, hlo, hhi⟩ := delayOf_range hn hcap req
  rw [delayWhole, F32.floor]
  omega

/-- The fractional delay is the exact difference of the delay and its whole part: the bits it keeps fit in a significand. -/
theorem delayFrac_exact (nan req : Word) :
    F32.isFinite (delayFrac nan n req) = true ∧
      F32.units (delayFrac nan n req) = F32.units (delayOf n req) - delayWhole n req * 2 ^ 149 := by
  obtain ⟨hd, hlo, -⟩ := delayOf_range hn hcap req
  have hwhole := delayWhole_range hn hcap req
  obtain ⟨hfin, hunits⟩ := F32.ofInt_exact (n := delayWhole n req) (by omega)
  obtain ⟨j, e, hj, he, hmod⟩ := F32.exists_significand_mod (a := delayOf n req) 149
  have hdiff : (F32.units (delayOf n req) + F32.units (F32.neg (F32.ofInt (delayWhole n req)))).natAbs = j * 2 ^ e := by
    rw [← hmod, ← F32.natAbs_units, F32.units_neg, hunits, delayWhole, F32.floor]
    omega
  obtain ⟨hfrac, hsum⟩ := F32.add_exact (nan := nan) hd ((F32.isFinite_neg _).trans hfin) hj (he.trans (by decide)) hdiff
  refine ⟨hfrac, hsum.trans ?_⟩
  rw [F32.units_neg, hunits, Int.sub_eq_add_neg]

end

/-- Settles O20: the whole delay is the floor of a value in `[0, N − 1]`, the fractional delay the exact rest. -/
theorem delayOperandIsInRangeAndSplitExactly : Obligations.DelayOperandIsInRangeAndSplitExactly := by
  intro n req nan hn hcap
  obtain ⟨hlo, hhi⟩ := delayWhole_range hn hcap req
  obtain ⟨hfin, hfrac⟩ := delayFrac_exact hn hcap nan req
  refine ⟨hlo, hhi, hfin, hfrac, ?_⟩
  rw [hfrac, delayWhole, F32.floor]
  omega

/-! ### The fractional mode at an integer delay -/

/-- A blend with weight `+0` of the upper tap is the lower tap, but for the sign of a zero. -/
theorem blend_zero (d : Nat → Word) {x0 x1 : Word} (h0 : F32.isFinite x0 = true) (h1 : F32.isFinite x1 = true) :
    F32.eq (blend d F32.zero x0 x1) x0 = true ∧ (F32.isZero x0 = false → blend d F32.zero x0 x1 = x0) := by
  have hweight : F32.sub (d 2) F32.one F32.zero = F32.one := F32.add_isZero (by decide) (by decide) (by decide)
  have hzero : F32.isZero (F32.mul (d 4) F32.zero x1) = true := F32.isZero_mul (by decide) h1 (.inl (by decide))
  rw [blend, hweight, F32.one_mul_finite h0]
  refine F32.add_eq_of_units h0 (F32.isFinite_of_isZero hzero) h0 ?_
  rw [F32.units_eq_zero.2 hzero, Int.add_zero]

/-- With fractional delay zero the fractional mode reads the tap `(w − di) mod N` with weight `1` and its neighbour with
weight `+0`. -/
theorem procf_of_integer_delay (d : Nat → Word) (l : DlyUnit) (x req : Word)
    (h : F32.eq (delayFrac (d 0) l.n req) F32.zero = true) :
    l.procf d x req = blend d F32.zero
      ((l.x.write l.next x).read (slot l.n ((l.next : Int) - delayWhole l.n req)))
      ((l.x.write l.next x).read ((slot l.n ((l.next : Int) - delayWhole l.n req) + 1) % l.n)) := by
  rw [procf_eq_blend_push d l x req 0, fracWeight, DlyUnit.tapFrac, if_pos h, if_pos h]
  rfl

/-- Settles O21: the fractional delay is a zero, so the blend has weight `+0` of the upper tap. -/
theorem integerDelayIsNotSmeared : Obligations.IntegerDelayIsNotSmeared := by
  intro rd ra rb u s l hl hs hlegal hparams hint x' i0 h0 h1
  have hn := (DlyUnit.histories_of_legal hlegal hs).1
  have hcap : l.n ≤ 2 ^ 23 := by
    simp only [DlyUnit.legal, Bool.and_eq_true, decide_eq_true_eq] at hlegal
    omega
  have hfrac : F32.eq (delayFrac (s.nan 0) l.n (s.readV rb)) F32.zero = true := by
    obtain ⟨hfin, hunits⟩ := delayFrac_exact hn hcap (s.nan 0) (s.readV rb)
    refine (F32.comparisons_finite hfin (by decide)).2.2.2 ?_
    rw [hunits, hint, Int.sub_self]
    decide
  have hnext : l.next = (l.w + 1) % l.n := slot_succ l.n l.w
  have hout : l.procf s.nan (s.readV ra) (s.readV rb) = blend s.nan F32.zero (x'.read i0) (x'.read ((i0 + 1) % l.n)) := by
    rw [procf_of_integer_delay _ _ _ _ hfrac, hnext]
    rfl
  refine ⟨_, exec_dlyProcf_of_sized hl hs rd ra rb, ?_⟩
  rw [sizedLine, raiseIf_readV, readV_writeV_same, hout]
  exact blend_zero s.nan h0 h1

end Sys2Proof.Machine
end

section
/-! PROOFS. The mid and side commands at gains of `0` and `1` (R230). -/

namespace Sys2Proof.Machine

namespace F32
variable {nan a b : Word}

/-- The product of finite values does not depend on their order. -/
theorem mul_comm_finite (ha : isFinite a = true) (hb : isFinite b = true) : mul nan a b = mul nan b a := by
  rw [mul_finite ha hb, mul_finite hb ha, bne_comm, Nat.mul_comm]

/-- A finite value times `1` is that value. -/
theorem mul_one_finite (ha : isFinite a = true) : mul nan a one = a :=
  (mul_comm_finite ha (by decide)).trans (one_mul_finite ha)

/-- A sum of finite values does not depend on the drawn NaN. -/
theorem add_congr_nan (nan' : Word) (ha : isFinite a = true) (hb : isFinite b = true) : add nan a b = add nan' a b := by
  rw [add_finite ha hb, add_finite ha hb]

/-- Half a finite value does not depend on the drawn NaN. -/
theorem div_two_congr_nan (nan' : Word) (ha : isFinite a = true) : div nan a two = div nan' a two := by
  have h2 : isZero two = false := by decide
  rw [div_finite ha (by decide), div_finite ha (by decide), h2]
  rfl

theorem not_isFinite_of_isNaN (h : isNaN a = true) : isFinite a ≠ true := fun hf =>
  Bool.noConfusion (h.symm.trans (isNaN_of_isFinite hf))

theorem not_isFinite_of_isInf (h : isInf a = true) : isFinite a ≠ true := fun hf =>
  Bool.noConfusion (h.symm.trans (isInf_of_isFinite hf))

section
variable (hnan : isNaN nan = true)
include hnan

/-- The summands of a finite sum are finite. -/
theorem isFinite_of_add (h : isFinite (add nan a b) = true) : isFinite a = true ∧ isFinite b = true := by
  by_contra hne
  refine absurd h ?_
  by_cases hn : isNaN a = true ∨ isNaN b = true
  · rw [(operations_nan hn).1]
    exact not_isFinite_of_isNaN hnan
  · obtain ⟨hna, hnb⟩ := not_or.1 hn
    by_cases ha : isFinite a = true <;> by_cases hb : isFinite b = true
    · exact absurd ⟨ha, hb⟩ hne
    · have hib := (isNaN_or_isInf_of_not_finite hb).resolve_left hnb
      rwa [(operations_finite_infinity ha hib).1]
    · have hia := (isNaN_or_isInf_of_not_finite ha).resolve_left hna
      rwa [(operations_infinity_finite hia hb).1]
    · have hia := (isNaN_or_isInf_of_not_finite ha).resolve_left hna
      have hib := (isNaN_or_isInf_of_not_finite hb).resolve_left hnb
      rw [(operations_infinities hia hib).1]
      split
      · exact ha
      · exact not_isFinite_of_isNaN hnan

/-- What has a finite half is finite. -/
theorem isFinite_of_div_two (h : isFinite (div nan a two) = true) : isFinite a = true := by
  by_contra hne
  refine absurd h ?_
  obtain hna | hia := isNaN_or_isInf_of_not_finite hne
  · rw [(operations_nan (.inl hna)).2.2.2]
    exact not_isFinite_of_isNaN hnan
  · rw [(operations_infinity_finite hia (by decide)).2.2.2]
    split <;> decide

end

/-! ### The two outputs at gains of `0` and `1` -/

variable {m p : Word} (d : Nat → Word) (hm : isFinite m = true) (hp : isFinite p = true)
include hm hp

/-- With gains `1` and `0` both outputs are `mid`, but for the sign of a zero. -/
theorem outputs_gains_one_zero :
    (eq (add (d 6) (mul (d 4) m one) (mul (d 5) p 0)) m = true ∧
      eq (sub (d 6) (mul (d 4) m one) (mul (d 5) p 0)) m = true) ∧
      (isZero m = false → add (d 6) (mul (d 4) m one) (mul (d 5) p 0) = m ∧
        sub (d 6) (mul (d 4) m one) (mul (d 5) p 0) = m) := by
  have hz : isZero (mul (d 5) p 0) = true := isZero_mul hp (by decide) (.inr (by decide))
  have hadd : ∀ z, isZero z = true → eq (add (d 6) m z) m = true ∧ (isZero m = false → add (d 6) m z = m) :=
    fun z hz => add_eq_of_units hm (isFinite_of_isZero hz) hm (by rw [units_eq_zero.2 hz, Int.add_zero])
  rw [mul_one_finite hm, sub]
  obtain ⟨hl, hl'⟩ := hadd _ hz
  obtain ⟨hr, hr'⟩ := hadd _ ((isZero_neg _).trans hz)
  exact ⟨⟨hl, hr⟩, fun h => ⟨hl' h, hr' h⟩⟩

/-- With gains `0` and `1` the outputs are `side` and its negative, but for the sign of a zero. -/
theorem outputs_gains_zero_one :
    (eq (add (d 6) (mul (d 4) m 0) (mul (d 5) p one)) p = true ∧
      eq (sub (d 6) (mul (d 4) m 0) (mul (d 5) p one)) (neg p) = true) ∧
      (isZero p = false → add (d 6) (mul (d 4) m 0) (mul (d 5) p one) = p ∧
        sub (d 6) (mul (d 4) m 0) (mul (d 5) p one) = neg p) := by
  have hz : isZero (mul (d 4) m 0) = true := isZero_mul hm (by decide) (.inr (by decide))
  have hadd : ∀ q, isFinite q = true → eq (add (d 6) (mul (d 4) m 0) q) q = true ∧
      (isZero q = false → add (d 6) (mul (d 4) m 0) q = q) :=
    fun q hq => add_eq_of_units (isFinite_of_isZero hz) hq hq (by rw [units_eq_zero.2 hz, Int.zero_add])
  rw [mul_one_finite hp, sub]
  obtain ⟨hl, hl'⟩ := hadd p hp
  obtain ⟨hr, hr'⟩ := hadd (neg p) ((isFinite_neg p).trans hp)
  exact ⟨⟨hl, hr⟩, fun h => ⟨hl' h, hr' ((isZero_neg p).trans h)⟩⟩

/-- With gains `1` the outputs are the values whose exact mid and side these are, but for the sign of a zero. -/
theorem outputs_gains_one (ha : isFinite a = true) (hb : isFinite b = true) (hmid : 2 * units m = units a + units b)
    (hside : 2 * units p = units a - units b) :
    (eq (add (d 6) (mul (d 4) m one) (mul (d 5) p one)) a = true ∧
      eq (sub (d 6) (mul (d 4) m one) (mul (d 5) p one)) b = true) ∧
      (isZero a = false → add (d 6) (mul (d 4) m one) (mul (d 5) p one) = a) ∧
      (isZero b = false → sub (d 6) (mul (d 4) m one) (mul (d 5) p one) = b) := by
  rw [mul_one_finite hm, mul_one_finite hp, sub]
  obtain ⟨hl, hl'⟩ := add_eq_of_units (nan := d 6) hm hp ha (by omega)
  obtain ⟨hr, hr'⟩ := add_eq_of_units (nan := d 6) hm ((isFinite_neg p).trans hp) hb (by rw [units_neg]; omega)
  exact ⟨⟨hl, hr⟩, hl', hr'⟩

end F32

/-! ### The statement -/

/-- Settles O36: a finite mid and side come from finite operands and do not depend on the drawn NaN, so the outputs are sums
of products with `0` and `1`. -/
theorem midSideRoundTrip : Obligations.MidSideRoundTrip := by
  intro rd ra rb s nan mid side hnan hmid hside
  have hsum := F32.isFinite_of_div_two hnan hmid
  have hdiff := F32.isFinite_of_div_two hnan hside
  obtain ⟨ha, hb⟩ := F32.isFinite_of_add hnan hsum
  have hb' := (F32.isFinite_neg _).trans hb
  have hmidOf : midOf s.nan (s.readV ra) (s.readV rb) = mid := by
    rw [midOf, F32.add_congr_nan nan ha hb, F32.div_two_congr_nan nan hsum]
    rfl
  have hsideOf : sideOf s.nan (s.readV ra) (s.readV rb) = side := by
    rw [sideOf, F32.sub, F32.add_congr_nan nan ha hb']
    exact F32.div_two_congr_nan nan hdiff
  have hl : exec (.msL rd ra rb) s = .next (s.writeV rd
      (F32.add (s.nan 6) (F32.mul (s.nan 4) mid s.msMid) (F32.mul (s.nan 5) side s.msSide))) := by
    rw [← hmidOf, ← hsideOf]
    rfl
  have hr : exec (.msR rd ra rb) s = .next (s.writeV rd
      (F32.sub (s.nan 6) (F32.mul (s.nan 4) mid s.msMid) (F32.mul (s.nan 5) side s.msSide))) := by
    rw [← hmidOf, ← hsideOf]
    rfl
  refine ⟨fun hgm hgs => ⟨_, _, hl, hr, ?mid⟩, fun hgm hgs => ⟨_, _, hl, hr, ?side⟩,
    fun hgm hgs hexact hexact' => ⟨_, _, hl, hr, ?both⟩⟩ <;> rw [hgm, hgs, ← and_assoc]
  case mid => exact F32.outputs_gains_one_zero s.nan hmid hside
  case side => exact F32.outputs_gains_zero_one s.nan hmid hside
  case both => exact F32.outputs_gains_one s.nan hmid hside ha hb hexact hexact'

end Sys2Proof.Machine
end

section
/-! PROOFS. The testable properties of the coefficient function (R187, R206): every other `Coef` is held to them, the
reference meets them at the arguments of T3.6. -/

namespace Sys2Proof.Machine

/-! ### What holding a set to the properties says, topology by topology -/

/-- Every other `Coef` meets the properties at all arguments. -/
theorem coef_other_meets (n : Nat) (t : BiquadType) (fc q g fs : Word) :
    meetsProperties t fc (qOrBandwidth (coefNan t fc q g fs) t fc q) fs (coef (.other n) t fc q g fs) = true :=
  holdToProperties_meets ..

section
variable {fc q fs : Word} {k : Coeffs}

theorem meets_lp1 : meetsProperties .lp1 fc q fs k = true ↔ (farAbove fc fs = true → passesThrough k = true) := by
  cases h : farAbove fc fs <;> simp [meetsProperties, h]

theorem meets_lp2 : meetsProperties .lp2 fc q fs k = true ↔
    (farAbove fc fs = true → qWithin 1000 q = true → passesThrough k = true) ∧
      (scenarioArgs .lp2 fc q fs = true → meetsScenario k = true) := by
  cases h : farAbove fc fs <;> cases h' : qWithin 1000 q <;> cases h'' : scenarioArgs .lp2 fc q fs <;>
    simp [meetsProperties, h, h', h'']

theorem meets_notch : meetsProperties .notch fc q fs k = true ↔ (notchArgs fc q fs = true → notches fc fs k = true) := by
  cases h : notchArgs fc q fs <;> simp [meetsProperties, h]

theorem meets_ap2 : meetsProperties .ap2 fc q fs k = true ↔
    (belowNyquist fc fs = true → keepsMagnitude fc fs k = true) ∧
      (allpassArgs fc q fs = true → altersPhase k = true) := by
  cases h : belowNyquist fc fs <;> cases h' : allpassArgs fc q fs <;> simp [meetsProperties, h, h']

/-! ### The arguments at which they are asked -/

theorem qWithin_iff {hi : Int} : qWithin hi q = true ↔
    F32.isFinite q = true ∧ 2 ^ 149 ≤ 2 * F32.units q ∧ F32.units q ≤ hi * 2 ^ 149 := by
  rw [qWithin, Bool.and_eq_true, decide_eq_true_eq]
  rfl

section
variable (hfc : F32.isFinite fc = true) (hfs : F32.isFinite fs = true) (hfc0 : 0 < F32.units fc) (hfs0 : 0 < F32.units fs)
include hfc hfs hfc0 hfs0

theorem ratioWithin_of {lo hi : Int} (hlo : F32.units fs ≤ lo * F32.units fc)
    (hhi : 100 * F32.units fc ≤ hi * F32.units fs) : ratioWithin lo hi fc fs = true := by
  simp only [ratioWithin, hfc, hfs, Bool.and_self, Bool.true_and, decide_eq_true_eq]
  exact ⟨hfc0, hfs0, hlo, hhi⟩

theorem farAbove_of (hlo : 2 * F32.units fs ≤ 5 * F32.units fc) (hhi : 25 * F32.units fc ≤ 12 * F32.units fs) :
    farAbove fc fs = true :=
  Bool.and_eq_true_iff.2 ⟨ratioWithin_of hfc hfs hfc0 hfs0 (by omega) (by omega), decide_eq_true hlo⟩

omit hfs0 in
theorem belowNyquist_of (hhi : 2 * F32.units fc < F32.units fs) : belowNyquist fc fs = true := by
  simp only [belowNyquist, hfc, hfs, Bool.and_self, Bool.true_and, decide_eq_true_eq]
  exact ⟨hfc0, hhi⟩

theorem allpassArgs_of {bw : Word} (hlo : F32.units fs ≤ 1000 * F32.units fc)
    (hhi : 25 * F32.units fc ≤ 12 * F32.units fs) (hbw : F32.isFinite bw = true)
    (hbwlo : F32.units fc ≤ 1001 * F32.units bw) (hbwhi : F32.units bw ≤ F32.units fc) :
    allpassArgs fc bw fs = true := by
  simp only [allpassArgs, ratioWithin_of hfc hfs hfc0 hfs0 hlo (hi := 48) (by omega), hbw, Bool.and_self, Bool.true_and,
    decide_eq_true_eq]
  exact ⟨hbwlo, hbwhi⟩

end

end

/-- An allpass that alters the phase is stable and not the identity. -/
theorem altersPhase_iff {k : Coeffs} : altersPhase k = true ↔ settles k = true ∧ forward k ≠ feedback k := by
  rw [altersPhase, Bool.and_eq_true, bne_iff_ne]

/-! ### The reference at the arguments of T3.6 -/

section
variable {a b : Word} (ha : F32.isFinite a = true) (hb : F32.isFinite b = true) (e : Nat → Word) (k : Nat)
include ha hb

/-! An operation on finite operands draws no NaN: the one of its site may be any word. -/

theorem F32.add_site : F32.add (e k) a b = F32.add 0 a b := F32.add_congr_nan 0 ha hb

theorem F32.sub_site : F32.sub (e k) a b = F32.sub 0 a b := F32.add_congr_nan 0 ha ((F32.isFinite_neg b).trans hb)

theorem F32.mul_site : F32.mul (e k) a b = F32.mul 0 a b := by rw [F32.mul_finite ha hb, F32.mul_finite ha hb]

theorem F32.div_site (hz : F32.isZero b = false) : F32.div (e k) a b = F32.div 0 a b := by
  rw [F32.div_finite ha hb, F32.div_finite ha hb, hz]
  rfl

end

section
variable {f : Trig} (e : Nat → Word) (g : Word)

/-- The angle of T3.6. -/
theorem theta_row : theta e 0x447A0000 0x472C4400 = 0x3E11E531 := by
  simp (disch := decide +kernel) only [theta, F32.mul_site, F32.div_site]
  decide +kernel

/-- The `LP2` row of T3.6. -/
theorem coefRef_lp2_row (hsin : f.sin 0x3E11E531 = 0x3E1166F5) (hcos : f.cos 0x3E11E531 = 0x3F7D67F4) :
    coefRef f e .lp2 0x447A0000 0x3F34FDF4 g 0x472C4400 =
      ⟨0x3B96DCC0, 0x3C16DCC0, 0x3B96DCC0, 0xBFE647FA, 0x3F5146DA, 0x3F800000, 0⟩ := by
  simp only [coefRef, coefLp2, secondB0, secondB1, secondGa, secondBe, secondS, ratio, theta_row, hsin, hcos]
  simp (disch := decide +kernel) only [F32.add_site, F32.sub_site, F32.mul_site, F32.div_site]
  decide +kernel

/-- `K` of T3.6. -/
theorem tanPi_row (htan : f.tan 0x3D91E531 = 0x3D922480) : tanPi f e 0x447A0000 0x472C4400 = 0x3D922480 := by
  have harg : F32.div (e 3) (F32.mul (e 2) F32.pi 0x447A0000) 0x472C4400 = 0x3D91E531 := by
    simp (disch := decide +kernel) only [F32.mul_site, F32.div_site]
    decide +kernel
  rw [tanPi, harg, htan]

/-- The `NOTCH` row of T3.6. -/
theorem coefRef_notch_row (htan : f.tan 0x3D91E531 = 0x3D922480) :
    coefRef f e .notch 0x447A0000 0x3F34FDF4 g 0x472C4400 =
      ⟨0x3F68A36C, 0xBFE647F9, 0x3F68A36C, 0xBFE647F9, 0x3F5146DA, 0x3F800000, 0⟩ := by
  simp only [coefRef, coefNotch, bandMid, bandB1, bandDe, sq, tanPi_row e htan]
  simp (disch := decide +kernel) only [F32.add_site, F32.sub_site, F32.mul_site, F32.div_site]
  decide +kernel

end

/-- A set whose feed-forward coefficients are the mirror image of its feedback has the same power in both. -/
theorem power_mirror {k : Coeffs} (h0 : k.a0 = k.b1) (h1 : k.a1 = k.b0) (h2 : k.a2 = F32.one) (w : Cosine) :
    power (forward k) w = power (feedback k) w := by
  have hone : F32.units F32.one = oneUnits := by decide
  simp only [power, forward, feedback, h0, h1, h2, hone]
  ring

/-- Settles O59: every other `Coef` is held to the properties; the reference gives the rows of T3.6, whose properties are
evaluated; its `AP2` is a mirror image by its definition. -/
theorem everyOtherCoefMeetsTheTestableProperties : Obligations.EveryOtherCoefMeetsTheTestableProperties := by
  refine ⟨fun n fc q g fs hfc hfs hfc0 hfs0 => ⟨fun hlo hhi => ?lowpass, ?scenario, fun hlo hhi hq hq0 hq1 => ?notch,
    fun hhi => ?allpass⟩, fun t fc q fs k => holdToProperties_self, fun f e g hsin hcos htan => ?rows,
    fun fc q g fs => ?mirror⟩
  case lowpass =>
    have hfar := farAbove_of hfc hfs hfc0 hfs0 hlo hhi
    exact ⟨meets_lp1.1 (coef_other_meets n .lp1 fc q g fs) hfar,
      fun hq hq0 hq1 => (meets_lp2.1 (coef_other_meets n .lp2 fc q g fs)).1 hfar (qWithin_iff.2 ⟨hq, hq0, hq1⟩)⟩
  case scenario => exact (meets_lp2.1 (coef_other_meets n .lp2 0x447A0000 0x3F34FDF4 g 0x472C4400)).2 rfl
  case notch =>
    exact meets_notch.1 (coef_other_meets n .notch fc q g fs) (Bool.and_eq_true_iff.2
      ⟨ratioWithin_of hfc hfs hfc0 hfs0 hlo (by omega), qWithin_iff.2 ⟨hq, hq0, hq1⟩⟩)
  case allpass =>
    obtain ⟨hkeeps, halters⟩ := meets_ap2.1 (coef_other_meets n .ap2 fc q g fs)
    exact ⟨coefNan .ap2 fc q g fs 5, F32.isNaN_nanOf _, hkeeps (belowNyquist_of hfc hfs hfc0 hhi),
      fun hlo hhi hbw hbw0 hbw1 =>
        altersPhase_iff.1 (halters (allpassArgs_of hfc hfs hfc0 hfs0 hlo hhi hbw hbw0 hbw1))⟩
  case rows =>
    rw [coefRef_lp2_row e g hsin hcos, coefRef_notch_row e g htan]
    exact ⟨by decide +kernel, by decide +kernel⟩
  case mirror => exact ⟨rfl, rfl, rfl, power_mirror rfl rfl rfl⟩

end Sys2Proof.Machine
end

section
/-! PROOFS. The weights of the recurrence (R182): one in one place and zeros elsewhere give the coefficient of that place. -/

namespace Sys2Proof.Machine

/-- The word is finite and has this value, in units of 2^-149; the sign of a zero is left open. -/
def F32.HasUnits (w : Word) (v : Int) : Prop := F32.isFinite w = true ∧ F32.units w = v

namespace F32.HasUnits
variable {nan a b : Word} {v : Int}

theorem isZero (h : HasUnits a 0) : F32.isZero a = true := F32.units_eq_zero.1 h.2

theorem of_isZero (h : F32.isZero a = true) : HasUnits a 0 := ⟨F32.isFinite_of_isZero h, F32.units_eq_zero.2 h⟩

theorem neg (h : HasUnits a v) : HasUnits (F32.neg a) (-v) :=
  ⟨(F32.isFinite_neg a).trans h.1, (F32.units_neg a).trans (congrArg _ h.2)⟩

/-- The product with `1` has the value of the other factor. -/
theorem mul_one (h : F32.isFinite a = true) : HasUnits (F32.mul nan a F32.one) (F32.units a) := by
  rw [F32.mul_one_finite h]
  exact ⟨h, rfl⟩

/-- The product with `+0` is a zero. -/
theorem mul_zero (h : F32.isFinite a = true) : HasUnits (F32.mul nan a 0) 0 :=
  of_isZero (F32.isZero_mul h (by decide) (.inr (by decide)))

theorem add_zero (ha : HasUnits a v) (hb : HasUnits b 0) : HasUnits (F32.add nan a b) v := by
  obtain ⟨hfin, hv⟩ := ha
  cases hz : F32.isZero a with
  | true =>
    rw [← hv, F32.units_eq_zero.2 hz]
    exact of_isZero (F32.isZero_add hz hb.isZero)
  | false =>
    rw [(F32.add_eq_of_units hfin hb.1 hfin (by rw [hb.2, Int.add_zero])).2 hz]
    exact ⟨hfin, hv⟩

theorem zero_add (ha : HasUnits a 0) (hb : HasUnits b v) : HasUnits (F32.add nan a b) v := by
  obtain ⟨hfin, hv⟩ := hb
  cases hz : F32.isZero b with
  | true =>
    rw [← hv, F32.units_eq_zero.2 hz]
    exact of_isZero (F32.isZero_add ha.isZero hz)
  | false =>
    rw [(F32.add_eq_of_units ha.1 hfin hfin (by rw [ha.2, Int.zero_add])).2 hz]
    exact ⟨hfin, hv⟩

theorem sub_zero (ha : HasUnits a v) (hb : HasUnits b 0) : HasUnits (F32.sub nan a b) v := ha.add_zero hb.neg

theorem zero_sub (ha : HasUnits a 0) (hb : HasUnits b v) : HasUnits (F32.sub nan a b) (-v) := ha.zero_add hb.neg

end F32.HasUnits

theorem finiteSet_iff {k : Coeffs} : finiteSet k = true ↔ F32.isFinite k.a0 = true ∧ F32.isFinite k.a1 = true ∧
    F32.isFinite k.a2 = true ∧ F32.isFinite k.b0 = true ∧ F32.isFinite k.b1 = true := by
  simp only [finiteSet, Bool.and_eq_true, and_assoc]

section
variable {k : Coeffs} (d : Nat → Word) (hk : finiteSet k = true)
include hk

/-- The weights of the input and of the two past inputs. -/
theorem recurrence_forward_weights :
    F32.units (recurrence d k ⟨0, 0, 0, 0⟩ F32.one) = F32.units k.a0 ∧
    F32.units (recurrence d k ⟨F32.one, 0, 0, 0⟩ 0) = F32.units k.a1 ∧
    F32.units (recurrence d k ⟨0, F32.one, 0, 0⟩ 0) = F32.units k.a2 := by
  obtain ⟨ha0, ha1, ha2, hb0, hb1⟩ := finiteSet_iff.1 hk
  refine ⟨((?_ : F32.HasUnits _ _).sub_zero (.mul_zero hb0) |>.sub_zero (.mul_zero hb1)).2,
    ((?_ : F32.HasUnits _ _).sub_zero (.mul_zero hb0) |>.sub_zero (.mul_zero hb1)).2,
    ((?_ : F32.HasUnits _ _).sub_zero (.mul_zero hb0) |>.sub_zero (.mul_zero hb1)).2⟩
  · exact ((F32.HasUnits.mul_one ha0).add_zero (.mul_zero ha1)).add_zero (.mul_zero ha2)
  · exact ((F32.HasUnits.mul_zero ha0).zero_add (.mul_one ha1)).add_zero (.mul_zero ha2)
  · exact ((F32.HasUnits.mul_zero ha0).add_zero (.mul_zero ha1)).zero_add (.mul_one ha2)

/-- The weights of the two past outputs, which are subtracted. -/
theorem recurrence_feedback_weights :
    F32.units (recurrence d k ⟨0, 0, F32.one, 0⟩ 0) = -F32.units k.b0 ∧
    F32.units (recurrence d k ⟨0, 0, 0, F32.one⟩ 0) = -F32.units k.b1 := by
  obtain ⟨ha0, ha1, ha2, hb0, hb1⟩ := finiteSet_iff.1 hk
  have hinput : ∀ {n0 n1 n2 n3 n4}, F32.HasUnits
      (F32.add n4 (F32.add n2 (F32.mul n0 k.a0 0) (F32.mul n1 k.a1 0)) (F32.mul n3 k.a2 0)) 0 :=
    ((F32.HasUnits.mul_zero ha0).add_zero (.mul_zero ha1)).add_zero (.mul_zero ha2)
  exact ⟨((hinput.zero_sub (.mul_one hb0)).sub_zero (.mul_zero hb1)).2,
    ((hinput.sub_zero (.mul_zero hb0)).zero_sub (.mul_one hb1)).2⟩

end

end Sys2Proof.Machine
end

section
/-! PROOFS. The integers of the testable properties as a frequency response (R187, R206): a polynomial at `exp(−iθ)`, its
power, the phase between two polynomials, the doubled angle and the comparison of magnitudes. -/

namespace Sys2Proof.Machine

open Complex in
/-- A polynomial at `z⁻¹ = exp(−iθ)`. -/
noncomputable def Poly.at (p : Poly) (θ : ℝ) : ℂ :=
  p.p0 + p.p1 * exp (-(θ * I)) + p.p2 * exp (-(θ * I)) ^ 2

/-! ### The settled output of an exponential -/

/-- One sample back multiplies an exponential by `exp(−iθ)`. -/
theorem exp_sample_pred (θ : ℝ) (m : ℤ) :
    Complex.exp (θ * (m - 1 : ℤ) * Complex.I) =
      Complex.exp (-(θ * Complex.I)) * Complex.exp (θ * m * Complex.I) := by
  rw [← Complex.exp_add]
  push_cast
  ring_nf

/-- Two samples back. -/
theorem exp_sample_pred_pred (θ : ℝ) (m : ℤ) :
    Complex.exp (θ * (m - 2 : ℤ) * Complex.I) =
      Complex.exp (-(θ * Complex.I)) ^ 2 * Complex.exp (θ * m * Complex.I) := by
  rw [show m - 2 = m - 1 - 1 by omega, exp_sample_pred, exp_sample_pred, ← mul_assoc, ← pow_two]

/-- An exponential input and `H` times it solve the recurrence when `H · q = p` at `exp(−iθ)`. -/
theorem exponential_solves {p q : Poly} {θ : ℝ} {H : ℂ} (h : H * q.at θ = p.at θ) (m : ℤ) :
    let x := fun m : ℤ => Complex.exp (θ * m * Complex.I)
    let y := fun m : ℤ => H * x m
    q.p0 * y m = p.p0 * x m + p.p1 * x (m - 1) + p.p2 * x (m - 2) - q.p1 * y (m - 1) - q.p2 * y (m - 2) := by
  intro x y
  simp only [x, y, exp_sample_pred, exp_sample_pred_pred]
  rw [Poly.at, Poly.at] at h
  linear_combination Complex.exp (θ * m * Complex.I) * h

/-! ### Power and phase -/

section
variable (p q : Poly) (θ : ℝ)

theorem Poly.at_re : (p.at θ).re = p.p0 + p.p1 * Real.cos θ + p.p2 * (Real.cos θ ^ 2 - Real.sin θ ^ 2) := by
  simp [Poly.at, pow_two, Complex.exp_re, Complex.exp_im]

theorem Poly.at_im : (p.at θ).im = -(p.p1 * Real.sin θ + p.p2 * (2 * Real.sin θ * Real.cos θ)) := by
  simp [Poly.at, pow_two, Complex.exp_re, Complex.exp_im]
  ring

variable {w : Cosine} {θ} (hd : w.d ≠ 0) (hcos : Real.cos θ = w.n / w.d)
include hd hcos

theorem Cosine.n_eq : (w.n : ℝ) = Real.cos θ * w.d := by
  rw [hcos, div_mul_cancel₀ _ (Int.cast_ne_zero.2 hd)]

/-- `power` is the squared magnitude, scaled. -/
theorem power_eq_normSq : (power p w : ℝ) = (w.d : ℝ) ^ 2 * Complex.normSq (p.at θ) := by
  have hn := Cosine.n_eq hd hcos
  have hsq := Real.sin_sq_add_cos_sq θ
  rw [Complex.normSq_apply, p.at_re, p.at_im, power]
  push_cast
  rw [hn]
  linear_combination -(w.d : ℝ) ^ 2 * (p.p1 ^ 2 + p.p2 ^ 2 * (1 + (Real.sin θ ^ 2 + Real.cos θ ^ 2)) +
    2 * p.p1 * p.p2 * Real.cos θ - 2 * p.p0 * p.p2) * hsq

/-- `quadrature` is the imaginary part of the quotient's numerator, scaled. -/
theorem quadrature_mul_sin :
    (quadrature p q w : ℝ) * Real.sin θ = w.d * (p.at θ * (starRingEnd ℂ) (q.at θ)).im := by
  have hn := Cosine.n_eq hd hcos
  have hsq := Real.sin_sq_add_cos_sq θ
  rw [Complex.mul_im, Complex.conj_re, Complex.conj_im, p.at_re, p.at_im, q.at_re, q.at_im, quadrature]
  push_cast
  rw [hn]
  linear_combination -(w.d : ℝ) * Real.sin θ * (p.p1 * q.p2 - p.p2 * q.p1) * hsq

/-- `doubled` is the cosine of the doubled angle. -/
theorem cos_two_mul_eq_doubled : Real.cos (2 * θ) = (doubled w).n / (doubled w).d := by
  have hd' : (w.d : ℝ) ≠ 0 := Int.cast_ne_zero.2 hd
  rw [Real.cos_two_mul, hcos, doubled]
  push_cast
  field_simp

end

/-! ### The comparison of magnitudes -/

/-- The test on squares, over the magnitudes themselves. -/
theorem magnitudesAgree_iff {p q : Poly} {w : Cosine} {θ : ℝ} (hd : w.d ≠ 0) (hcos : Real.cos θ = w.n / w.d) :
    magnitudesAgree p q w = true ↔
      2 ^ 36 * (‖p.at θ‖ ^ 2 - ‖q.at θ‖ ^ 2) ^ 2 ≤ 2 * (oneUnits : ℝ) ^ 2 * (‖p.at θ‖ ^ 2 + ‖q.at θ‖ ^ 2) := by
  have hd4 : 0 < (w.d : ℝ) ^ 4 := by positivity
  rw [magnitudesAgree, decide_eq_true_eq, ← Int.cast_le (R := ℝ)]
  push_cast
  rw [power_eq_normSq p hd hcos, power_eq_normSq q hd hcos, Complex.normSq_eq_norm_sq, Complex.normSq_eq_norm_sq]
  refine (iff_of_eq (congrArg₂ _ ?_ ?_)).trans (mul_le_mul_iff_right₀ hd4) <;> ring

section
variable {a b u c : ℝ}

/-- Two magnitudes that differ by at most `u / c` pass the test. -/
theorem sq_sub_sq_le_of_abs_sub_le (hc : 0 ≤ c) (h : c * |a - b| ≤ u) :
    c ^ 2 * (a ^ 2 - b ^ 2) ^ 2 ≤ 2 * u ^ 2 * (a ^ 2 + b ^ 2) := by
  have hsq : (c * |a - b|) ^ 2 ≤ u ^ 2 := pow_le_pow_left₀ (by positivity) h 2
  rw [mul_pow, sq_abs] at hsq
  calc c ^ 2 * (a ^ 2 - b ^ 2) ^ 2 = c ^ 2 * (a - b) ^ 2 * (a + b) ^ 2 := by ring
    _ ≤ u ^ 2 * (2 * (a ^ 2 + b ^ 2)) := mul_le_mul hsq (by nlinarith [sq_nonneg (a - b)]) (by positivity) (by positivity)
    _ = 2 * u ^ 2 * (a ^ 2 + b ^ 2) := by ring

/-- Two magnitudes that pass the test differ by at most `2·u / c`. -/
theorem abs_sub_le_of_sq_sub_sq_le (ha : 0 ≤ a) (hb : 0 ≤ b) (hu : 0 ≤ u)
    (h : c ^ 2 * (a ^ 2 - b ^ 2) ^ 2 ≤ 2 * u ^ 2 * (a ^ 2 + b ^ 2)) : c * |a - b| ≤ 2 * u := by
  obtain hab | hab := (add_nonneg ha hb).eq_or_lt
  · have h0 : a - b = 0 := by linarith
    rw [h0, abs_zero, mul_zero]
    positivity
  · refine le_of_sq_le_sq ?_ (by positivity)
    have hsq : (c ^ 2 * (a - b) ^ 2) * (a + b) ^ 2 ≤ (2 * u) ^ 2 * (a + b) ^ 2 :=
      calc (c ^ 2 * (a - b) ^ 2) * (a + b) ^ 2 = c ^ 2 * (a ^ 2 - b ^ 2) ^ 2 := by ring
        _ ≤ 2 * u ^ 2 * (a ^ 2 + b ^ 2) := h
        _ ≤ (2 * u) ^ 2 * (a + b) ^ 2 := by
          have := mul_nonneg (sq_nonneg u) (mul_nonneg ha hb)
          nlinarith [mul_nonneg (sq_nonneg u) (add_nonneg (sq_nonneg a) (sq_nonneg b))]
    rw [mul_pow, sq_abs]
    exact le_of_mul_le_mul_right hsq (by positivity)

end

section
variable {p q : Poly} {w : Cosine} {θ : ℝ} (hd : w.d ≠ 0) (hcos : Real.cos θ = w.n / w.d)
include hd hcos

theorem magnitudesAgree_of_near (h : |‖p.at θ‖ - ‖q.at θ‖| ≤ oneUnits / 2 ^ 18) : magnitudesAgree p q w = true := by
  rw [magnitudesAgree_iff hd hcos]
  have := sq_sub_sq_le_of_abs_sub_le (c := 2 ^ 18) (by positivity) (h := (le_div_iff₀' (by positivity)).1 h)
  norm_num at this ⊢
  exact this

theorem near_of_magnitudesAgree (h : magnitudesAgree p q w = true) : |‖p.at θ‖ - ‖q.at θ‖| ≤ oneUnits / 2 ^ 17 := by
  rw [magnitudesAgree_iff hd hcos] at h
  have hone : (0 : ℝ) ≤ oneUnits := Int.cast_nonneg (by decide)
  have := abs_sub_le_of_sq_sub_sq_le (c := 2 ^ 18) (norm_nonneg _) (norm_nonneg _) hone (by norm_num at h ⊢; exact h)
  rw [le_div_iff₀' (by positivity)]
  linarith

end

end Sys2Proof.Machine
end

section
/-! PROOFS. The poles of a set (R182, R187): the test for the radius, and the solutions of a stable recurrence without
input. -/

namespace Sys2Proof.Machine

/-! ### The roots of a real quadratic within a radius -/

/-- A quadratic over ℂ is the product over its two roots. -/
theorem exists_roots (b c : ℂ) : ∃ z₁ z₂ : ℂ, z₁ + z₂ = -b ∧ z₁ * z₂ = c := by
  obtain ⟨s, hs⟩ := IsAlgClosed.exists_pow_nat_eq (b ^ 2 - 4 * c) (n := 2) (by decide)
  exact ⟨(-b + s) / 2, (-b - s) / 2, by ring, by linear_combination -hs / 4⟩

section
variable {b c ρ : ℝ} (hρ : 0 < ρ)
include hρ

theorem mul_abs_lt_iff {t : ℝ} : ρ * |b| < t ↔ -t < ρ * b ∧ ρ * b < t := by
  rw [← abs_lt, abs_mul, abs_of_pos hρ]

/-- The test for a radius bounds a real root: at `±ρ` the quadratic is positive, and the other root, of product `c`, lies
inside. -/
theorem abs_lt_of_real_root (hc : |c| < ρ ^ 2) (hb : ρ * |b| < ρ ^ 2 + c) {x : ℝ} (hx : x ^ 2 + b * x + c = 0) : |x| < ρ := by
  by_contra hge
  have hge := not_lt.1 hge
  have hother : |-b - x| < ρ := by
    have hprod : x * (-b - x) = c := by linear_combination -hx
    rw [← hprod, abs_mul] at hc
    nlinarith [abs_nonneg (-b - x)]
  obtain ⟨hlo, hhi⟩ := abs_lt.1 hother
  obtain ⟨hb₁, hb₂⟩ := (mul_abs_lt_iff hρ).1 hb
  obtain hx' | hx' := le_abs'.1 hge
  · nlinarith [mul_nonneg (sub_nonneg.2 hx') (by linarith : 0 ≤ ρ + (-b - x))]
  · nlinarith [mul_nonneg (sub_nonneg.2 hx') (by linarith : 0 ≤ ρ - (-b - x))]

/-- The test for a radius bounds every root. -/
theorem norm_lt_of_root (hc : |c| < ρ ^ 2) (hb : ρ * |b| < ρ ^ 2 + c) {z : ℂ} (hz : z ^ 2 + b * z + c = 0) : ‖z‖ < ρ := by
  have hre := congrArg Complex.re hz
  have him := congrArg Complex.im hz
  simp only [pow_two, Complex.add_re, Complex.mul_re, Complex.ofReal_re, Complex.ofReal_im, Complex.add_im, Complex.mul_im,
    Complex.zero_re, Complex.zero_im, zero_mul, sub_zero, add_zero] at hre him
  by_cases hy : z.im = 0
  · have hroot : z.re ^ 2 + b * z.re + c = 0 := by
      rw [hy] at hre
      linear_combination hre
    have hreal : z = (z.re : ℂ) := Complex.ext rfl hy
    rw [hreal, Complex.norm_real]
    exact abs_lt_of_real_root hρ hc hb hroot
  · have hsum : b = -2 * z.re := mul_right_cancel₀ hy (by linear_combination him)
    have hnorm : ‖z‖ ^ 2 = c := by
      rw [← Complex.normSq_eq_norm_sq, Complex.normSq_apply]
      rw [hsum] at hre
      linear_combination -hre
    exact lt_of_pow_lt_pow_left₀ 2 hρ.le (hnorm.trans_lt ((le_abs_self c).trans_lt hc))

/-- Two real roots within a radius pass the test: at `±ρ` the quadratic is a product of positive factors. -/
theorem radius_test_of_real_roots {x₁ x₂ : ℝ} (hsum : x₁ + x₂ = -b) (hprod : x₁ * x₂ = c) (h₁ : |x₁| < ρ) (h₂ : |x₂| < ρ) :
    |c| < ρ ^ 2 ∧ ρ * |b| < ρ ^ 2 + c := by
  obtain ⟨hlo₁, hhi₁⟩ := abs_lt.1 h₁
  obtain ⟨hlo₂, hhi₂⟩ := abs_lt.1 h₂
  obtain rfl : b = -(x₁ + x₂) := by rw [hsum, neg_neg]
  rw [mul_abs_lt_iff hρ, ← hprod, abs_mul, pow_two]
  refine ⟨mul_lt_mul'' h₁ h₂ (abs_nonneg _) (abs_nonneg _), ?_, ?_⟩
  · nlinarith [mul_pos (sub_pos.2 hhi₁) (sub_pos.2 hhi₂)]
  · nlinarith [mul_pos (neg_lt_iff_pos_add.1 hlo₁) (neg_lt_iff_pos_add.1 hlo₂)]

/-- Two conjugate roots within a radius pass the test: `c` is their squared norm. -/
theorem radius_test_of_negative_discriminant (hdisc : b ^ 2 < 4 * c) (hc : c < ρ ^ 2) :
    |c| < ρ ^ 2 ∧ ρ * |b| < ρ ^ 2 + c := by
  have hc0 : 0 < c := by nlinarith [sq_nonneg b]
  refine ⟨(abs_of_pos hc0).trans_lt hc, (mul_abs_lt_iff hρ).2 (abs_lt.1 (abs_lt_of_sq_lt_sq ?_ (by positivity)))⟩
  calc (ρ * b) ^ 2 = ρ ^ 2 * b ^ 2 := mul_pow ..
    _ < ρ ^ 2 * (4 * c) := mul_lt_mul_of_pos_left hdisc (by positivity)
    _ ≤ (ρ ^ 2 + c) ^ 2 := by nlinarith [sq_nonneg (ρ ^ 2 - c)]

/-- The test for a radius: both roots lie within it. -/
theorem radius_test_iff : |c| < ρ ^ 2 ∧ ρ * |b| < ρ ^ 2 + c ↔ ∀ z : ℂ, z ^ 2 + b * z + c = 0 → ‖z‖ < ρ := by
  refine ⟨fun ⟨hc, hb⟩ z hz => norm_lt_of_root hρ hc hb hz, fun h => ?_⟩
  obtain hdisc | hdisc := le_or_gt 0 (b ^ 2 - 4 * c)
  · obtain ⟨s, hs⟩ : ∃ s : ℝ, s ^ 2 = b ^ 2 - 4 * c := ⟨_, Real.sq_sqrt hdisc⟩
    have hroot : ∀ s : ℝ, s ^ 2 = b ^ 2 - 4 * c → |(-b + s) / 2| < ρ := fun s hs => by
      rw [← Real.norm_eq_abs, ← Complex.norm_real]
      refine h _ ?_
      norm_cast
      linear_combination hs / 4
    refine radius_test_of_real_roots hρ ?_ ?_ (hroot s hs) (hroot (-s) (by rw [neg_sq, hs]))
    · ring
    · linear_combination -hs / 4
  · obtain ⟨s, hs⟩ : ∃ s : ℝ, s ^ 2 = -(b ^ 2 - 4 * c) := ⟨_, Real.sq_sqrt (neg_pos.2 hdisc).le⟩
    have hnorm : ‖(⟨-b / 2, s / 2⟩ : ℂ)‖ ^ 2 = c := by
      rw [← Complex.normSq_eq_norm_sq, Complex.normSq_apply]
      linear_combination hs / 4
    refine radius_test_of_negative_discriminant hρ (by linarith) ?_
    rw [← hnorm]
    refine pow_lt_pow_left₀ (h _ (Complex.ext ?_ ?_)) (norm_nonneg _) two_ne_zero
    · simp [pow_two]
      linear_combination -hs / 4
    · simp [pow_two]
      ring

end

/-! ### The poles of a set -/

/-- `polesWithin` is the test for the radius `r / s` on the values of the feedback coefficients. -/
theorem polesWithin_iff_radius_test {r s : Int} (hr : 0 < r) (hs : 0 < s) (k : Coeffs) :
    polesWithin r s k = true ↔
      |(F32.units k.b1 : ℝ) / oneUnits| < ((r : ℝ) / s) ^ 2 ∧
        (r : ℝ) / s * |(F32.units k.b0 : ℝ) / oneUnits| < ((r : ℝ) / s) ^ 2 + (F32.units k.b1 : ℝ) / oneUnits := by
  have hone : (0 : ℝ) < oneUnits := Int.cast_pos.2 (by decide)
  have hr' : (0 : ℝ) < r := Int.cast_pos.2 hr
  have hs' : (0 : ℝ) < s := Int.cast_pos.2 hs
  have hscale : (0 : ℝ) < s ^ 2 * oneUnits := by positivity
  rw [polesWithin, decide_eq_true_eq, ← Int.cast_lt (R := ℝ), ← Int.cast_lt (R := ℝ), abs_div, abs_div, abs_of_pos hone]
  push_cast
  refine and_congr ?_ ?_ <;> refine (iff_of_eq (congrArg₂ _ ?_ ?_)).trans (mul_lt_mul_iff_right₀ hscale) <;> field_simp

/-- `polesWithin` holds exactly when both poles lie within the radius. -/
theorem polesWithin_iff {r s : Int} (hr : 0 < r) (hs : 0 < s) (k : Coeffs) :
    polesWithin r s k = true ↔
      ∀ z : ℂ, oneUnits * z ^ 2 + F32.units k.b0 * z + F32.units k.b1 = 0 → ‖z‖ < (r : ℝ) / s := by
  have hρ : (0 : ℝ) < r / s := div_pos (Int.cast_pos.2 hr) (Int.cast_pos.2 hs)
  have hone : (oneUnits : ℂ) ≠ 0 := Int.cast_ne_zero.2 (by decide)
  rw [polesWithin_iff_radius_test hr hs, radius_test_iff hρ]
  refine forall_congr' fun z => imp_congr_left ?_
  rw [← mul_right_inj' hone, mul_zero]
  push_cast
  field_simp

/-! ### The solutions without input -/

/-- A second-order linear recurrence whose two roots lie inside a radius below 1 dies away: its solutions are bounded by
`(A + m·B)·ρ^m`. -/
theorem tendsto_zero_of_roots {z₁ z₂ : ℂ} (h₁ : ‖z₁‖ < 1) (h₂ : ‖z₂‖ < 1) {y : ℕ → ℂ}
    (hy : ∀ m, y (m + 2) = (z₁ + z₂) * y (m + 1) - z₁ * z₂ * y m) : Filter.Tendsto y Filter.atTop (nhds 0) := by
  obtain ⟨ρ, hlo, hρ⟩ := exists_between (max_lt h₁ h₂)
  have h₁ρ : ‖z₁‖ ≤ ρ := (le_max_left _ _).trans hlo.le
  have h₂ρ : ‖z₂‖ ≤ ρ := (le_max_right _ _).trans hlo.le
  have hρ0 : 0 < ρ := ((norm_nonneg z₁).trans (le_max_left _ _)).trans_lt hlo
  have hstep : ∀ m, ‖y (m + 1) - z₁ * y m‖ ≤ ρ ^ m * ‖y 1 - z₁ * y 0‖ := fun m => by
    induction m with
    | zero => simp
    | succ m ih =>
      have hnext : y (m + 2) - z₁ * y (m + 1) = z₂ * (y (m + 1) - z₁ * y m) := by
        rw [hy]
        ring
      rw [hnext, norm_mul, pow_succ', mul_assoc]
      exact mul_le_mul h₂ρ ih (norm_nonneg _) hρ0.le
  set B := ‖y 1 - z₁ * y 0‖
  have hbound : ∀ m : ℕ, ‖y m‖ ≤ ‖y 0‖ * ρ ^ m + B / ρ * (m * ρ ^ m) := fun m => by
    induction m with
    | zero => simp
    | succ m ih =>
      have hnext : y (m + 1) = z₁ * y m + (y (m + 1) - z₁ * y m) := by ring
      calc ‖y (m + 1)‖ ≤ ‖z₁‖ * ‖y m‖ + ‖y (m + 1) - z₁ * y m‖ := by
            rw [← norm_mul]
            exact (congrArg _ hnext).trans_le (norm_add_le _ _)
        _ ≤ ρ * (‖y 0‖ * ρ ^ m + B / ρ * (m * ρ ^ m)) + ρ ^ m * B :=
            add_le_add (mul_le_mul h₁ρ ih (norm_nonneg _) hρ0.le) (hstep m)
        _ = ‖y 0‖ * ρ ^ (m + 1) + B / ρ * ((m + 1 : ℕ) * ρ ^ (m + 1)) := by
            push_cast
            field_simp
            ring
  have hlimit := ((tendsto_pow_atTop_nhds_zero_of_lt_one hρ0.le hρ).const_mul ‖y 0‖).add
    ((tendsto_self_mul_const_pow_of_lt_one hρ0.le hρ).const_mul (B / ρ))
  rw [mul_zero, mul_zero, add_zero] at hlimit
  exact squeeze_zero_norm hbound hlimit

/-- The solutions without input of a stable set die away. -/
theorem settles_tendsto_zero {k : Coeffs} (hk : settles k = true) {y : ℕ → ℂ}
    (hy : ∀ m, (feedback k).p0 * y (m + 2) = -((feedback k).p1 * y (m + 1)) - (feedback k).p2 * y m) :
    Filter.Tendsto y Filter.atTop (nhds 0) := by
  have hone : (oneUnits : ℂ) ≠ 0 := Int.cast_ne_zero.2 (by decide)
  have hpoles := (polesWithin_iff one_pos one_pos k).1 (Bool.and_eq_true_iff.1 hk).2
  rw [Int.cast_one, div_one] at hpoles
  obtain ⟨z₁, z₂, hsum, hprod⟩ := exists_roots ((F32.units k.b0 : ℂ) / oneUnits) ((F32.units k.b1 : ℂ) / oneUnits)
  have hb0 : (F32.units k.b0 : ℂ) = -(oneUnits * (z₁ + z₂)) := by
    rw [hsum]
    field_simp
  have hb1 : (F32.units k.b1 : ℂ) = oneUnits * (z₁ * z₂) := by
    rw [hprod]
    field_simp
  refine tendsto_zero_of_roots (hpoles z₁ ?_) (hpoles z₂ ?_) fun m => mul_left_cancel₀ hone ?_
  · rw [hb0, hb1]
    ring
  · rw [hb0, hb1]
    ring
  · have h := hy m
    simp only [feedback] at h
    rw [h, hb0, hb1]
    ring

/-! ### The statement -/

/-- Settles O60: the weights of the recurrence, the response of a polynomial at `exp(−iθ)` and the roots of the feedback
polynomial. -/
theorem propertiesSpeakOfTheFrequencyResponse : Obligations.PropertiesSpeakOfTheFrequencyResponse := by
  refine ⟨fun d k hk => ?weights, fun k θ H h m => exponential_solves h m, fun k y hk hy => settles_tendsto_zero hk hy,
    fun p q w θ hd hcos => ?response, fun r s k hr hs => polesWithin_iff hr hs k⟩
  case weights =>
    obtain ⟨ha0, ha1, ha2⟩ := recurrence_forward_weights d hk
    obtain ⟨hb0, hb1⟩ := recurrence_feedback_weights d hk
    exact ⟨congr (congrArg₂ Poly.mk ha0.symm ha1.symm) ha2.symm,
      congr (congrArg₂ Poly.mk (by decide) (Int.eq_neg_comm.1 hb0)) (Int.eq_neg_comm.1 hb1)⟩
  case response =>
    exact ⟨power_eq_normSq p hd hcos, quadrature_mul_sin p q hd hcos, cos_two_mul_eq_doubled hd hcos,
      magnitudesAgree_of_near hd hcos, near_of_magnitudesAgree hd hcos⟩

end Sys2Proof.Machine
end
